-- ==== Sys2Proof/Word.lean ====
section
/-! DEFINITION. The token types of the block's streams (R61) and nothing else. -/

namespace Sys2Proof

/-- A byte: one token of `Q_TXIN`, `Q_RSC`, `Q_CVC`, `Q_DEC` (R22, R61); also a field element of
GF(2^8) (R120) and an operation word (R100). -/
abbrev Byte := BitVec 8

/-- One bit of `Q_BITS` (R22, R61). -/
abbrev Bit := Bool

/-- The numeric type `Soft` of samples and soft symbols (parameter P23 of R5). R12 and R135: the
reference semantics is exact arithmetic in an ordered field and the rationals suffice.
DESIGN CHOICE, log 1. -/
abbrev Soft := Rat

/-- A complex baseband sample `(re, im)` (R12, R94): one token of `Q_TXOUT` and `Q_RXIN`. -/
structure Sample where
  re : Soft
  im : Soft
  deriving DecidableEq, Repr

/-- The symbol of a bit, `sym(b) = 2*b - 1`: bit 1 is `+1`, bit 0 is `-1` (R12, R73). -/
def sym (b : Bit) : Soft := if b then 1 else -1

end Sys2Proof
end

