-- ==== Sys2Proof/Syntax.lean ====
section
/-! DEFINITION. The operations of R102 and a line of a program (R110, R111). -/

namespace Sys2Proof

/-- The 23 operations of the operation map (R102), one constructor for each row of
spec/opcode_table.json. R101: an operation word has no register field and no immediate, so no
constructor has an argument. -/
inductive Instr where
  /-- 0x00, R235. -/
  | nop
  /-- 0x01, R236. -/
  | rst
  /-- 0x02, R237. -/
  | txstart
  /-- 0x03, R238. -/
  | txstartb
  /-- 0x04, R242. -/
  | txstop
  /-- 0x05, R239. -/
  | rxstart
  /-- 0x06, R240. -/
  | rxstarts
  /-- 0x07, R243. -/
  | rxstop
  /-- 0x08, R244. -/
  | rdstat
  /-- 0x10, R144. -/
  | rsenc
  /-- 0x20, R153. -/
  | cvenc
  /-- 0x30, R164. -/
  | frmr
  /-- 0x40, R173. -/
  | rrci
  /-- 0x50, R176. -/
  | rrcd
  /-- 0x60, R189. -/
  | defr
  /-- 0x70, R204. -/
  | vitd
  /-- 0x80, R220. -/
  | rsdec
  /-- 0xF0, R245. -/
  | txput
  /-- 0xF1, R246. -/
  | txget
  /-- 0xF2, R247. -/
  | bitget
  /-- 0xF3, R248. -/
  | rxput
  /-- 0xF4, R249. -/
  | symput
  /-- 0xF5, R250. -/
  | rxget
  deriving DecidableEq, Repr

/-- One line of a program (R110, R111): an operation word on the control port together with what the
host holds on the three input data ports while it presents the word (R101, R251: "A model treats a port
transfer as part of the host move that uses it"). A port the host drives with nothing holds `[]`. -/
structure Slot where
  /-- The operation word (R100). -/
  word : Byte
  /-- The data operand of `TXPUT`, on port `txin`. -/
  txin : List Byte := []
  /-- The data operand of `RXPUT`, on port `rxin`. -/
  rxin : List Sample := []
  /-- The data operand of `SYMPUT`, on port `sym`. -/
  sym : List Soft := []
  deriving DecidableEq, Repr

end Sys2Proof
end

