-- ==== Sys2Proof/Decode.lean ====
section
/-! DEFINITION. Operation words to operations and back (R100 to R104). -/

namespace Sys2Proof

/-- What a decoder answers: an operation, or the reserved word by name (R104). -/
inductive Decoded where
  | op (i : Instr)
  | reserved (w : Byte)
  deriving DecidableEq, Repr

/-- Bits 7:4 of an operation word (R100). -/
def unitField (w : Byte) : Nat := w.toNat / 16

/-- Bits 3:0 of an operation word (R100). -/
def fnField (w : Byte) : Nat := w.toNat % 16

/-- Unit 0: the control operations (R102). -/
def controlOp (fn : Nat) : Option Instr :=
  match fn with
  | 0 => some .nop
  | 1 => some .rst
  | 2 => some .txstart
  | 3 => some .txstartb
  | 4 => some .txstop
  | 5 => some .rxstart
  | 6 => some .rxstarts
  | 7 => some .rxstop
  | 8 => some .rdstat
  | _ => none

/-- Units 1 to 8: the stages in pipeline order (R100, R102). -/
def stageOp (unit : Nat) : Option Instr :=
  match unit with
  | 1 => some .rsenc
  | 2 => some .cvenc
  | 3 => some .frmr
  | 4 => some .rrci
  | 5 => some .rrcd
  | 6 => some .defr
  | 7 => some .vitd
  | 8 => some .rsdec
  | _ => none

/-- Unit 0xF: the host data moves (R102). -/
def hostOp (fn : Nat) : Option Instr :=
  match fn with
  | 0 => some .txput
  | 1 => some .txget
  | 2 => some .bitget
  | 3 => some .rxput
  | 4 => some .symput
  | 5 => some .rxget
  | _ => none

/-- The operation of a word, if it has one: within units 1 to 8 only `fn = 0` (R104). -/
def decodeOption (w : Byte) : Option Instr :=
  match unitField w with
  | 0 => controlOp (fnField w)
  | 15 => hostOp (fnField w)
  | u => if fnField w = 0 then stageOp u else none

/-- R103: total on all 256 words; R104: the 233 others are refused by name. -/
def decode (w : Byte) : Decoded :=
  match decodeOption w with
  | some i => .op i
  | none => .reserved w

/-- The word of an operation (R102). -/
def encode : Instr → Byte
  | .nop => 0x00#8
  | .rst => 0x01#8
  | .txstart => 0x02#8
  | .txstartb => 0x03#8
  | .txstop => 0x04#8
  | .rxstart => 0x05#8
  | .rxstarts => 0x06#8
  | .rxstop => 0x07#8
  | .rdstat => 0x08#8
  | .rsenc => 0x10#8
  | .cvenc => 0x20#8
  | .frmr => 0x30#8
  | .rrci => 0x40#8
  | .rrcd => 0x50#8
  | .defr => 0x60#8
  | .vitd => 0x70#8
  | .rsdec => 0x80#8
  | .txput => 0xF0#8
  | .txget => 0xF1#8
  | .bitget => 0xF2#8
  | .rxput => 0xF3#8
  | .symput => 0xF4#8
  | .rxget => 0xF5#8

/-- The operation word that stands in the low byte of `w`, of which the table gives `nbits` bits; an
operation word is always 8 bits (R100, R103). -/
def tableWord (nbits w : Nat) : Byte := BitVec.ofNat 8 (w % 2 ^ nbits)

/-- The operation the decoder reads from the table's word `w` of `nbits` bits. -/
def decodeTableWord (nbits w : Nat) : Option Instr :=
  match decode (tableWord nbits w) with
  | .op i => some i
  | .reserved _ => none

end Sys2Proof
end

