-- ==== Sys2Proof/Config.lean ====
section
/-! DEFINITION. The configuration record `CFG` (R5), its derived sizes (R6), its validity (R296), the
reference configuration `CFG_REF`, and the free values for what no rule gives a value (R124, R125). -/

namespace Sys2Proof

/-- P22 `VIT_TB`: the traceback length, `FULL` or a number of pairs (R5, R206, R207). -/
inductive Traceback where
  | full
  | window (d : Nat)
  deriving DecidableEq, Repr

/-- P24 `QDEPTH`: the capacity of each stream, `none` for unbounded (R5, R63). DEDUCED, log 2: one
number a stream, which covers the one number for all streams. -/
structure QDepth where
  txin : Option Nat
  rsc : Option Nat
  cvc : Option Nat
  bits : Option Nat
  txout : Option Nat
  rxin : Option Nat
  sym : Option Nat
  pay : Option Nat
  dec : Option Nat
  rxout : Option Nat
  deriving DecidableEq, Repr

/-- `QDEPTH` unbounded on every stream, the value of `CFG_REF` (R5). -/
def QDepth.unbounded : QDepth := ⟨none, none, none, none, none, none, none, none, none, none⟩

/-- One capacity for all ten streams. -/
def QDepth.uniform (d : Nat) : QDepth :=
  ⟨some d, some d, some d, some d, some d, some d, some d, some d, some d, some d⟩

/-! The constants the source fixes, with the values R5 gives them. The rules of the other files write
them as literals; the fields P1 to P6 and P10 of `Cfg` are held to them by R296. -/

/-- P1, R5. -/
def rsN : Nat := 255
/-- P2, R5. -/
def rsK : Nat := 223
/-- P3, R5. -/
def rsT : Nat := 16
/-- P4, R5. -/
def rsNpar : Nat := 32
/-- P5, R5, R120: `z^8 + z^4 + z^3 + z^2 + 1`. -/
def gfPrim : BitVec 9 := 0x11D#9
/-- P6, R5, R123. -/
def gfAlpha : Byte := 0x02#8
/-- P10, R5. -/
def convK : Nat := 7

/-- The configuration record `CFG` of R5, every field under its name there (P23 `Soft` is the type
`Soft`). `SCR_TAPS` and `SCR_SEED` stand in 32 bits, the greatest `SCR_LEN` of R296. -/
structure Cfg where
  /-- P1 `RS_N`. -/
  rsN : Nat
  /-- P2 `RS_K`. -/
  rsK : Nat
  /-- P3 `RS_T`. -/
  rsT : Nat
  /-- P4 `RS_NPAR`. -/
  rsNpar : Nat
  /-- P5 `GF_PRIM`. -/
  gfPrim : BitVec 9
  /-- P6 `GF_ALPHA`. -/
  gfAlpha : Byte
  /-- P7 `RS_FCR`. -/
  rsFcr : Nat
  /-- P8 `RS_GAP`. -/
  rsGap : Nat
  /-- P9 `NB`, RS blocks a frame. -/
  nb : Nat
  /-- P10 `CONV_K`. -/
  convK : Nat
  /-- P11 `CONV_G1`. -/
  convG1 : BitVec 7
  /-- P12 `CONV_G2`. -/
  convG2 : BitVec 7
  /-- P13 `SYNC_WORD`. -/
  syncWord : BitVec 32
  /-- P14 `SCR_LEN`. -/
  scrLen : Nat
  /-- P15 `SCR_TAPS`. -/
  scrTaps : BitVec 32
  /-- P16 `SCR_SEED`. -/
  scrSeed : BitVec 32
  /-- P17 `RRC_SPS`, the rules' `L`. -/
  rrcSps : Nat
  /-- P18 `RRC_NT`. -/
  rrcNt : Nat
  /-- P19 `RRC_TAPS`. -/
  rrcTaps : List Soft
  /-- P20 `RRC_PHASE`. -/
  rrcPhase : Nat
  /-- P21 `DF_THRESHOLD`. -/
  dfThreshold : Soft
  /-- P22 `VIT_TB`. -/
  vitTb : Traceback
  /-- P24 `QDEPTH`. -/
  qdepth : QDepth
  deriving DecidableEq, Repr

namespace Cfg

/-- `FRAME_PAYLOAD_BYTES`, R6. -/
def framePayloadBytes (c : Cfg) : Nat := 223 * c.nb
/-- `FRAME_RS_BYTES`, R6. -/
def frameRsBytes (c : Cfg) : Nat := 255 * c.nb
/-- `FRAME_CV_BYTES`, R6. -/
def frameCvBytes (c : Cfg) : Nat := 510 * c.nb
/-- `FRAME_CODED_BITS`, R6. -/
def frameCodedBits (c : Cfg) : Nat := 4080 * c.nb
/-- `FRAME_DEC_BITS`, R6. -/
def frameDecBits (c : Cfg) : Nat := 2040 * c.nb
/-- `SYNCFRAME_BITS`, R6. -/
def syncframeBits (c : Cfg) : Nat := 32 + 4080 * c.nb
/-- `H`, the length of `RI_HIST` (R35). -/
def rrcH (c : Cfg) : Nat := (c.rrcNt - 1) / c.rrcSps
/-- The tap `h[i]`, taken as 0 for `i >= RRC_NT` (R173). -/
def tap (c : Cfg) (i : Nat) : Soft := c.rrcTaps.getD i 0

/-! The conditions of R296, one definition for each group. -/

def rsOk (c : Cfg) : Bool :=
  c.rsN == Sys2Proof.rsN && c.rsK == Sys2Proof.rsK && c.rsT == Sys2Proof.rsT
    && c.rsNpar == Sys2Proof.rsNpar
def gfOk (c : Cfg) : Bool := c.gfPrim == Sys2Proof.gfPrim && c.gfAlpha == Sys2Proof.gfAlpha
def fcrOk (c : Cfg) : Bool := decide (c.rsFcr ≤ 254)
def gapOk (c : Cfg) : Bool :=
  decide (1 ≤ c.rsGap) && decide (c.rsGap ≤ 254) && Nat.gcd c.rsGap 255 == 1
def nbOk (c : Cfg) : Bool := decide (1 ≤ c.nb)
def convKOk (c : Cfg) : Bool := c.convK == Sys2Proof.convK
def convMasksOk (c : Cfg) : Bool :=
  c.convG1.getLsbD 0 && c.convG1.getLsbD 6 && c.convG2.getLsbD 0 && c.convG2.getLsbD 6
    && c.convG1 != c.convG2
def scrLenOk (c : Cfg) : Bool := decide (2 ≤ c.scrLen) && decide (c.scrLen ≤ 32)
def scrTapsOk (c : Cfg) : Bool := decide (c.scrTaps.toNat < 2 ^ c.scrLen) && c.scrTaps.getLsbD 0
def scrSeedOk (c : Cfg) : Bool := decide (c.scrSeed.toNat < 2 ^ c.scrLen) && c.scrSeed != 0#32
def rrcSpsOk (c : Cfg) : Bool := decide (1 ≤ c.rrcSps)
def rrcLengthOk (c : Cfg) : Bool := c.rrcNt % 2 == 1 && c.rrcTaps.length == c.rrcNt
/-- R172 (a): `h[j] = h[RRC_NT-1-j]`. -/
def rrcSymmetric (c : Cfg) : Bool := c.rrcTaps.reverse == c.rrcTaps
/-- R172 (b): the sum of squares is exactly 1. -/
def rrcUnitEnergy (c : Cfg) : Bool := (c.rrcTaps.map fun h => h * h).sum == 1
def rrcPhaseOk (c : Cfg) : Bool := c.rrcPhase == (c.rrcNt - 1) % c.rrcSps
def thresholdOk (c : Cfg) : Bool := decide (0 < c.dfThreshold)
def tracebackOk (c : Cfg) : Bool :=
  match c.vitTb with
  | .full => true
  | .window d => decide (35 ≤ d)

/-- A capacity that holds `n` tokens. -/
def holds (cap : Option Nat) (n : Nat) : Bool :=
  match cap with
  | none => true
  | some d => decide (n ≤ d)

/-- R296's list of the largest single push and pop of each stream, its numbers as they stand: 255 on
`Q_DEC` in windowed mode, although a frame's last pair waits for 255 bytes and more beside those that wait
there (log 14), and pushes more than 255 where `NB > 1` and `VIT_TB > 2040`. DESIGN CHOICE, log 23. -/
def queuesOk (c : Cfg) : Bool :=
  holds c.qdepth.txin c.framePayloadBytes && holds c.qdepth.rsc 255 && holds c.qdepth.cvc 2
    && holds c.qdepth.bits 40 && holds c.qdepth.txout c.rrcSps && holds c.qdepth.rxin c.rrcSps
    && holds c.qdepth.sym 1 && holds c.qdepth.pay 2
    && holds c.qdepth.dec (if c.vitTb = .full then c.frameRsBytes else 255)
    && holds c.qdepth.rxout 1

/-- R296: the whole list. -/
def valid (c : Cfg) : Bool :=
  c.rsOk && c.gfOk && c.fcrOk && c.gapOk && c.nbOk && c.convKOk && c.convMasksOk && c.scrLenOk
    && c.scrTapsOk && c.scrSeedOk && c.rrcSpsOk && c.rrcLengthOk && c.rrcSymmetric
    && c.rrcUnitEnergy && c.rrcPhaseOk && c.thresholdOk && c.tracebackOk && c.queuesOk

end Cfg

/-- A valid `CFG` with the proof that it is (R296). An invalid one cannot be built: U6, "`refuse` (no
instance exists)". -/
structure Config extends Cfg where
  ok : toCfg.valid = true
  deriving DecidableEq, Repr

/-- R296: an invalid `CFG` is refused. -/
def Config.ofCfg (c : Cfg) : Option Config :=
  if h : c.valid = true then some ⟨c, h⟩ else none

/-! ## The reference configuration (R5, R146, R160, R163, R178) -/

/-- The numerators `n[0..30]` of the reference taps. R178's decimals are printed approximations of
irrational numbers, whose squares do not sum to exactly 1, as R172 (b) and R296 ask. These integers give
rationals that agree with all twelve decimals of R178 and have unit energy exactly: with `M = 10^15` and
`Q = 2 * sum n^2`, `h[j] = 2*n[j]*M / (M^2 + Q)` and `h[31] = (M^2 - Q) / (M^2 + Q)`.
DESIGN CHOICE, log 3. -/
def rrcRefN : List Int :=
  [363358282779, -271753025564, -80139119305, 448020648889,
   -396155590038, -113285028612, 524672086596, -488665794512] ++
  [-11372641926, 692057867448, -733186105798, -65038230124,
   821050967630, -962250510072, 204859507077, 1229208463937] ++
  [-1560732270381, 103965593709, 1495437175654, -2333703499596,
   1095747653271, 2989283281199, -4632405582958, 813998314702] ++
  [3813932318728, -10141534606466, 10205809510186, 22758106249744,
   -53853583670585, -33743233321400, 242155893338486]

def rrcRefM : Nat := 1000000000000000

def rrcRefQ : Nat := 126930871716959096114520604100

/-- `h[0..30]` of `CFG_REF` (R178). -/
def rrcRefHalf : List Soft :=
  rrcRefN.map fun n => mkRat (2 * n * rrcRefM) (rrcRefM * rrcRefM + rrcRefQ)

/-- `h[31]` of `CFG_REF` (R178). -/
def rrcRefCentre : Soft :=
  mkRat ((rrcRefM * rrcRefM : Nat) - (rrcRefQ : Int)) (rrcRefM * rrcRefM + rrcRefQ)

/-- The 63 taps of `CFG_REF`, symmetric (R178). -/
def rrcRefTaps : List Soft := rrcRefHalf ++ [rrcRefCentre] ++ rrcRefHalf.reverse

/-- `CFG_REF` (R5), for a given number `NB` of RS blocks a frame. -/
def Cfg.refWith (nb : Nat) : Cfg where
  rsN := 255
  rsK := 223
  rsT := 16
  rsNpar := 32
  gfPrim := 0x11D#9
  gfAlpha := 0x02#8
  rsFcr := 1
  rsGap := 1
  nb := nb
  convK := 7
  convG1 := 0x6D#7
  convG2 := 0x4F#7
  syncWord := 0x1ACFFC1D#32
  scrLen := 8
  scrTaps := 0xA9#32
  scrSeed := 0xFF#32
  rrcSps := 2
  rrcNt := 63
  rrcTaps := rrcRefTaps
  rrcPhase := 0
  dfThreshold := 24
  vitTb := .full
  qdepth := .unbounded

/-- `CFG_REF` of R5: `NB = 9`. -/
def Config.ref : Config := ⟨Cfg.refWith 9, by decide +kernel⟩

/-- `CFG_REF` with `NB = 1`, the configuration of most vectors of 95_test_vectors.md. -/
def Config.ref1 : Config := ⟨Cfg.refWith 1, by decide +kernel⟩

/-! ## Free values

R124: "`glog[0]` is undefined and no rule evaluates it"; R125: "`ginv(0)` is undefined". Opaque, so that
nothing can be proved of them; log 4. -/

/-- The undefined `glog[0]` (R124, U11). -/
opaque Config.glogZero : Nat

/-- The undefined `ginv(0)` (R125, U11). -/
opaque Config.ginvZero : Byte

end Sys2Proof
end

