-- ==== Sys2Proof/Machine/State.lean ====
section
/-! DEFINITION. The state of the block (R20 to R47), its reset values (R55), and the reasons a step can
stop. -/

namespace Sys2Proof.Machine

/-- `DF_STATE` (R39). -/
inductive DfState where
  | hunt
  | lock
  deriving DecidableEq, Repr

/-- R39: `HUNT` is encoded 0 and `LOCK` is encoded 1. -/
def DfState.code : DfState → BitVec 1
  | .hunt => 0#1
  | .lock => 1#1

/-- The status of a frame result (R22, R95). -/
inductive FrameStatus where
  | ok
  | corrupt
  deriving DecidableEq, Repr

/-- R95, R281: `OK` is 0 and `CORRUPT` is 1. -/
def FrameStatus.code : FrameStatus → BitVec 1
  | .ok => 0#1
  | .corrupt => 1#1

/-- A frame result `(status, data)`, one token of `Q_RXOUT` (R22, R95). -/
structure FrameResult where
  status : FrameStatus
  data : List Byte
  deriving DecidableEq, Repr

/-- A path metric: a `Soft` or `+inf` (R12, R45). -/
inductive Metric where
  | fin (v : Soft)
  | inf
  deriving DecidableEq, Repr

/-- The transmit half of the state but for its two bits of `CTRL` (R21). -/
structure TxPath where
  /-- `Q_TXIN`, R22. -/
  qTxin : List Byte
  /-- `Q_RSC`, R22. -/
  qRsc : List Byte
  /-- `Q_CVC`, R22. -/
  qCvc : List Byte
  /-- `Q_BITS`, R22. -/
  qBits : List Bit
  /-- `Q_TXOUT`, R22. -/
  qTxout : List Sample
  /-- `CV_CNT`, R31. -/
  cvCnt : Nat
  /-- `CV_SR`, R32: bit 0 the most recent input bit. -/
  cvSr : BitVec 6
  /-- `FR_CNT`, R33. -/
  frCnt : Nat
  /-- `FR_SCR`, R34: `SCR_LEN` bits in the low end of 32. -/
  frScr : BitVec 32
  /-- `RI_HIST`, R35: the newest first. -/
  riHist : List Soft
  deriving DecidableEq, Repr

/-- The receive half of the state but for its two bits of `CTRL` (R21). -/
structure RxPath where
  /-- `Q_RXIN`, R22. -/
  qRxin : List Sample
  /-- `Q_SYM`, R22. -/
  qSym : List Soft
  /-- `Q_PAY`, R22. -/
  qPay : List Soft
  /-- `Q_DEC`, R22. -/
  qDec : List Byte
  /-- `Q_RXOUT`, R22. -/
  qRxout : List FrameResult
  /-- `RD_HIST`, R36: the newest first. -/
  rdHist : List Soft
  /-- `DF_STATE`, R39. -/
  dfState : DfState
  /-- `DF_WIN`, R40: entry 31 the newest. -/
  dfWin : Vector Soft 32
  /-- `DF_CNT`, R41. -/
  dfCnt : Nat
  /-- `DF_INV`, R42. -/
  dfInv : Bool
  /-- `DF_SCR`, R43: `SCR_LEN` bits in the low end of 32. -/
  dfScr : BitVec 32
  /-- `VT_CNT`, R44. -/
  vtCnt : Nat
  /-- `VT_PM`, R45. -/
  vtPm : Vector Metric 64
  /-- `VT_SURV`, R46: the oldest word first. -/
  vtSurv : List (BitVec 64)
  /-- `VT_ACC`, R46. -/
  vtAcc : List Bit
  /-- `VT_NOUT`, R46. -/
  vtNout : Nat
  /-- `RSD_BLK`, R47. -/
  rsdBlk : Nat
  /-- `RSD_BAD`, R47. -/
  rsdBad : Bool
  /-- `RSD_BUF`, R47. -/
  rsdBuf : List Byte
  deriving DecidableEq, Repr

/-- The ports of R251 as the host drives and reads them. They are the block's boundary, not state of the
spec's (R20); logs 6 and 9. -/
structure Ports where
  /-- The control input with its data ports: the lines still to be presented, the next one first. -/
  ctl : List Slot
  /-- What `RDSTAT` has returned on the status port, `(CTRL, STATUS)`, the oldest first (R244). -/
  status : List (Byte × Byte)
  /-- What `TXGET` has returned on port `txout`, one entry an operation, the oldest first (R246). -/
  txout : List (List Sample)
  /-- What `BITGET` has returned on port `bits`, one entry an operation, the oldest first (R247). -/
  bits : List (List Bit)
  /-- What `RXGET` has returned on port `rxout`, the oldest first (R250). -/
  rxout : List FrameResult
  deriving DecidableEq, Repr

/-- The state of R20: `CTRL`, the ten streams and the stage registers of R30 to R47, in the two halves of
R21; with the configuration of the instance (R27, log 5) and its ports. -/
structure State where
  /-- `CFG`: a constant of the instance, which no operation writes (R27). -/
  cfg : Config
  /-- The ports (R251). -/
  ports : Ports
  /-- `CTRL`, R25. -/
  ctrl : BitVec 8
  /-- The transmit path, R21. -/
  tx : TxPath
  /-- The receive path, R21. -/
  rx : RxPath
  deriving DecidableEq, Repr

/-- The faults of the machine. THERE ARE NONE: R280 gives three things that can happen when a word is
presented, a step, stuck (a wait, in which nothing changes: log 8) and refused, and R281's `CORRUPT` stops
nothing. Safe: no step of the model ends in a fault. -/
inductive Fault where
  deriving DecidableEq, Repr

/-- The refusals of R280 (c). (An invalid `CFG`, the third case there, has no instance: `Config`.) -/
inductive Refusal where
  /-- Raised by no meaning: for an arm of `exec` without one. Every arm has one. Safe. -/
  | notModelled (mnemonic : String)
  /-- Raised by `step` on one of the 233 reserved words (R104). Safe: the spec gives the word no meaning. -/
  | reservedWord (w : Byte)
  /-- Raised by `TXPUT` whose operand is not exactly `FRAME_PAYLOAD_BYTES` bytes, of `length` bytes
  (R245). Safe: the spec refuses it. -/
  | frameLength (length : Nat)
  deriving DecidableEq, Repr

/-- The metrics at the start of a frame: 0 for state 0, `+inf` for every other (R45). -/
def startMetrics : Vector Metric 64 :=
  Vector.ofFn fun n => if n.val = 0 then .fin 0 else .inf

/-- The transmit column of R55. -/
def TxPath.reset (c : Cfg) : TxPath where
  qTxin := []
  qRsc := []
  qCvc := []
  qBits := []
  qTxout := []
  cvCnt := 0
  cvSr := 0#6
  frCnt := 0
  frScr := c.scrSeed
  riHist := List.replicate c.rrcH 0

/-- The receive column of R55. -/
def RxPath.reset (c : Cfg) : RxPath where
  qRxin := []
  qSym := []
  qPay := []
  qDec := []
  qRxout := []
  rdHist := List.replicate (c.rrcNt - 1) 0
  dfState := .hunt
  dfWin := Vector.ofFn fun _ => 0
  dfCnt := 0
  dfInv := false
  dfScr := c.scrSeed
  vtCnt := 0
  vtPm := startMetrics
  vtSurv := []
  vtAcc := []
  vtNout := 0
  rsdBlk := 0
  rsdBad := false
  rsdBuf := []

/-- Ports on which nothing is presented and nothing has been returned. -/
def Ports.idle : Ports := ⟨[], [], [], [], []⟩

/-- The reset state of R55 for a configuration. -/
def State.resetWith (c : Config) : State where
  cfg := c
  ports := .idle
  ctrl := 0x00#8
  tx := .reset c.toCfg
  rx := .reset c.toCfg

/-- The reset state of R55 under `CFG_REF` (R5). -/
def State.reset : State := .resetWith .ref

end Sys2Proof.Machine
end

