-- ==== Sys2Proof/Machine/Ops.lean ====
section
/-! DEFINITION. The named operations on streams, `CTRL`, the two paths and the ports; resetting; raising
`CORRUPT`; and completing or waiting at an operation word. -/

namespace Sys2Proof.Machine

/-! ## Streams (R62, R63) -/

/-- `Pop(Q, n)` returns `Q[0..n)` (R62). -/
def popped {α : Type} (q : List α) (n : Nat) : List α := q.take n

/-- `Pop(Q, n)` leaves `Q[n..|Q|)` (R62). -/
def left {α : Type} (q : List α) (n : Nat) : List α := q.drop n

/-- `Push(Q, s)` appends `s` to the tail (R63). -/
def push {α : Type} (q s : List α) : List α := q ++ s

/-- `Pop(Q, n)` is enabled iff `|Q| >= n` (R62). -/
def has {α : Type} (q : List α) (n : Nat) : Bool := decide (n ≤ q.length)

/-- A stream of capacity `cap` has room for `n` more tokens (R63). -/
def room {α : Type} (cap : Option Nat) (q : List α) (n : Nat) : Bool := Cfg.holds cap (q.length + n)

/-! ## `CTRL` (R25) -/

/-- `CTRL.TX_EN`, bit 0. -/
def State.txEn (s : State) : Bool := s.ctrl.getLsbD 0
/-- `CTRL.RX_EN`, bit 1. -/
def State.rxEn (s : State) : Bool := s.ctrl.getLsbD 1
/-- `CTRL.TX_TAP`, bit 2. -/
def State.txTap (s : State) : Bool := s.ctrl.getLsbD 2
/-- `CTRL.RX_SRC`, bit 3. -/
def State.rxSrc (s : State) : Bool := s.ctrl.getLsbD 3

/-- Bit `i` of `CTRL` set to `b`, the other bits kept. -/
def ctrlWith (ctrl : BitVec 8) (i : Nat) (b : Bool) : BitVec 8 :=
  if b then ctrl ||| (1#8 <<< i) else ctrl &&& ~~~(1#8 <<< i)

/-- `CTRL` as it is read: bits 7:4 read as 0 (R25). -/
def State.ctrlRead (s : State) : BitVec 8 := s.ctrl &&& 0x0F#8

/-! ## The fields of State -/

def State.setCtrl (s : State) (v : BitVec 8) : State := { s with ctrl := v }
def State.setTx (s : State) (t : TxPath) : State := { s with tx := t }
def State.setRx (s : State) (r : RxPath) : State := { s with rx := r }

/-- `return` on the status port (R244). -/
def State.emitStatus (s : State) (r : Byte × Byte) : State :=
  { s with ports := { s.ports with status := s.ports.status ++ [r] } }
/-- `return` on port `txout` (R246). -/
def State.emitTxout (s : State) (r : List Sample) : State :=
  { s with ports := { s.ports with txout := s.ports.txout ++ [r] } }
/-- `return` on port `bits` (R247). -/
def State.emitBits (s : State) (r : List Bit) : State :=
  { s with ports := { s.ports with bits := s.ports.bits ++ [r] } }
/-- `return` on port `rxout` (R250). -/
def State.emitRxout (s : State) (r : FrameResult) : State :=
  { s with ports := { s.ports with rxout := s.ports.rxout ++ [r] } }

/-! ## The control port (R100, R251) -/

/-- What an idle control port presents: the word 0x00 and no data. R235: `NOP` "exists so that an idle
control port has a defined word". DEDUCED, log 7. -/
def idleSlot : Slot := { word := 0x00#8 }

/-- The line presented now. -/
def State.slot (s : State) : Slot := s.ports.ctl.headD idleSlot

/-- The word presented now. -/
def State.presented (s : State) : Byte := s.slot.word

/-- The presented line has been carried out and the next is looked at (R100). -/
def State.advance (s : State) : State :=
  { s with ports := { s.ports with ctl := s.ports.ctl.drop 1 } }

/-- R280 (a), (b): an enabled operation is carried out completely and the control port goes on to the
next line; one that is not enabled is STUCK: nothing changes, the line stays presented (R105).
DEDUCED, log 8. -/
def State.complete (s : State) (enabled : Bool) (done : State) :
    Host.Outcome State Fault Refusal :=
  if enabled then .next done.advance else .next s

/-! ## Resetting (R55, R236, R241) -/

/-- The transmit path in its reset state (R241). -/
def State.resetTx (s : State) : State := s.setTx (.reset s.cfg.toCfg)

/-- The receive path in its reset state (R241). -/
def State.resetRx (s : State) : State := s.setRx (.reset s.cfg.toCfg)

/-- `RST`: every state element at its value of R55 (R236). The ports are not state (R20): log 10. -/
def State.resetAll (s : State) : State := (s.resetTx.resetRx).setCtrl 0x00#8

/-- The transmit path reset and enabled, `TX_TAP` as given (R237, R238). -/
def State.startTx (s : State) (tap : Bool) : State :=
  s.resetTx.setCtrl (ctrlWith (ctrlWith s.ctrl 0 true) 2 tap)

/-- The receive path reset and enabled, `RX_SRC` as given (R239, R240). -/
def State.startRx (s : State) (src : Bool) : State :=
  s.resetRx.setCtrl (ctrlWith (ctrlWith s.ctrl 1 true) 3 src)

/-! ## The one exception (R281) -/

/-- `raise CORRUPT`: `RSD_BAD <- 1`, and nothing else at that moment (R281). There is no entry and no
return (R286): the firing goes on. -/
def RxPath.raiseCorrupt (r : RxPath) : RxPath := { r with rsdBad := true }

end Sys2Proof.Machine
end

