-- ==== Sys2Proof/Machine/Operands.lean ====
section
/-! DEFINITION. Where an operation takes its operands (R101): the data ports of the presented line, and
the line a lone operation word stands for. -/

namespace Sys2Proof.Machine

/-- The operand `F` of `TXPUT`, on port `txin` (R245). -/
def State.txinOperand (s : State) : List Byte := s.slot.txin

/-- The operand `Z` of `RXPUT`, on port `rxin` (R248). -/
def State.rxinOperand (s : State) : List Sample := s.slot.rxin

/-- The operand `Y` of `SYMPUT`, on port `sym` (R249). -/
def State.symOperand (s : State) : List Soft := s.slot.sym

/-- The line of a word whose data operand is all zeros: a frame of zero bytes for `TXPUT`, which has no
operand of another length (R245); nothing for every other word. DESIGN CHOICE, log 17. -/
def zeroOperandSlot (c : Cfg) (w : Byte) : Slot :=
  if w = 0xF0#8 then { word := w, txin := List.replicate c.framePayloadBytes 0#8 } else { word := w }

end Sys2Proof.Machine
end

