-- ==== Sys2Proof/Machine/Bits.lean ====
section
/-! DEFINITION. Parity, and bytes to bits and back (R10, R70, R71). -/

namespace Sys2Proof.Machine

/-- `parity(v)`: the XOR of all bits of `v` (R10). -/
def parity {n : Nat} (v : BitVec n) : Bool :=
  (List.range n).foldl (fun a i => a ^^ v.getLsbD i) false

/-- R70: a byte as bits, MSB-first. -/
def bitsOfByte (b : Byte) : List Bit :=
  (List.range 8).map fun i => b.getMsbD i

/-- R71: bits to a number, the earliest the highest; eight of them make a byte. -/
def byteOfBits (bs : List Bit) : Byte :=
  bs.foldl (fun a b => (a <<< 1) ||| (if b then 1#8 else 0#8)) 0#8

/-- R71: eight consecutive bits at a time to bytes, and the fewer than eight that remain. -/
def packBytes : List Bit → List Byte × List Bit
  | b7 :: b6 :: b5 :: b4 :: b3 :: b2 :: b1 :: b0 :: rest =>
    let r := packBytes rest
    (byteOfBits [b7, b6, b5, b4, b3, b2, b1, b0] :: r.1, r.2)
  | short => ([], short)

/-- A word of any width as bits, MSB-first (R72 for the sync word). -/
def bitsMsbFirst {n : Nat} (v : BitVec n) : List Bit :=
  (List.range n).map fun i => v.getMsbD i

end Sys2Proof.Machine
end

