-- ==== Sys2Proof/Machine/ConvCode.lean ====
section
/-! DEFINITION. The rate-1/2, constraint-length-7 convolutional code (R150 to R154), as pure functions. -/

namespace Sys2Proof.Machine

/-- The window `w = ((sr << 1) | b) & 0x7F` (R151): bit 0 the current input bit, bit 6 the oldest. -/
def convWindow (sr : BitVec 6) (b : Bit) : BitVec 7 :=
  (sr.setWidth 7 <<< 1) ||| (if b then 1#7 else 0#7)

/-- `o1` of R152. -/
def convOut1 (c : Cfg) (w : BitVec 7) : Bit := parity (w &&& c.convG1)

/-- `o2` of R152. -/
def convOut2 (c : Cfg) (w : BitVec 7) : Bit := parity (w &&& c.convG2)

/-- The register after the window `w`: `w & 0x3F` (R152). -/
def convNext (w : BitVec 7) : BitVec 6 := w.setWidth 6

/-- `conv_step` along a list of input bits (R152): the coded bits, two for each, and the register. -/
def convBits (c : Cfg) : BitVec 6 → List Bit → List Bit × BitVec 6
  | sr, [] => ([], sr)
  | sr, b :: bs =>
    let w := convWindow sr b
    let r := convBits c (convNext w) bs
    (convOut1 c w :: convOut2 c w :: r.1, r.2)

end Sys2Proof.Machine
end

