-- ==== Sys2Proof/Machine/Trellis.lean ====
section
/-! DEFINITION. The trellis of the Viterbi decoder: metrics, add-compare-select, traceback (R201 to R207),
as pure functions. -/

namespace Sys2Proof.Machine

/-- A metric plus a Soft: `+inf + x = +inf` (R12). -/
def Metric.add : Metric → Soft → Metric
  | .fin v, x => .fin (v + x)
  | .inf, _ => .inf

/-- `a < b` on metrics: `+inf` is greater than every Soft, and `+inf < +inf` is false (R136). -/
def Metric.lt : Metric → Metric → Bool
  | .fin a, .fin b => decide (a < b)
  | .fin _, .inf => true
  | .inf, _ => false

/-- `bm(r1, r2, w)`: the squared Euclidean distance to the expected pair (R201, R202). -/
def branchMetric (c : Cfg) (r1 r2 : Soft) (w : BitVec 7) : Soft :=
  (r1 - sym (convOut1 c w)) * (r1 - sym (convOut1 c w)) +
    (r2 - sym (convOut2 c w)) * (r2 - sym (convOut2 c w))

/-- `m0` of R203: from the predecessor `n >> 1` along the window `n`. -/
def acsMetric0 (c : Cfg) (pm : Vector Metric 64) (r1 r2 : Soft) (n : Fin 64) : Metric :=
  (pm[n.val / 2]'(by omega)).add (branchMetric c r1 r2 (BitVec.ofNat 7 n.val))

/-- `m1` of R203: from the predecessor `(n >> 1) | 0x20` along the window `n | 0x40`. -/
def acsMetric1 (c : Cfg) (pm : Vector Metric 64) (r1 r2 : Soft) (n : Fin 64) : Metric :=
  (pm[n.val / 2 + 32]'(by omega)).add (branchMetric c r1 r2 (BitVec.ofNat 7 (n.val + 64)))

/-- The survivor decision of state `n`: 1 iff `m1 < m0`; a tie keeps the predecessor with bit 5 clear
(R203). -/
def acsDecision (c : Cfg) (pm : Vector Metric 64) (r1 r2 : Soft) (n : Fin 64) : Bool :=
  (acsMetric1 c pm r1 r2 n).lt (acsMetric0 c pm r1 r2 n)

/-- `NPM` of R203. -/
def acsMetrics (c : Cfg) (pm : Vector Metric 64) (r1 r2 : Soft) : Vector Metric 64 :=
  Vector.ofFn fun n =>
    if acsDecision c pm r1 r2 n then acsMetric1 c pm r1 r2 n else acsMetric0 c pm r1 r2 n

/-- `dec` of R203 as a 64-bit word: bit `s` is the decision for state `s` (R46). -/
def acsDecisions (c : Cfg) (pm : Vector Metric 64) (r1 r2 : Soft) : BitVec 64 :=
  BitVec.ofFnLE fun n => acsDecision c pm r1 r2 n

/-- The state with the least metric, the lowest index on a tie (R10, R206). -/
def bestState (pm : Vector Metric 64) : BitVec 6 :=
  BitVec.ofNat 6
    ((List.finRange 64).foldl (fun (best : Fin 64) n => if pm[n].lt pm[best] then n else best) 0).val

/-- The predecessor of `s` by the decision word `dec`: `(s >> 1) | (dec[s] << 5)` (R203). -/
def survivorPred (dec : BitVec 64) (s : BitVec 6) : BitVec 6 :=
  (s >>> 1) ||| (if dec.getLsbD s.toNat then 0x20#6 else 0#6)

/-- The traceback loop of R204 along decision words, the NEWEST first, from state `s`: the bits
`u[tt] = s & 1`, the oldest first, before the bits `acc`. -/
def traceback : List (BitVec 64) → BitVec 6 → List Bit → List Bit
  | [], _, acc => acc
  | dec :: older, s, acc => traceback older (survivorPred dec s) (s.getLsbD 0 :: acc)

/-- `e` of R204: how many bits of the frame are decided once pair `t` is processed, `nout` being decided
before it. -/
def bitsDecided (c : Cfg) (t nout : Nat) : Nat :=
  if t = c.frameDecBits - 1 then c.frameDecBits
  else
    match c.vitTb with
    | .full => nout
    | .window d => if d ≤ t + 1 then t + 2 - d else nout

end Sys2Proof.Machine
end

