-- ==== Sys2Proof/Machine/Flags.lean ====
section
/-! DEFINITION. When each operation is enabled (R105 and the rule of each operation) and the register
`STATUS` (R26), a pure function of the state. -/

namespace Sys2Proof.Machine

/-! ## When a stage is enabled -/

/-- R144. -/
def State.rsencEnabled (s : State) : Bool :=
  s.txEn && has s.tx.qTxin 223 && room s.cfg.qdepth.rsc s.tx.qRsc 255

/-- R153. -/
def State.cvencEnabled (s : State) : Bool :=
  s.txEn && has s.tx.qRsc 1 && room s.cfg.qdepth.cvc s.tx.qCvc 2

/-- R164: room for 40 bits, at every firing; log 13. -/
def State.frmrEnabled (s : State) : Bool :=
  s.txEn && has s.tx.qCvc 1 && room s.cfg.qdepth.bits s.tx.qBits 40

/-- R173. -/
def State.rrciEnabled (s : State) : Bool :=
  s.txEn && !s.txTap && has s.tx.qBits 1 && room s.cfg.qdepth.txout s.tx.qTxout s.cfg.rrcSps

/-- R176. -/
def State.rrcdEnabled (s : State) : Bool :=
  s.rxEn && !s.rxSrc && has s.rx.qRxin s.cfg.rrcSps && room s.cfg.qdepth.sym s.rx.qSym 1

/-- R189. -/
def State.defrEnabled (s : State) : Bool :=
  s.rxEn && has s.rx.qSym 1 && room s.cfg.qdepth.pay s.rx.qPay 1

/-- The bytes of `Q_DEC` a firing of `VITD` must have room for (R204): `FRAME_RS_BYTES` at a frame's last
pair, whatever `VIT_TB`, and 1 before it in windowed mode; none before it with `FULL`, where the firing
pushes nothing. R204's number for the last pair is kept in windowed mode against R63, which would ask for
the bytes pushed, also where a valid capacity then leaves `VITD` stuck for ever (NB = 1 and `VIT_TB = 35`:
255 to 504): DESIGN CHOICE, log 14. -/
def vitdRoom (c : Cfg) (r : RxPath) : Nat :=
  if r.vtCnt = c.frameDecBits - 1 then
    c.frameRsBytes
  else
    match c.vitTb with
    | .full => 0
    | .window _ => 1

/-- R204. -/
def State.vitdEnabled (s : State) : Bool :=
  s.rxEn && has s.rx.qPay 2 && room s.cfg.qdepth.dec s.rx.qDec (vitdRoom s.cfg.toCfg s.rx)

/-- R220: room for a result when the firing completes a frame. -/
def State.rsdecEnabled (s : State) : Bool :=
  s.rxEn && has s.rx.qDec 255 &&
    (s.rx.rsdBlk + 1 != s.cfg.nb || room s.cfg.qdepth.rxout s.rx.qRxout 1)

/-! ## When a host move is enabled -/

/-- R245: the operand is a whole frame. -/
def State.txputLengthOk (s : State) : Bool := s.txinOperand.length == s.cfg.framePayloadBytes

/-- R245. -/
def State.txputEnabled (s : State) : Bool :=
  s.txputLengthOk && room s.cfg.qdepth.txin s.tx.qTxin s.txinOperand.length

/-- R247: `BITGET` with `TX_TAP = 1`. -/
def State.bitgetEnabled (s : State) : Bool := s.txTap

/-- R248. -/
def State.rxputEnabled (s : State) : Bool :=
  !s.rxSrc && room s.cfg.qdepth.rxin s.rx.qRxin s.rxinOperand.length

/-- R249. -/
def State.symputEnabled (s : State) : Bool :=
  s.rxSrc && room s.cfg.qdepth.sym s.rx.qSym s.symOperand.length

/-- R250. -/
def State.rxgetEnabled (s : State) : Bool := has s.rx.qRxout 1

/-- Whether an operation is enabled (R105); the control operations and `TXGET` always are (R235 to R244,
R246). -/
def State.enabled (s : State) : Instr → Bool
  | .nop => true
  | .rst => true
  | .txstart => true
  | .txstartb => true
  | .txstop => true
  | .rxstart => true
  | .rxstarts => true
  | .rxstop => true
  | .rdstat => true
  | .rsenc => s.rsencEnabled
  | .cvenc => s.cvencEnabled
  | .frmr => s.frmrEnabled
  | .rrci => s.rrciEnabled
  | .rrcd => s.rrcdEnabled
  | .defr => s.defrEnabled
  | .vitd => s.vitdEnabled
  | .rsdec => s.rsdecEnabled
  | .txput => s.txputEnabled
  | .txget => true
  | .bitget => s.bitgetEnabled
  | .rxput => s.rxputEnabled
  | .symput => s.symputEnabled
  | .rxget => s.rxgetEnabled

/-! ## `STATUS` (R26) -/

/-- Bit 0: `DF_STATE = LOCK`. -/
def State.locked (s : State) : Bool := decide (s.rx.dfState = .lock)
/-- Bit 1: `DF_INV`. -/
def State.inverted (s : State) : Bool := s.rx.dfInv
/-- Bit 2: `RSD_BAD`. -/
def State.frameBad (s : State) : Bool := s.rx.rsdBad
/-- Bit 3: no TX stage is enabled. -/
def State.txIdle (s : State) : Bool :=
  !(s.rsencEnabled || s.cvencEnabled || s.frmrEnabled || s.rrciEnabled)
/-- Bit 4: no RX stage is enabled. -/
def State.rxIdle (s : State) : Bool :=
  !(s.rrcdEnabled || s.defrEnabled || s.vitdEnabled || s.rsdecEnabled)
/-- Bit 5: `Q_RXOUT` holds at least one frame result. -/
def State.rxAvail (s : State) : Bool := has s.rx.qRxout 1

/-- `STATUS`, bits 7:6 zero (R26). -/
def State.statusByte (s : State) : Byte :=
  BitVec.ofFnLE fun i : Fin 8 =>
    match i with
    | 0 => s.locked
    | 1 => s.inverted
    | 2 => s.frameBad
    | 3 => s.txIdle
    | 4 => s.rxIdle
    | 5 => s.rxAvail
    | _ => false

end Sys2Proof.Machine
end

