-- ==== Sys2Proof/Machine/Control.lean ====
section
/-! DEFINITION. The meanings of the control operations (R235 to R244). -/

namespace Sys2Proof.Machine

/-- `NOP` (R235). -/
def execNop (s : State) : Host.Outcome State Fault Refusal := s.complete true s

/-- `RST` (R236). -/
def execRst (s : State) : Host.Outcome State Fault Refusal := s.complete true s.resetAll

/-- `TXSTART` (R237): `TX_EN <- 1`, `TX_TAP <- 0`. -/
def execTxstart (s : State) : Host.Outcome State Fault Refusal := s.complete true (s.startTx false)

/-- `TXSTARTB` (R238): `TX_EN <- 1`, `TX_TAP <- 1`. -/
def execTxstartb (s : State) : Host.Outcome State Fault Refusal := s.complete true (s.startTx true)

/-- `TXSTOP` (R242): `TX_EN <- 0`, nothing else. -/
def execTxstop (s : State) : Host.Outcome State Fault Refusal :=
  s.complete true (s.setCtrl (ctrlWith s.ctrl 0 false))

/-- `RXSTART` (R239): `RX_EN <- 1`, `RX_SRC <- 0`. -/
def execRxstart (s : State) : Host.Outcome State Fault Refusal := s.complete true (s.startRx false)

/-- `RXSTARTS` (R240): `RX_EN <- 1`, `RX_SRC <- 1`. -/
def execRxstarts (s : State) : Host.Outcome State Fault Refusal := s.complete true (s.startRx true)

/-- `RXSTOP` (R243): `RX_EN <- 0`, nothing else. -/
def execRxstop (s : State) : Host.Outcome State Fault Refusal :=
  s.complete true (s.setCtrl (ctrlWith s.ctrl 1 false))

/-- `RDSTAT` (R244): return `[CTRL, STATUS]` on the status port. -/
def execRdstat (s : State) : Host.Outcome State Fault Refusal :=
  s.complete true (s.emitStatus (s.ctrlRead, s.statusByte))

end Sys2Proof.Machine
end

