-- ==== Sys2Proof/Machine/HostMoves.lean ====
section
/-! DEFINITION. The meanings of the host data moves (R245 to R250). -/

namespace Sys2Proof.Machine

/-- `TXPUT` (R245): refused unless the operand is a whole frame; then it is pushed to `Q_TXIN`. -/
def execTxput (s : State) : Host.Outcome State Fault Refusal :=
  if s.txputLengthOk then
    s.complete s.txputEnabled (s.setTx { s.tx with qTxin := push s.tx.qTxin s.txinOperand })
  else .refused (.frameLength s.txinOperand.length)

/-- `TXGET` (R246): everything in `Q_TXOUT` to port `txout`. -/
def execTxget (s : State) : Host.Outcome State Fault Refusal :=
  s.complete true ((s.setTx { s.tx with qTxout := [] }).emitTxout s.tx.qTxout)

/-- `BITGET` (R247): everything in `Q_BITS` to port `bits`, in tap mode. -/
def execBitget (s : State) : Host.Outcome State Fault Refusal :=
  s.complete s.bitgetEnabled ((s.setTx { s.tx with qBits := [] }).emitBits s.tx.qBits)

/-- `RXPUT` (R248): the operand is pushed to `Q_RXIN`. -/
def execRxput (s : State) : Host.Outcome State Fault Refusal :=
  s.complete s.rxputEnabled (s.setRx { s.rx with qRxin := push s.rx.qRxin s.rxinOperand })

/-- `SYMPUT` (R249): the operand is pushed to `Q_SYM`. -/
def execSymput (s : State) : Host.Outcome State Fault Refusal :=
  s.complete s.symputEnabled (s.setRx { s.rx with qSym := push s.rx.qSym s.symOperand })

/-- What `RXGET` hands to port `rxout`: the oldest frame result, if there is one (R250). -/
def State.returnFrame (s : State) : State :=
  match popped s.rx.qRxout 1 with
  | r :: _ => (s.setRx { s.rx with qRxout := left s.rx.qRxout 1 }).emitRxout r
  | [] => s

/-- `RXGET` (R250): pop one frame result; stuck on an empty `Q_RXOUT`. -/
def execRxget (s : State) : Host.Outcome State Fault Refusal :=
  s.complete s.rxgetEnabled s.returnFrame

end Sys2Proof.Machine
end

