-- ==== Sys2Proof/Machine/SyncCorrelator.lean ====
section
/-! DEFINITION. The sync correlator (R187, R188, R192), as pure functions. -/

namespace Sys2Proof.Machine

/-- `c[j] = 2 * SYNC_WORD[31 - j] - 1` (R187). -/
def syncSymbol (c : Cfg) (j : Nat) : Soft := sym (c.syncWord.getLsbD (31 - j))

/-- The window with the oldest symbol out and `x` as `DF_WIN[31]` (R189). -/
def windowPush (win : Vector Soft 32) (x : Soft) : Vector Soft 32 :=
  Vector.ofFn fun j => if h : j.val + 1 < 32 then win[j.val + 1] else x

/-- `corr = sum over j = 0..31 of DF_WIN[j] * c[j]` (R188). -/
def correlation (c : Cfg) (win : Vector Soft 32) : Soft :=
  (List.ofFn fun j : Fin 32 => win[j] * syncSymbol c j).sum

/-- The magnitude of a Soft. -/
def softAbs (x : Soft) : Soft := if x < 0 then -x else x

/-- R192: `abs(corr) >= DF_THRESHOLD`, equality included. -/
def locks (c : Cfg) (corr : Soft) : Bool := decide (c.dfThreshold ≤ softAbs corr)

/-- The window of 32 zeros (R40). -/
def zeroWindow : Vector Soft 32 := Vector.ofFn fun _ => 0

end Sys2Proof.Machine
end

