-- ==== Sys2Proof/Machine/Gf256.lean ====
section
/-! DEFINITION. Arithmetic in GF(2^8) (R120 to R127). Addition is `^^^` (R121). -/

namespace Sys2Proof.Machine

/-- One round of R122: shift `r` left, reduce by `GF_PRIM` when bit 7 leaves, and add `a` for bit `i` of
`b`. -/
def gmulRound (a b : Byte) (r : Byte) (i : Nat) : Byte :=
  let shifted := if r.getLsbD 7 then (r <<< 1) ^^^ gfPrim.setWidth 8 else r <<< 1
  if b.getLsbD i then shifted ^^^ a else shifted

/-- `gmul(a,b)`, R122: the bit-serial product, from bit 7 of `b` down to bit 0. -/
def gmul (a b : Byte) : Byte :=
  [7, 6, 5, 4, 3, 2, 1, 0].foldl (gmulRound a b) 0#8

/-- The table `gexp[0..254]` as R123 prints it, sixteen entries a row. -/
def gexpTable : List Byte :=
  [0x01, 0x02, 0x04, 0x08, 0x10, 0x20, 0x40, 0x80, 0x1D, 0x3A, 0x74, 0xE8, 0xCD, 0x87, 0x13, 0x26] ++
  [0x4C, 0x98, 0x2D, 0x5A, 0xB4, 0x75, 0xEA, 0xC9, 0x8F, 0x03, 0x06, 0x0C, 0x18, 0x30, 0x60, 0xC0] ++
  [0x9D, 0x27, 0x4E, 0x9C, 0x25, 0x4A, 0x94, 0x35, 0x6A, 0xD4, 0xB5, 0x77, 0xEE, 0xC1, 0x9F, 0x23] ++
  [0x46, 0x8C, 0x05, 0x0A, 0x14, 0x28, 0x50, 0xA0, 0x5D, 0xBA, 0x69, 0xD2, 0xB9, 0x6F, 0xDE, 0xA1] ++
  [0x5F, 0xBE, 0x61, 0xC2, 0x99, 0x2F, 0x5E, 0xBC, 0x65, 0xCA, 0x89, 0x0F, 0x1E, 0x3C, 0x78, 0xF0] ++
  [0xFD, 0xE7, 0xD3, 0xBB, 0x6B, 0xD6, 0xB1, 0x7F, 0xFE, 0xE1, 0xDF, 0xA3, 0x5B, 0xB6, 0x71, 0xE2] ++
  [0xD9, 0xAF, 0x43, 0x86, 0x11, 0x22, 0x44, 0x88, 0x0D, 0x1A, 0x34, 0x68, 0xD0, 0xBD, 0x67, 0xCE] ++
  [0x81, 0x1F, 0x3E, 0x7C, 0xF8, 0xED, 0xC7, 0x93, 0x3B, 0x76, 0xEC, 0xC5, 0x97, 0x33, 0x66, 0xCC] ++
  [0x85, 0x17, 0x2E, 0x5C, 0xB8, 0x6D, 0xDA, 0xA9, 0x4F, 0x9E, 0x21, 0x42, 0x84, 0x15, 0x2A, 0x54] ++
  [0xA8, 0x4D, 0x9A, 0x29, 0x52, 0xA4, 0x55, 0xAA, 0x49, 0x92, 0x39, 0x72, 0xE4, 0xD5, 0xB7, 0x73] ++
  [0xE6, 0xD1, 0xBF, 0x63, 0xC6, 0x91, 0x3F, 0x7E, 0xFC, 0xE5, 0xD7, 0xB3, 0x7B, 0xF6, 0xF1, 0xFF] ++
  [0xE3, 0xDB, 0xAB, 0x4B, 0x96, 0x31, 0x62, 0xC4, 0x95, 0x37, 0x6E, 0xDC, 0xA5, 0x57, 0xAE, 0x41] ++
  [0x82, 0x19, 0x32, 0x64, 0xC8, 0x8D, 0x07, 0x0E, 0x1C, 0x38, 0x70, 0xE0, 0xDD, 0xA7, 0x53, 0xA6] ++
  [0x51, 0xA2, 0x59, 0xB2, 0x79, 0xF2, 0xF9, 0xEF, 0xC3, 0x9B, 0x2B, 0x56, 0xAC, 0x45, 0x8A, 0x09] ++
  [0x12, 0x24, 0x48, 0x90, 0x3D, 0x7A, 0xF4, 0xF5, 0xF7, 0xF3, 0xFB, 0xEB, 0xCB, 0x8B, 0x0B, 0x16] ++
  [0x2C, 0x58, 0xB0, 0x7D, 0xFA, 0xE9, 0xCF, 0x83, 0x1B, 0x36, 0x6C, 0xD8, 0xAD, 0x47, 0x8E]

/-- `gexp[i]` for `i` in 0..254 (R123). -/
def gexp (i : Nat) : Byte := gexpTable.getD i 0#8

/-- `glog[v]` (R124): the index of a nonzero `v` in the table; `glog[0]` is undefined, a free value. -/
def glog (v : Byte) : Nat := if v = 0#8 then Config.glogZero else gexpTable.idxOf v

/-- `ginv(a)` (R125); `ginv(0)` is undefined, a free value. -/
def ginv (a : Byte) : Byte := if a = 0#8 then Config.ginvZero else gexp ((255 - glog a) % 255)

/-- `gpow(a, n)` (R125). -/
def gpow (a : Byte) (n : Nat) : Byte :=
  if n = 0 then 1#8 else if a = 0#8 then 0#8 else gexp ((glog a * n) % 255)

/-- `bexp(e) = gexp[(RS_GAP * e) mod 255]` for any integer `e`, reduced into 0..254 (R11, R126). -/
def bexp (c : Cfg) (e : Int) : Byte := gexp (((c.rsGap : Int) * e) % 255).toNat

/-- `peval_hi(c, x)`: Horner's rule, the highest power first (R127). -/
def pevalHi (cs : List Byte) (x : Byte) : Byte :=
  cs.foldl (fun acc c => gmul acc x ^^^ c) 0#8

/-- `peval_lo(p, x)`: Horner's rule, the lowest power first (R127). -/
def pevalLo (ps : List Byte) (x : Byte) : Byte :=
  ps.foldr (fun p acc => gmul acc x ^^^ p) 0#8

/-- The XOR of a list of bytes: a sum in the field (R121). -/
def gsum (xs : List Byte) : Byte := xs.foldl (· ^^^ ·) 0#8

end Sys2Proof.Machine
end

