-- ==== Sys2Proof/Machine/ReedSolomon.lean ====
section
/-! DEFINITION. The Reed-Solomon (255,223) code: generator and parity (R141, R142) and the block decoder
(R221 to R230), as pure functions. -/

namespace Sys2Proof.Machine

/-! ## Encoder -/

/-- One turn of R141's loop: `g * (x + r)`, the coefficients lowest power first. -/
def generatorTimes (g : List Byte) (r : Byte) : List Byte :=
  List.zipWith (· ^^^ ·) (0#8 :: g) (g.map (gmul · r) ++ [0#8])

/-- The generator polynomial (R141): `g[k]` is the coefficient of `x^k`, `k = 0..32`. -/
def rsGenerator (c : Cfg) : List Byte :=
  (List.range 32).foldl (fun g (i : Nat) => generatorTimes g (bexp c ((c.rsFcr + i : Nat) : Int))) [1#8]

/-- One turn of R142's loop on the register `par` for the data byte `d`; `gRev[i]` is `g[31 - i]`. -/
def rsParityStep (gRev : List Byte) (par : List Byte) (d : Byte) : List Byte :=
  let fb := d ^^^ par.headD 0#8
  let shifted := par.drop 1 ++ [0#8]
  if fb ≠ 0#8 then List.zipWith (fun p g => p ^^^ gmul fb g) shifted gRev else shifted

/-- `rs_parity(d[0..222])` (R142): the 32 parity bytes `c[223..254]`. -/
def rsParity (c : Cfg) (d : List Byte) : List Byte :=
  d.foldl (rsParityStep ((rsGenerator c).take 32).reverse) (List.replicate 32 0#8)

/-! ## Decoder -/

/-- The outcome of a block (R215). -/
inductive BlockStatus where
  | ok
  | uncorrectable
  deriving DecidableEq, Repr

/-- `S[i] = peval_hi(r, bexp(RS_FCR + i))`, `i = 0..31` (R221). -/
def syndromes (c : Cfg) (r : List Byte) : List Byte :=
  (List.range 32).map fun (i : Nat) => pevalHi r (bexp c ((c.rsFcr + i : Nat) : Int))

/-- The variables of the loop of R224. -/
structure BmState where
  lam : List Byte
  prev : List Byte
  len : Nat
  shift : Nat
  disc : Byte
  deriving DecidableEq, Repr

/-- `LAM <- [1, 0, ..., 0]; B <- [1, 0, ..., 0]; L <- 0; m <- 1; b <- 1` (R224). -/
def bmStart : BmState where
  lam := 1#8 :: List.replicate 32 0#8
  prev := 1#8 :: List.replicate 32 0#8
  len := 0
  shift := 1
  disc := 1#8

/-- The discrepancy of step `n` (R224). -/
def bmDiscrepancy (syn : List Byte) (b : BmState) (n : Nat) : Byte :=
  syn.getD n 0#8 ^^^
    gsum ((List.range b.len).map fun i => gmul (b.lam.getD (i + 1) 0#8) (syn.getD (n - (i + 1)) 0#8))

/-- `LAM + coef * x^m * B`, entries above index 32 dropped (R224). -/
def bmUpdate (lam prev : List Byte) (coef : Byte) (m : Nat) : List Byte :=
  (List.range 33).map fun k =>
    if m ≤ k then lam.getD k 0#8 ^^^ gmul coef (prev.getD (k - m) 0#8) else lam.getD k 0#8

/-- One turn of the loop of R224. -/
def bmStep (syn : List Byte) (b : BmState) (n : Nat) : BmState :=
  let d := bmDiscrepancy syn b n
  if d = 0#8 then { b with shift := b.shift + 1 }
  else
    let lam' := bmUpdate b.lam b.prev (gmul d (ginv b.disc)) b.shift
    if 2 * b.len ≤ n then
      { lam := lam', prev := b.lam, len := n + 1 - b.len, shift := 1, disc := d }
    else { b with lam := lam', shift := b.shift + 1 }

/-- `berlekamp_massey(S[0..31])` (R224). -/
def berlekampMassey (syn : List Byte) : BmState :=
  (List.range 32).foldl (bmStep syn) bmStart

/-- The largest `i` with `p[i] != 0` (R225), 0 if there is none. -/
def polyDegree (p : List Byte) : Nat :=
  (List.range p.length).foldl (fun d i => if p.getD i 0#8 ≠ 0#8 then i else d) 0

/-- The Chien search (R226): the position numbers `p`, ascending, at which `LAM[0..deg]` vanishes. -/
def chienSearch (c : Cfg) (lam : List Byte) (deg : Nat) : List Nat :=
  (List.range 255).filter fun (p : Nat) => pevalLo (lam.take (deg + 1)) (bexp c (-(p : Int))) == 0#8

/-- The evaluator `OMG = S * LAM mod x^32` (R227). -/
def evaluator (syn lam : List Byte) (deg : Nat) : List Byte :=
  (List.range 32).map fun i =>
    gsum ((List.range (min i deg + 1)).map fun j => gmul (syn.getD (i - j) 0#8) (lam.getD j 0#8))

/-- `den` of R227: the formal derivative of `LAM` at `Xi`, the odd powers. -/
def forneyDen (c : Cfg) (lam : List Byte) (deg p : Nat) : Byte :=
  gsum (((List.range (deg + 1)).filter fun i => i % 2 == 1).map fun i =>
    gmul (lam.getD i 0#8) (gpow (bexp c (-(p : Int))) (i - 1)))

/-- `val` of R227, with `den` not 0. -/
def forneyVal (c : Cfg) (omg : List Byte) (p : Nat) (den : Byte) : Byte :=
  gmul (gpow (bexp c (p : Int)) ((1 - (c.rsFcr : Int)) % 255).toNat)
    (gmul (pevalLo omg (bexp c (-(p : Int)))) (ginv den))

/-- One turn of the correction loop of R230: `none` when the denominator is 0 (R229 (4)). -/
def forneyCorrect (c : Cfg) (lam omg : List Byte) (deg : Nat) (word : List Byte) (p : Nat) :
    Option (List Byte) :=
  let den := forneyDen c lam deg p
  if den = 0#8 then none
  else some (word.modify (254 - p) (· ^^^ forneyVal c omg p den))

/-- All the corrections of R228, in the order of `locs`. -/
def forneyAll (c : Cfg) (lam omg : List Byte) (deg : Nat) : List Nat → List Byte → Option (List Byte)
  | [], word => some word
  | p :: ps, word =>
    match forneyCorrect c lam omg deg word p with
    | none => none
    | some word' => forneyAll c lam omg deg ps word'

/-- Whether every syndrome of `r` is 0 (R221, R228). -/
def isCodeword (c : Cfg) (r : List Byte) : Bool := (syndromes c r).all (· == 0#8)

/-- The corrected word of R230 for a received word that is no codeword, or `none` by one of the five
tests of R229, in their order. -/
def rsCorrect (c : Cfg) (r : List Byte) : Option (List Byte) :=
  let syn := syndromes c r
  let b := berlekampMassey syn
  let deg := polyDegree b.lam
  if 16 < b.len ∨ deg ≠ b.len then none
  else
    let locs := chienSearch c b.lam deg
    if locs.length ≠ b.len then none
    else
      match forneyAll c b.lam (evaluator syn b.lam deg) deg locs r with
      | none => none
      | some word => if isCodeword c word then some word else none

/-- `rs_decode(r[0..254])` (R230): the status and the 223 data bytes; those of an uncorrectable block are
the received ones (R229; log 11). -/
def rsDecode (c : Cfg) (r : List Byte) : BlockStatus × List Byte :=
  if isCodeword c r then (.ok, r.take 223)
  else
    match rsCorrect c r with
    | some word => (.ok, word.take 223)
    | none => (.uncorrectable, r.take 223)

end Sys2Proof.Machine
end

