-- ==== Sys2Proof/Machine/RrcFilter.lean ====
section
/-! DEFINITION. The root-raised-cosine interpolator and decimator (R171 to R176), as pure functions. -/

namespace Sys2Proof.Machine

/-- Output `p` of one firing of `RRCI` for the symbol `a0` (R173):
`h[p]*a0 + sum over k = 1..H of h[k*L + p] * RI_HIST[k-1]`. -/
def interpolate (c : Cfg) (hist : List Soft) (a0 : Soft) (p : Nat) : Soft :=
  c.tap p * a0 +
    ((List.range c.rrcH).map fun k =>
      if (k + 1) * c.rrcSps + p < c.rrcNt then c.tap ((k + 1) * c.rrcSps + p) * hist.getD k 0
      else 0).sum

/-- The `L` samples of one firing of `RRCI`, the imaginary part 0 (R173, R94). -/
def interpolateAll (c : Cfg) (hist : List Soft) (a0 : Soft) : List Sample :=
  (List.range c.rrcSps).map fun p => ⟨interpolate c hist a0 p, 0⟩

/-- `RI_HIST` after the symbol `a0`: newest first, oldest dropped (R173). -/
def riHistNext (c : Cfg) (hist : List Soft) (a0 : Soft) : List Soft :=
  (a0 :: hist).take c.rrcH

/-- `line` of R176: the real part of the sample at the phase, then everything older. -/
def decimatorLine (c : Cfg) (hist : List Soft) (z : List Sample) : List Soft :=
  ((z.take (c.rrcPhase + 1)).map Sample.re).reverse ++ hist

/-- The soft symbol of one firing of `RRCD` (R176). -/
def decimate (c : Cfg) (hist : List Soft) (z : List Sample) : Soft :=
  ((List.range c.rrcNt).map fun j => c.tap j * (decimatorLine c hist z).getD j 0).sum

/-- `RD_HIST` after the `L` samples `z` (R176). -/
def rdHistNext (c : Cfg) (hist : List Soft) (z : List Sample) : List Soft :=
  ((z.map Sample.re).reverse ++ hist).take (c.rrcNt - 1)

end Sys2Proof.Machine
end

