-- ==== Sys2Proof/Machine/Scrambler.lean ====
section
/-! DEFINITION. The additive scrambler (R162, R163) and the sync word's bits (R72, R160). -/

namespace Sys2Proof.Machine

/-- The output bit of a step: bit 0 of the register (R163). -/
def scrOut (s : BitVec 32) : Bit := s.getLsbD 0

/-- The register after a step: right by one, the parity of the tapped bits into bit `n - 1` (R163). -/
def scrNext (c : Cfg) (s : BitVec 32) : BitVec 32 :=
  (s >>> 1) ||| (if parity (s &&& c.scrTaps) then 1#32 <<< (c.scrLen - 1) else 0#32)

/-- The register after `n` steps from `s`. -/
def scrIterate (c : Cfg) : Nat → BitVec 32 → BitVec 32
  | 0, s => s
  | n + 1, s => scrIterate c n (scrNext c s)

/-- `scr_bit[i]` of R92: output `i` of the scrambler started from `SCR_SEED`. -/
def keyBit (c : Cfg) (i : Nat) : Bit := scrOut (scrIterate c i c.scrSeed)

/-- Bits XORed with the key stream from the register `s`, one step a bit, and the register after
(R164). -/
def scramble (c : Cfg) : BitVec 32 → List Bit → List Bit × BitVec 32
  | s, [] => ([], s)
  | s, b :: bs =>
    let r := scramble c (scrNext c s) bs
    ((b ^^ scrOut s) :: r.1, r.2)

/-- The sync word as bits, bit 31 first (R72, R160). -/
def syncBits (c : Cfg) : List Bit := bitsMsbFirst c.syncWord

end Sys2Proof.Machine
end

