-- ==== Sys2Proof/Machine/TxStages.lean ====
section
/-! DEFINITION. The meanings of the transmit stages `RSENC` (R144), `CVENC` (R153), `FRMR` (R164) and
`RRCI` (R173): for each, one firing on the transmit path, and the operation. -/

namespace Sys2Proof.Machine

/-- A position counter one further, 0 on reaching the frame's length (R24, R130). -/
def countTo (n len : Nat) : Nat := if n + 1 = len then 0 else n + 1

/-! ## RSENC -/

/-- One firing of `RSENC` (R144). -/
def rsencFire (c : Cfg) (t : TxPath) : TxPath :=
  let d := popped t.qTxin 223
  { t with qTxin := left t.qTxin 223, qRsc := push t.qRsc (d ++ rsParity c d) }

/-- `RSENC` (R144). -/
def execRsenc (s : State) : Host.Outcome State Fault Refusal :=
  s.complete s.rsencEnabled (s.setTx (rsencFire s.cfg.toCfg s.tx))

/-! ## CVENC -/

/-- The register a firing of `CVENC` starts from: cleared at a frame's first byte (R153). -/
def cvStart (t : TxPath) : BitVec 6 := if t.cvCnt = 0 then 0#6 else t.cvSr

/-- One firing of `CVENC` (R153). -/
def cvencFire (c : Cfg) (t : TxPath) : TxPath :=
  let r := convBits c (cvStart t) (bitsOfByte ((popped t.qRsc 1).headD 0#8))
  { t with
    qRsc := left t.qRsc 1
    qCvc := push t.qCvc (packBytes r.1).1
    cvSr := r.2
    cvCnt := countTo t.cvCnt c.frameRsBytes }

/-- `CVENC` (R153). -/
def execCvenc (s : State) : Host.Outcome State Fault Refusal :=
  s.complete s.cvencEnabled (s.setTx (cvencFire s.cfg.toCfg s.tx))

/-! ## FRMR -/

/-- The register a firing of `FRMR` starts from: `SCR_SEED` at a frame's first byte (R164). -/
def frStart (c : Cfg) (t : TxPath) : BitVec 32 := if t.frCnt = 0 then c.scrSeed else t.frScr

/-- What a firing of `FRMR` sends before the byte: the sync word at a frame's first byte (R164). -/
def frHeader (c : Cfg) (t : TxPath) : List Bit := if t.frCnt = 0 then syncBits c else []

/-- One firing of `FRMR` (R164). -/
def frmrFire (c : Cfg) (t : TxPath) : TxPath :=
  let r := scramble c (frStart c t) (bitsOfByte ((popped t.qCvc 1).headD 0#8))
  { t with
    qCvc := left t.qCvc 1
    qBits := push t.qBits (frHeader c t ++ r.1)
    frScr := r.2
    frCnt := countTo t.frCnt c.frameCvBytes }

/-- `FRMR` (R164). -/
def execFrmr (s : State) : Host.Outcome State Fault Refusal :=
  s.complete s.frmrEnabled (s.setTx (frmrFire s.cfg.toCfg s.tx))

/-! ## RRCI -/

/-- One firing of `RRCI` (R173). -/
def rrciFire (c : Cfg) (t : TxPath) : TxPath :=
  let a0 := sym ((popped t.qBits 1).headD false)
  { t with
    qBits := left t.qBits 1
    qTxout := push t.qTxout (interpolateAll c t.riHist a0)
    riHist := riHistNext c t.riHist a0 }

/-- `RRCI` (R173). -/
def execRrci (s : State) : Host.Outcome State Fault Refusal :=
  s.complete s.rrciEnabled (s.setTx (rrciFire s.cfg.toCfg s.tx))

end Sys2Proof.Machine
end

