-- ==== Sys2Proof/Machine/RxStages.lean ====
section
/-! DEFINITION. The meanings of the receive stages `RRCD` (R176), `DEFR` (R189), `VITD` (R204) and `RSDEC`
(R220): for each, one firing on the receive path, and the operation. -/

namespace Sys2Proof.Machine

/-! ## RRCD -/

/-- One firing of `RRCD` (R176). -/
def rrcdFire (c : Cfg) (r : RxPath) : RxPath :=
  let z := popped r.qRxin c.rrcSps
  { r with
    qRxin := left r.qRxin c.rrcSps
    qSym := push r.qSym [decimate c r.rdHist z]
    rdHist := rdHistNext c r.rdHist z }

/-- `RRCD` (R176). -/
def execRrcd (s : State) : Host.Outcome State Fault Refusal :=
  s.complete s.rrcdEnabled (s.setRx (rrcdFire s.cfg.toCfg s.rx))

/-! ## DEFR -/

/-- `DEFR` in `HUNT` on the symbol `x` (R189): slide the window, correlate, and lock or not. -/
def huntStep (c : Cfg) (r : RxPath) (x : Soft) : RxPath :=
  let win := windowPush r.dfWin x
  let corr := correlation c win
  if locks c corr then
    { r with
      dfInv := decide (corr < 0)
      dfState := .lock
      dfCnt := 0
      dfScr := c.scrSeed
      dfWin := zeroWindow }
  else { r with dfWin := win }

/-- A soft symbol negated or not. -/
def flipIf (b : Bool) (x : Soft) : Soft := if b then -x else x

/-- `DEFR` in `LOCK` on the symbol `x` (R189): negate for `DF_INV` and for the key bit, count, and return
to `HUNT` after `FRAME_CODED_BITS` symbols. -/
def lockStep (c : Cfg) (r : RxPath) (x : Soft) : RxPath :=
  { r with
    qPay := push r.qPay [flipIf (scrOut r.dfScr) (flipIf r.dfInv x)]
    dfScr := scrNext c r.dfScr
    dfState := if r.dfCnt + 1 = c.frameCodedBits then .hunt else .lock
    dfCnt := countTo r.dfCnt c.frameCodedBits }

/-- One firing of `DEFR` (R189). -/
def defrFire (c : Cfg) (r : RxPath) : RxPath :=
  let x := (popped r.qSym 1).headD 0
  let r' := { r with qSym := left r.qSym 1 }
  match r.dfState with
  | .hunt => huntStep c r' x
  | .lock => lockStep c r' x

/-- `DEFR` (R189). -/
def execDefr (s : State) : Host.Outcome State Fault Refusal :=
  s.complete s.defrEnabled (s.setRx (defrFire s.cfg.toCfg s.rx))

/-! ## VITD -/

/-- The receive path at a pair's start: at a frame's first pair the decoder's state is set anew (R204,
R205). -/
def vitStart (r : RxPath) : RxPath :=
  if r.vtCnt = 0 then { r with vtPm := startMetrics, vtSurv := [], vtAcc := [], vtNout := 0 } else r

/-- The bits a firing of `VITD` decides (R204): `u[VT_NOUT], ..., u[e-1]`, traced back from the best state
along the words of the pairs `VT_NOUT..t`. -/
def vitDecide (pm : Vector Metric 64) (surv : List (BitVec 64)) (nout e : Nat) : List Bit :=
  (traceback (surv.drop nout).reverse (bestState pm) []).take (e - nout)

/-- The bytes a firing of `VITD` packs and the bits that remain in `VT_ACC` (R204): nothing new unless bits
are decided. -/
def vitPack (pm : Vector Metric 64) (surv : List (BitVec 64)) (acc : List Bit) (nout e : Nat) :
    List Byte × List Bit :=
  if nout < e then packBytes (acc ++ vitDecide pm surv nout e) else ([], acc)

/-- One pair through the decoder, from the path `r` at the pair's start (R204). After a frame's last pair
`VT_NOUT` stands at `FRAME_DEC_BITS` until the next frame's first pair, by R204, R302 and the
range of R46, against R130: DEDUCED, log 22. -/
def vitStep (c : Cfg) (r : RxPath) (r1 r2 : Soft) : RxPath :=
  let pm := acsMetrics c r.vtPm r1 r2
  let surv := r.vtSurv ++ [acsDecisions c r.vtPm r1 r2]
  let e := max r.vtNout (bitsDecided c r.vtCnt r.vtNout)
  let packed := vitPack pm surv r.vtAcc r.vtNout e
  { r with
    vtPm := pm
    vtSurv := surv
    vtNout := e
    vtAcc := packed.2
    qDec := push r.qDec packed.1
    vtCnt := countTo r.vtCnt c.frameDecBits }

/-- One firing of `VITD` (R204). -/
def vitdFire (c : Cfg) (r : RxPath) : RxPath :=
  let p := popped r.qPay 2
  vitStep c { vitStart r with qPay := left r.qPay 2 } (p.getD 0 0) (p.getD 1 0)

/-- `VITD` (R204). -/
def execVitd (s : State) : Host.Outcome State Fault Refusal :=
  s.complete s.vitdEnabled (s.setRx (vitdFire s.cfg.toCfg s.rx))

/-! ## RSDEC -/

/-- The receive path after a block of the status `st` and the data `d` (R220): raise `CORRUPT` if it is
uncorrectable, keep the data, count. -/
def rsdAccept (r : RxPath) (st : BlockStatus) (d : List Byte) : RxPath :=
  let r' := match st with
    | .ok => r
    | .uncorrectable => r.raiseCorrupt
  { r' with rsdBuf := r'.rsdBuf ++ d, rsdBlk := r'.rsdBlk + 1 }

/-- The status of a frame result: `RSD_BAD` (R220, R95). -/
def frameStatus (bad : Bool) : FrameStatus := if bad then .corrupt else .ok

/-- A frame's result pushed and the frame's registers cleared (R220). -/
def rsdDeliver (r : RxPath) : RxPath :=
  { r with
    qRxout := push r.qRxout [⟨frameStatus r.rsdBad, r.rsdBuf⟩]
    rsdBlk := 0
    rsdBad := false
    rsdBuf := [] }

/-- One firing of `RSDEC` (R220). -/
def rsdecFire (c : Cfg) (r : RxPath) : RxPath :=
  let b := rsDecode c (popped r.qDec 255)
  let r' := rsdAccept { r with qDec := left r.qDec 255 } b.1 b.2
  if r'.rsdBlk = c.nb then rsdDeliver r' else r'

/-- `RSDEC` (R220). -/
def execRsdec (s : State) : Host.Outcome State Fault Refusal :=
  s.complete s.rsdecEnabled (s.setRx (rsdecFire s.cfg.toCfg s.rx))

end Sys2Proof.Machine
end

