-- ==== Sys2Proof/Machine/Dispatch.lean ====
section
/-! DEFINITION. One arm for each operation of R102, each one call of its meaning. -/

namespace Sys2Proof.Machine

def exec (i : Instr) (s : State) : Host.Outcome State Fault Refusal :=
  match i with
  | .nop => Sys2Proof.Machine.execNop s
  | .rst => Sys2Proof.Machine.execRst s
  | .txstart => Sys2Proof.Machine.execTxstart s
  | .txstartb => Sys2Proof.Machine.execTxstartb s
  | .txstop => Sys2Proof.Machine.execTxstop s
  | .rxstart => Sys2Proof.Machine.execRxstart s
  | .rxstarts => Sys2Proof.Machine.execRxstarts s
  | .rxstop => Sys2Proof.Machine.execRxstop s
  | .rdstat => Sys2Proof.Machine.execRdstat s
  | .rsenc => Sys2Proof.Machine.execRsenc s
  | .cvenc => Sys2Proof.Machine.execCvenc s
  | .frmr => Sys2Proof.Machine.execFrmr s
  | .rrci => Sys2Proof.Machine.execRrci s
  | .rrcd => Sys2Proof.Machine.execRrcd s
  | .defr => Sys2Proof.Machine.execDefr s
  | .vitd => Sys2Proof.Machine.execVitd s
  | .rsdec => Sys2Proof.Machine.execRsdec s
  | .txput => Sys2Proof.Machine.execTxput s
  | .txget => Sys2Proof.Machine.execTxget s
  | .bitget => Sys2Proof.Machine.execBitget s
  | .rxput => Sys2Proof.Machine.execRxput s
  | .symput => Sys2Proof.Machine.execSymput s
  | .rxget => Sys2Proof.Machine.execRxget s

end Sys2Proof.Machine
end

