-- ==== Sys2Proof/Machine/Step.lean ====
section
/-! DEFINITION. One step of the block: the word presented on the control port, decoded and carried out
(R100, R280). -/

namespace Sys2Proof.Machine

/-- One step (R280): a defined word is carried out, or waits; a reserved word is refused (R104). An idle
control port presents `NOP` (`idleSlot`, log 7). -/
def step (s : State) : Host.Outcome State Fault Refusal :=
  match decode s.presented with
  | .op i => exec i s
  | .reserved w => .refused (.reservedWord w)

/-- The state with the table's word `w` presented next on the control port, before whatever else the host
presents (logs 6 and 17). -/
def State.withFetchWord (s : State) (nbits w : Nat) : State :=
  { s with ports := { s.ports with ctl := zeroOperandSlot s.cfg.toCfg (tableWord nbits w) :: s.ports.ctl } }

end Sys2Proof.Machine
end

