-- ==== Sys2Proof/Safety.lean ====
section
/-! DEFINITION. What a well-kept state is (the ranges and alignments of R24 to R47, R77, R79), how a
program runs, and the reference functions the statements compare the block with. -/

namespace Sys2Proof.Machine

/-! ## Streams and stages -/

/-- The operation words that name a stage (R102), in pipeline order. -/
def stageOps : List Instr := [.rsenc, .cvenc, .frmr, .rrci, .rrcd, .defr, .vitd, .rsdec]

/-- A capacity `cap` leaves room for `n` tokens behind the `len` that are there (R63). -/
def RoomFor (cap : Option Nat) (len n : Nat) : Prop := ∀ d, cap = some d → len + n ≤ d

/-! ## Invariants of the two paths -/

/-- The reserved bits 7:4 of `CTRL` are 0 (R25). -/
def CtrlInv (s : State) : Prop := s.ctrl &&& 0xF0#8 = 0#8

/-- The transmit path as R24, R31 to R35 and R77 say it is. -/
structure TxInv (s : State) : Prop where
  /-- R77, R312: `Q_TXIN` holds whole blocks. -/
  wholeBlocks : s.tx.qTxin.length % 223 = 0
  /-- R31: the range of `CV_CNT`. -/
  cvRange : s.tx.cvCnt < s.cfg.frameRsBytes
  /-- R33: the range of `FR_CNT`. -/
  frRange : s.tx.frCnt < s.cfg.frameCvBytes
  /-- R77: `CV_CNT` stays in step with the frame boundaries of what is still to be coded. -/
  cvAligned : (255 * (s.tx.qTxin.length / 223) + s.tx.qRsc.length + s.tx.cvCnt) % s.cfg.frameRsBytes = 0
  /-- R77: `FR_CNT` stays in step with `CV_CNT`, two coded bytes for each. -/
  frAligned : (s.tx.qCvc.length + s.tx.frCnt) % s.cfg.frameCvBytes = 2 * s.tx.cvCnt
  /-- R34: `FR_SCR` has `SCR_LEN` bits. -/
  scrWidth : s.tx.frScr.toNat < 2 ^ s.cfg.scrLen
  /-- R162, R164: inside a frame the register has stepped eight times for each byte sent. -/
  scrPhase : s.tx.frCnt ≠ 0 → s.tx.frScr = scrIterate s.cfg.toCfg (8 * s.tx.frCnt) s.cfg.scrSeed
  /-- R35: `RI_HIST` has H entries. -/
  histLength : s.tx.riHist.length = s.cfg.rrcH
  /-- R246: in tap mode `Q_TXOUT` is always empty. -/
  tapDry : s.txTap = true → s.tx.qTxout = []

/-- The decided bits of the current frame after `t > 0` pairs: none with `FULL`, all but the newest
`D - 1` in windowed mode (R206, R207). -/
def decidedAfter (c : Cfg) (t : Nat) : Nat :=
  match c.vitTb with
  | .full => 0
  | .window d => t + 1 - d

/-- The receive path as R24, R36 to R47 and R79 say it is. -/
structure RxInv (s : State) : Prop where
  /-- R36: `RD_HIST` has `RRC_NT - 1` entries. -/
  histLength : s.rx.rdHist.length = s.cfg.rrcNt - 1
  /-- R41: the range of `DF_CNT`. -/
  dfRange : s.rx.dfCnt < s.cfg.frameCodedBits
  /-- R41: `DF_CNT` is 0 whenever `DF_STATE = HUNT`. -/
  huntCount : s.rx.dfState = .hunt → s.rx.dfCnt = 0
  /-- R40: the window is all 0 throughout `LOCK`. -/
  lockWindow : s.rx.dfState = .lock → s.rx.dfWin = zeroWindow
  /-- R43: `DF_SCR` has `SCR_LEN` bits. -/
  scrWidth : s.rx.dfScr.toNat < 2 ^ s.cfg.scrLen
  /-- R43: in `LOCK` the register has stepped once for each payload symbol. -/
  scrPhase : s.rx.dfState = .lock → s.rx.dfScr = scrIterate s.cfg.toCfg s.rx.dfCnt s.cfg.scrSeed
  /-- R44: the range of `VT_CNT`. -/
  vtRange : s.rx.vtCnt < s.cfg.frameDecBits
  /-- R79, R195 (a): `VT_CNT` and `Q_PAY` stay in step with the deframer's frame. -/
  payAligned : (2 * s.rx.vtCnt + s.rx.qPay.length) % s.cfg.frameCodedBits = s.rx.dfCnt
  /-- R46: one survivor word for each pair of the current frame. -/
  survLength : s.rx.vtCnt ≠ 0 → s.rx.vtSurv.length = s.rx.vtCnt
  /-- R207: the bits decided so far. -/
  decided : s.rx.vtCnt ≠ 0 → s.rx.vtNout = decidedAfter s.cfg.toCfg s.rx.vtCnt
  /-- R46: the range of `VT_NOUT`. -/
  noutRange : s.rx.vtNout ≤ s.cfg.frameDecBits
  /-- R46, R208: `VT_ACC` holds the decided bits short of a byte. -/
  accLength : s.rx.vtAcc.length = s.rx.vtNout % 8
  /-- R202: no metric is negative. -/
  metrics : ∀ n : Fin 64, s.rx.vtPm[n].lt (.fin 0) = false
  /-- R79, R208: `RSD_BLK` and `Q_DEC` stay in step with the decoder's frame. -/
  decAligned : (255 * s.rx.rsdBlk + s.rx.qDec.length) % s.cfg.frameRsBytes =
    if s.rx.vtCnt = 0 then 0 else s.rx.vtNout / 8
  /-- R47: the range of `RSD_BLK`. -/
  blkRange : s.rx.rsdBlk < s.cfg.nb
  /-- R47: `RSD_BUF` holds 223 bytes for each block. -/
  bufLength : s.rx.rsdBuf.length = 223 * s.rx.rsdBlk
  /-- R47: `RSD_BAD` tells of decoded blocks only. -/
  badClear : s.rx.rsdBlk = 0 → s.rx.rsdBad = false
  /-- R95: every frame result waiting has `FRAME_PAYLOAD_BYTES` bytes. -/
  results : ∀ x ∈ s.rx.qRxout, x.data.length = s.cfg.framePayloadBytes
  /-- R25, R248: with `RX_SRC = 1` nothing is fed to `Q_RXIN`. -/
  srcDry : s.rxSrc = true → s.rx.qRxin = []

/-- R205: inside a frame, after `t` pairs, exactly the states below `2^min(t,6)` have finite metrics. -/
def FiniteStates (s : State) : Prop :=
  s.rx.vtCnt ≠ 0 → ∀ n : Fin 64, (s.rx.vtPm[n] = .inf ↔ 2 ^ min s.rx.vtCnt 6 ≤ n.val)

/-- R63, R288: no stream holds more than its capacity. -/
structure Capacities (s : State) : Prop where
  txin : RoomFor s.cfg.qdepth.txin s.tx.qTxin.length 0
  rsc : RoomFor s.cfg.qdepth.rsc s.tx.qRsc.length 0
  cvc : RoomFor s.cfg.qdepth.cvc s.tx.qCvc.length 0
  bits : RoomFor s.cfg.qdepth.bits s.tx.qBits.length 0
  txout : RoomFor s.cfg.qdepth.txout s.tx.qTxout.length 0
  rxin : RoomFor s.cfg.qdepth.rxin s.rx.qRxin.length 0
  sym : RoomFor s.cfg.qdepth.sym s.rx.qSym.length 0
  pay : RoomFor s.cfg.qdepth.pay s.rx.qPay.length 0
  dec : RoomFor s.cfg.qdepth.dec s.rx.qDec.length 0
  rxout : RoomFor s.cfg.qdepth.rxout s.rx.qRxout.length 0

/-! ## Reference functions for the statements -/

/-- The number of byte positions at which two words differ. -/
def byteDistance (a b : List Byte) : Nat := ((List.zipWith (fun x y => x != y) a b).filter id).length

/-- Two words of bytes added in the field, position by position (R121). -/
def wordXor (a b : List Byte) : List Byte := List.zipWith (· ^^^ ·) a b

/-- Two words of bits added, position by position. -/
def bitsXor (a b : List Bit) : List Bit := List.zipWith (· ^^ ·) a b

/-- Scaled symbols of coded bits: `k * sym(b)` (R73, R209). -/
def symbolsOf (k : Soft) (bs : List Bit) : List Soft := bs.map fun b => k * sym b

/-- `x[n]` of R173: symbol `n / L` when `L` divides `n`, and 0 otherwise. -/
def zeroStuffed (c : Cfg) (as : List Soft) (n : Nat) : Soft :=
  if n % c.rrcSps = 0 then as.getD (n / c.rrcSps) 0 else 0

/-- The 255-byte codewords of a frame, back to back (R75, R91). -/
def encodedFrame (c : Cfg) (f : List Byte) : List Byte :=
  (List.range c.nb).flatMap fun k =>
    let d := (f.drop (223 * k)).take 223
    d ++ rsParity c d

/-- `cv_bit` of R92: the convolutional coding of an encoded frame from a cleared register. -/
def codedBits (c : Cfg) (encoded : List Byte) : List Bit :=
  (convBits c 0#6 (encoded.flatMap bitsOfByte)).1

/-- The bits of one sync frame (R92) that carries the frame `f`. -/
def wireBits (c : Cfg) (f : List Byte) : List Bit :=
  syncBits c ++
    bitsXor (codedBits c (encodedFrame c f)) ((List.range c.frameCodedBits).map (keyBit c))

/-! ## Runs -/

/-- `n` lines of the operation word `w`: `OP *n` of R112 (a). -/
def repeatWord (w : Byte) (n : Nat) : List Slot := List.replicate n { word := w }

/-- `n` steps, up to the first refusal. -/
def stepRun : Nat → State → Host.Outcome State Fault Refusal
  | 0, s => .next s
  | n + 1, s =>
    match step s with
    | .next t => stepRun n t
    | .fault f => .fault f
    | .refused r => .refused r

/-! ## The table of R55, row by row -/

/-- The TX rows of R55. -/
structure TxAtReset (c : Cfg) (t : TxPath) : Prop where
  qTxin : t.qTxin = []
  qRsc : t.qRsc = []
  qCvc : t.qCvc = []
  qBits : t.qBits = []
  qTxout : t.qTxout = []
  cvCnt : t.cvCnt = 0
  cvSr : t.cvSr = 0#6
  frCnt : t.frCnt = 0
  frScr : t.frScr = c.scrSeed
  riHist : t.riHist = List.replicate ((c.rrcNt - 1) / c.rrcSps) 0

/-- The RX rows of R55. -/
structure RxAtReset (c : Cfg) (r : RxPath) : Prop where
  qRxin : r.qRxin = []
  qSym : r.qSym = []
  qPay : r.qPay = []
  qDec : r.qDec = []
  qRxout : r.qRxout = []
  rdHist : r.rdHist = List.replicate (c.rrcNt - 1) 0
  dfState : r.dfState = .hunt
  dfWin : ∀ j : Fin 32, r.dfWin[j] = 0
  dfCnt : r.dfCnt = 0
  dfInv : r.dfInv = false
  dfScr : r.dfScr = c.scrSeed
  vtCnt : r.vtCnt = 0
  vtPm0 : r.vtPm[0] = .fin 0
  vtPm : ∀ n : Fin 64, n ≠ 0 → r.vtPm[n] = .inf
  vtSurv : r.vtSurv = []
  vtAcc : r.vtAcc = []
  vtNout : r.vtNout = 0
  rsdBlk : r.rsdBlk = 0
  rsdBad : r.rsdBad = false
  rsdBuf : r.rsdBuf = []

/-! ## Comparing two runs -/

/-- Two states with the same transmit half (R21), the same configuration and the same presented line. -/
structure SameTx (s s' : State) : Prop where
  cfg : s'.cfg = s.cfg
  line : s'.slot = s.slot
  path : s'.tx = s.tx
  enable : s'.txEn = s.txEn
  tap : s'.txTap = s.txTap

/-- Two states with the same receive half (R21), the same configuration and the same presented line. -/
structure SameRx (s s' : State) : Prop where
  cfg : s'.cfg = s.cfg
  line : s'.slot = s.slot
  path : s'.rx = s.rx
  enable : s'.rxEn = s.rxEn
  source : s'.rxSrc = s.rxSrc

/-- Two receive paths fed by streams of opposite polarity (R73, R190): the symbols waiting are negated, in
`HUNT` the windows are, in `LOCK` `DF_INV` differs; all the rest is the same. -/
structure Mirror (r r' : RxPath) : Prop where
  syms : r'.qSym = r.qSym.map (-·)
  state : r'.dfState = r.dfState
  window : ∀ j : Fin 32, r'.dfWin[j] = -r.dfWin[j]
  flipped : r.dfState = .lock → r'.dfInv = !r.dfInv
  rest : { r' with qSym := r.qSym, dfWin := r.dfWin, dfInv := r.dfInv } = r

end Sys2Proof.Machine
end

