-- ==== Sys2Proof/WellFormed.lean ====
section
/-! DEFINITION. When a line of a program is well formed: R102 to R104 for its word, R111 and R245 for
its data operands. (When a `CFG` is valid, R296, stands in Config.lean.) -/

namespace Sys2Proof

/-- The words of the operation map (R102), in its order. -/
def definedWords : List Byte :=
  [0x00#8, 0x01#8, 0x02#8, 0x03#8, 0x04#8, 0x05#8, 0x06#8, 0x07#8, 0x08#8] ++
  [0x10#8, 0x20#8, 0x30#8, 0x40#8, 0x50#8, 0x60#8, 0x70#8, 0x80#8] ++
  [0xF0#8, 0xF1#8, 0xF2#8, 0xF3#8, 0xF4#8, 0xF5#8]

/-- R103, R104: the 23 words of the map are operations, the other 233 are reserved. -/
def wordDefined (w : Byte) : Bool := definedWords.contains w

/-- R245: the operand of `TXPUT` is exactly `FRAME_PAYLOAD_BYTES` bytes. -/
def frameOperandOk (c : Cfg) (x : Slot) : Bool :=
  x.word != 0xF0#8 || x.txin.length == c.framePayloadBytes

/-- R111: only `TXPUT`, `RXPUT` and `SYMPUT` are written with a data operand, each with its own. -/
def noStrayOperand (x : Slot) : Bool :=
  (x.word == 0xF0#8 || x.txin.isEmpty) && (x.word == 0xF3#8 || x.rxin.isEmpty)
    && (x.word == 0xF4#8 || x.sym.isEmpty)

/-- A well-formed line of a program. -/
def Slot.wellFormed (c : Cfg) (x : Slot) : Bool :=
  wordDefined x.word && frameOperandOk c x && noStrayOperand x

/-- R101: an operation has no operand field, so every operation is well formed as syntax. -/
def Instr.wellFormed (_ : Instr) : Bool := true

end Sys2Proof
end

