-- ==== Sys2Proof/Certificates/Slice0/Obligations.lean ====
section
/-! DEFINITION. The statements about the block. In the stage statements `s.advance` is `s` with the
presented line dropped from the control port and nothing else changed. -/

open Sys2Proof Sys2Proof.Machine

/-! ## Operation words -/

/-- R103: the 23 words of R102 decode to their operations, each to its own, and every other word is
reserved. No mode enters: `decode` sees the word alone. -/
def Obligations.EveryWordDecodesAsTheMapSays : Prop :=
  (∀ i : Instr, decode (encode i) = .op i ∧ decodeTableWord 8 (encode i).toNat = some i) ∧
  (∀ w : Byte, wordDefined w = true → ∃ i, decode w = .op i ∧ encode i = w) ∧
  ∀ w : Byte, wordDefined w = false → decode w = .reserved w ∧ decodeTableWord 8 w.toNat = none

/-- The words of R102, written out, decode to the operations of its rows. -/
def Obligations.MapRowsDecode : Prop :=
  ([0x00, 0x01, 0x02, 0x03, 0x04, 0x05, 0x06, 0x07, 0x08] : List Byte).map decode =
    [.op .nop, .op .rst, .op .txstart, .op .txstartb, .op .txstop, .op .rxstart, .op .rxstarts,
      .op .rxstop, .op .rdstat] ∧
  ([0x10, 0x20, 0x30, 0x40, 0x50, 0x60, 0x70, 0x80] : List Byte).map decode =
    [.op .rsenc, .op .cvenc, .op .frmr, .op .rrci, .op .rrcd, .op .defr, .op .vitd, .op .rsdec] ∧
  ([0xF0, 0xF1, 0xF2, 0xF3, 0xF4, 0xF5] : List Byte).map decode =
    [.op .txput, .op .txget, .op .bitget, .op .rxput, .op .symput, .op .rxget]

/-- R104: 233 words are reserved, among them the units 9 to 0xE and every other function of the units 1
to 8; the block does nothing on one, and a model refuses it. -/
def Obligations.ReservedWordIsRefused : Prop :=
  (∀ s : State, wordDefined s.presented = false →
    step s = .refused (.reservedWord s.presented)) ∧
  (∀ w : Byte, 9 ≤ unitField w ∧ unitField w ≤ 14 → wordDefined w = false) ∧
  (∀ w : Byte, 1 ≤ unitField w ∧ unitField w ≤ 8 ∧ fnField w ≠ 0 → wordDefined w = false) ∧
  ((List.range 256).filter fun n => !wordDefined (BitVec.ofNat 8 n)).length = 233

/-- A step at a line whose word decodes to an operation is that operation. Afterwards the control port
shows the next line, or, where the operation had to wait, the state is as it was (the model's choice, log
8). An idle control port presents `NOP` (the model's choice, log 7), which changes nothing. -/
def Obligations.StepRunsThePresentedOperation : Prop :=
  (∀ (s : State) (x : Slot) (rest : List Slot) (i : Instr),
    s.ports.ctl = x :: rest → decode x.word = .op i →
      step s = exec i s ∧ ∀ t, exec i s = .next t → t.ports.ctl = rest ∨ t = s) ∧
  ∀ s : State, s.ports.ctl = [] → step s = exec .nop s ∧ step s = .next s

/-- What a step refuses, and nothing else: a reserved word, or a `TXPUT` operand that is not a whole frame
(R280 (c)); no step faults. That a word that is not enabled answers a next state, the state as it was, is
the model's choice (log 8), and so is what an idle port presents (log 7). -/
def Obligations.OnlyReservedWordsAndPartFramesAreRefused : Prop :=
  ∀ s : State,
    if wordDefined s.presented = false then step s = .refused (.reservedWord s.presented)
    else if s.presented = 0xF0#8 ∧ s.slot.txin.length ≠ 223 * s.cfg.nb then
      step s = .refused (.frameLength s.slot.txin.length)
    else ∃ t, step s = .next t

/-- The model's reading of 'stuck' (R105, R280 (b); log 8): an operation that is not enabled answers the
state it was given, the line still presented. The conditions are those of the operation's own rule; the room
for 40 bits that `FRMR` waits for at every firing is log 13's reading, the room `VITD` waits for log 14's. -/
def Obligations.OperationNotEnabledWaits : Prop :=
  ∀ s : State,
    (¬(s.ctrl.getLsbD 0 = true ∧ 223 ≤ s.tx.qTxin.length ∧
        RoomFor s.cfg.qdepth.rsc s.tx.qRsc.length 255) → exec .rsenc s = .next s) ∧
    (¬(s.ctrl.getLsbD 0 = true ∧ 1 ≤ s.tx.qRsc.length ∧
        RoomFor s.cfg.qdepth.cvc s.tx.qCvc.length 2) → exec .cvenc s = .next s) ∧
    (¬(s.ctrl.getLsbD 0 = true ∧ 1 ≤ s.tx.qCvc.length ∧
        RoomFor s.cfg.qdepth.bits s.tx.qBits.length 40) → exec .frmr s = .next s) ∧
    (¬(s.ctrl.getLsbD 0 = true ∧ s.ctrl.getLsbD 2 = false ∧ 1 ≤ s.tx.qBits.length ∧
        RoomFor s.cfg.qdepth.txout s.tx.qTxout.length s.cfg.rrcSps) → exec .rrci s = .next s) ∧
    (¬(s.ctrl.getLsbD 1 = true ∧ s.ctrl.getLsbD 3 = false ∧ s.cfg.rrcSps ≤ s.rx.qRxin.length ∧
        RoomFor s.cfg.qdepth.sym s.rx.qSym.length 1) → exec .rrcd s = .next s) ∧
    (¬(s.ctrl.getLsbD 1 = true ∧ 1 ≤ s.rx.qSym.length ∧
        RoomFor s.cfg.qdepth.pay s.rx.qPay.length 1) → exec .defr s = .next s) ∧
    (¬(s.ctrl.getLsbD 1 = true ∧ 2 ≤ s.rx.qPay.length ∧
        RoomFor s.cfg.qdepth.dec s.rx.qDec.length (vitdRoom s.cfg.toCfg s.rx)) →
      exec .vitd s = .next s) ∧
    (¬(s.ctrl.getLsbD 1 = true ∧ 255 ≤ s.rx.qDec.length ∧
        (s.rx.rsdBlk + 1 = s.cfg.nb → RoomFor s.cfg.qdepth.rxout s.rx.qRxout.length 1)) →
      exec .rsdec s = .next s) ∧
    (s.slot.txin.length = 223 * s.cfg.nb →
      ¬RoomFor s.cfg.qdepth.txin s.tx.qTxin.length s.slot.txin.length → exec .txput s = .next s) ∧
    (s.ctrl.getLsbD 2 = false → exec .bitget s = .next s) ∧
    (¬(s.ctrl.getLsbD 3 = false ∧ RoomFor s.cfg.qdepth.rxin s.rx.qRxin.length s.slot.rxin.length) →
      exec .rxput s = .next s) ∧
    (¬(s.ctrl.getLsbD 3 = true ∧ RoomFor s.cfg.qdepth.sym s.rx.qSym.length s.slot.sym.length) →
      exec .symput s = .next s) ∧
    (s.rx.qRxout = [] → exec .rxget s = .next s)

/-! ## Control operations -/

/-- R235: `NOP` is always enabled, and no state element changes, however often it is presented. -/
def Obligations.NopChangesNothing : Prop :=
  encode .nop = 0x00#8 ∧
  (∀ s : State, exec .nop s = .next s.advance) ∧
  ∀ (s : State) (n : Nat) (rest : List Slot), s.ports.ctl = repeatWord 0x00#8 n ++ rest →
    stepRun n s = .next { s with ports := { s.ports with ctl := rest } }

/-- R236: `RST` is always enabled and gives every state element its value of the table of R55; `RDSTAT`
after it returns 0x00 and 0x18. The ports are not state (R20; log 10). -/
def Obligations.RstRestoresTheResetTable : Prop :=
  encode .rst = 0x01#8 ∧
  ∀ s : State, ∃ t, exec .rst s = .next t ∧
    t.ctrl = 0x00#8 ∧ TxAtReset s.cfg.toCfg t.tx ∧ RxAtReset s.cfg.toCfg t.rx ∧
    t.cfg = s.cfg ∧ t.ports = s.advance.ports ∧
    exec .rdstat t =
      .next { t.advance with
        ports := { t.advance.ports with status := t.ports.status ++ [(0x00#8, 0x18#8)] } }

/-- R55: the state after reset holds the table, under `CFG_REF` (that the model starts there, and with
nothing on its ports, is its choice: logs 5, 6 and 12). -/
def Obligations.ResetStateHoldsTheTable : Prop :=
  State.reset.ctrl = 0x00#8 ∧ TxAtReset State.reset.cfg.toCfg State.reset.tx ∧
    RxAtReset State.reset.cfg.toCfg State.reset.rx ∧ State.reset.cfg.toCfg = Cfg.refWith 9 ∧
    State.reset.ports = Ports.idle

/-- R237, R238: `TXSTART` and `TXSTARTB` are always enabled, put the transmit path into its reset state
and leave the receive path alone; `TX_EN` is 1, `TX_TAP` as the operation says. With `TX_TAP = 1` `RRCI`
is not enabled. After `RST` and the one or the other `RDSTAT` returns 0x01 or 0x05. -/
def Obligations.TxStartsResetAndEnableTheTxPath : Prop :=
  encode .txstart = 0x02#8 ∧ encode .txstartb = 0x03#8 ∧
  (∀ s : State,
    (∃ t, exec .txstart s = .next t ∧ TxAtReset s.cfg.toCfg t.tx ∧
      t.ctrl = (s.ctrl ||| 0x01#8) &&& ~~~0x04#8 ∧ t.rx = s.rx ∧ t.cfg = s.cfg ∧
      t.ports = s.advance.ports) ∧
    (∃ t, exec .txstartb s = .next t ∧ TxAtReset s.cfg.toCfg t.tx ∧
      t.ctrl = s.ctrl ||| 0x05#8 ∧ t.rx = s.rx ∧ t.cfg = s.cfg ∧ t.ports = s.advance.ports)) ∧
  (∀ s : State, s.ctrl.getLsbD 2 = true → s.enabled .rrci = false) ∧
  ∀ s r t u : State, exec .rst s = .next r →
    (exec .txstart r = .next t → exec .rdstat t = .next u →
      u.ports.status = s.ports.status ++ [(0x01#8, 0x18#8)]) ∧
    (exec .txstartb r = .next t → exec .rdstat t = .next u →
      u.ports.status = s.ports.status ++ [(0x05#8, 0x18#8)])

/-- R239, R240: `RXSTART` and `RXSTARTS` are always enabled, put the receive path into its reset state and
leave the transmit path alone; `RX_EN` is 1, `RX_SRC` as the operation says. With `RX_SRC = 1` `RRCD` is
not enabled. After `RST` and the one or the other `RDSTAT` returns 0x02 or 0x0A. -/
def Obligations.RxStartsResetAndEnableTheRxPath : Prop :=
  encode .rxstart = 0x05#8 ∧ encode .rxstarts = 0x06#8 ∧
  (∀ s : State,
    (∃ t, exec .rxstart s = .next t ∧ RxAtReset s.cfg.toCfg t.rx ∧
      t.ctrl = (s.ctrl ||| 0x02#8) &&& ~~~0x08#8 ∧ t.tx = s.tx ∧ t.cfg = s.cfg ∧
      t.ports = s.advance.ports) ∧
    (∃ t, exec .rxstarts s = .next t ∧ RxAtReset s.cfg.toCfg t.rx ∧
      t.ctrl = s.ctrl ||| 0x0A#8 ∧ t.tx = s.tx ∧ t.cfg = s.cfg ∧ t.ports = s.advance.ports)) ∧
  (∀ s : State, s.ctrl.getLsbD 3 = true → s.enabled .rrcd = false) ∧
  ∀ s r t u : State, exec .rst s = .next r →
    (exec .rxstart r = .next t → exec .rdstat t = .next u →
      u.ports.status = s.ports.status ++ [(0x02#8, 0x18#8)]) ∧
    (exec .rxstarts r = .next t → exec .rdstat t = .next u →
      u.ports.status = s.ports.status ++ [(0x0A#8, 0x18#8)])

/-- R242, R243: `TXSTOP` and `RXSTOP` clear their enable bit and change nothing else; no stage of the
path is enabled afterwards. Frame results can still be taken. -/
def Obligations.StopsClearTheEnableBitOnly : Prop :=
  encode .txstop = 0x04#8 ∧ encode .rxstop = 0x07#8 ∧
  ∀ s : State,
    exec .txstop s = .next { s.advance with ctrl := s.ctrl &&& ~~~0x01#8 } ∧
    exec .rxstop s = .next { s.advance with ctrl := s.ctrl &&& ~~~0x02#8 } ∧
    (∀ t, exec .txstop s = .next t → ∀ i ∈ [Instr.rsenc, .cvenc, .frmr, .rrci], t.enabled i = false) ∧
    ∀ t, exec .rxstop s = .next t →
      (∀ i ∈ [Instr.rrcd, .defr, .vitd, .rsdec], t.enabled i = false) ∧
      t.enabled .rxget = s.enabled .rxget

/-- R244, R26: `RDSTAT` returns `CTRL`, its reserved bits as 0 (log 21), and `STATUS`, and changes nothing
else. 'Enabled' in bits 3 and 4 takes in room in the output stream (R105; log 20). -/
def Obligations.RdstatReturnsCtrlAndStatus : Prop :=
  encode .rdstat = 0x08#8 ∧
  ∀ s : State, ∃ st : Byte,
    exec .rdstat s =
      .next { s.advance with
        ports := { s.advance.ports with status := s.ports.status ++ [(s.ctrl &&& 0x0F#8, st)] } } ∧
    (st.getLsbD 0 = true ↔ s.rx.dfState = .lock) ∧
    st.getLsbD 1 = s.rx.dfInv ∧
    st.getLsbD 2 = s.rx.rsdBad ∧
    (st.getLsbD 3 = true ↔ ∀ i ∈ [Instr.rsenc, .cvenc, .frmr, .rrci], s.enabled i = false) ∧
    (st.getLsbD 4 = true ↔ ∀ i ∈ [Instr.rrcd, .defr, .vitd, .rsdec], s.enabled i = false) ∧
    (st.getLsbD 5 = true ↔ s.rx.qRxout ≠ []) ∧
    st.getLsbD 6 = false ∧ st.getLsbD 7 = false

/-! ## The transmit stages -/

/-- R144: one firing of `RSENC` moves 223 bytes from `Q_TXIN` to `Q_RSC` with their 32 parity bytes
behind them, and changes nothing else. -/
def Obligations.RsencAppendsParity : Prop :=
  ∀ (s : State) (d rest : List Byte),
    s.ctrl.getLsbD 0 = true → s.tx.qTxin = d ++ rest → d.length = 223 →
    RoomFor s.cfg.qdepth.rsc s.tx.qRsc.length 255 →
    exec .rsenc s =
      .next { s.advance with
        tx := { s.tx with qTxin := rest, qRsc := s.tx.qRsc ++ (d ++ rsParity s.cfg.toCfg d) } }

/-- R153 with R151 and R152: one firing of `CVENC` turns the byte `x` into the two bytes whose bits
`2j` and `2j + 1` are the parities, under the two masks, of the seven newest bits of what the register
held and `x`; the register is cleared at a frame's first byte and ends with the low six bits of `x`. -/
def Obligations.CvencCodesAByte : Prop :=
  ∀ (s : State) (x : Byte) (rest : List Byte),
    s.ctrl.getLsbD 0 = true → s.tx.qRsc = x :: rest →
    RoomFor s.cfg.qdepth.cvc s.tx.qCvc.length 2 →
    ∃ hi lo : Byte,
      exec .cvenc s =
        .next { s.advance with
          tx := { s.tx with
            qRsc := rest
            qCvc := s.tx.qCvc ++ [hi, lo]
            cvSr := x.setWidth 6
            cvCnt := if s.tx.cvCnt + 1 = s.cfg.frameRsBytes then 0 else s.tx.cvCnt + 1 } } ∧
      ∀ j : Fin 8,
        let line : BitVec 14 := (if s.tx.cvCnt = 0 then 0#6 else s.tx.cvSr) ++ x
        let w : BitVec 7 := (line >>> (7 - j.val)).setWidth 7
        (hi ++ lo).getMsbD (2 * j.val) = parity (w &&& s.cfg.convG1) ∧
        (hi ++ lo).getMsbD (2 * j.val + 1) = parity (w &&& s.cfg.convG2)

/-- R164: one firing of `FRMR` pushes the eight bits of a byte XORed with the next eight key bits, behind
the sync word at a frame's first byte, where the register starts from `SCR_SEED`. -/
def Obligations.FrmrScramblesAByte : Prop :=
  ∀ (s : State) (x : Byte) (rest : List Byte),
    s.ctrl.getLsbD 0 = true → s.tx.qCvc = x :: rest →
    RoomFor s.cfg.qdepth.bits s.tx.qBits.length 40 →
    let c := s.cfg.toCfg
    let start := if s.tx.frCnt = 0 then c.scrSeed else s.tx.frScr
    let header := if s.tx.frCnt = 0 then (List.range 32).map fun k => c.syncWord.getLsbD (31 - k) else []
    exec .frmr s =
      .next { s.advance with
        tx := { s.tx with
          qCvc := rest
          qBits := s.tx.qBits ++ (header ++ (List.range 8).map fun j =>
            x.getLsbD (7 - j) ^^ (scrIterate c j start).getLsbD 0)
          frScr := scrIterate c 8 start
          frCnt := if s.tx.frCnt + 1 = s.cfg.frameCvBytes then 0 else s.tx.frCnt + 1 } }

/-- R173: one firing of `RRCI` turns a bit into `L` samples, sample `p` the inner product of the taps
`p, L + p, 2L + p, ...` with the new symbol and the history, and shifts the history. -/
def Obligations.RrciShapesASymbol : Prop :=
  ∀ (s : State) (b : Bit) (rest : List Bit),
    s.ctrl.getLsbD 0 = true → s.ctrl.getLsbD 2 = false → s.tx.qBits = b :: rest →
    RoomFor s.cfg.qdepth.txout s.tx.qTxout.length s.cfg.rrcSps →
    let line := (if b then (1 : Soft) else -1) :: s.tx.riHist
    let h := (s.cfg.rrcNt - 1) / s.cfg.rrcSps
    exec .rrci s =
      .next { s.advance with
        tx := { s.tx with
          qBits := rest
          qTxout := s.tx.qTxout ++ (List.range s.cfg.rrcSps).map fun p =>
            ⟨∑ k ∈ Finset.range (h + 1), s.cfg.rrcTaps.getD (k * s.cfg.rrcSps + p) 0 * line.getD k 0, 0⟩
          riHist := line.take h } }

/-! ## The receive stages -/

/-- R176: one firing of `RRCD` takes `L` samples, pushes the inner product of the taps with the real parts
up to the phase and the history, newest first, and keeps the newest `RRC_NT - 1` real parts. -/
def Obligations.RrcdFiltersSamples : Prop :=
  ∀ (s : State) (z rest : List Sample),
    s.ctrl.getLsbD 1 = true → s.ctrl.getLsbD 3 = false → s.rx.qRxin = z ++ rest →
    z.length = s.cfg.rrcSps → RoomFor s.cfg.qdepth.sym s.rx.qSym.length 1 →
    let line := ((z.take (s.cfg.rrcPhase + 1)).map Sample.re).reverse ++ s.rx.rdHist
    exec .rrcd s =
      .next { s.advance with
        rx := { s.rx with
          qRxin := rest
          qSym := s.rx.qSym ++
            [∑ j ∈ Finset.range s.cfg.rrcNt, s.cfg.rrcTaps.getD j 0 * line.getD j 0]
          rdHist := ((z.map Sample.re).reverse ++ s.rx.rdHist).take (s.cfg.rrcNt - 1) } }

/-- R189 in `HUNT`, R188, R192: the symbol enters the window and is not passed on; a correlation of at
least `DF_THRESHOLD` in magnitude locks, its sign is kept, the scrambler and the window are set anew. -/
def Obligations.DefrHunts : Prop :=
  ∀ (s : State) (x : Soft) (rest : List Soft),
    s.ctrl.getLsbD 1 = true → s.rx.dfState = .hunt → s.rx.qSym = x :: rest →
    RoomFor s.cfg.qdepth.pay s.rx.qPay.length 1 →
    let win : Fin 32 → Soft := fun j => if h : j.val + 1 < 32 then s.rx.dfWin[j.val + 1] else x
    let corr := ∑ j : Fin 32, win j * (if s.cfg.syncWord.getLsbD (31 - j.val) then 1 else -1)
    exec .defr s =
      .next { s.advance with
        rx :=
          if s.cfg.dfThreshold ≤ |corr| then
            { s.rx with
              qSym := rest
              dfInv := decide (corr < 0)
              dfState := .lock
              dfCnt := 0
              dfScr := s.cfg.scrSeed
              dfWin := Vector.ofFn fun _ => 0 }
          else { s.rx with qSym := rest, dfWin := Vector.ofFn win } }

/-- R189 in `LOCK`, R191: the symbol is passed on, negated for `DF_INV` and again for the key bit; the
scrambler steps, the counter counts, and after `FRAME_CODED_BITS` symbols the state is `HUNT`. -/
def Obligations.DefrPassesAPayloadSymbol : Prop :=
  ∀ (s : State) (x : Soft) (rest : List Soft),
    s.ctrl.getLsbD 1 = true → s.rx.dfState = .lock → s.rx.qSym = x :: rest →
    RoomFor s.cfg.qdepth.pay s.rx.qPay.length 1 →
    exec .defr s =
      .next { s.advance with
        rx := { s.rx with
          qSym := rest
          qPay := s.rx.qPay ++ [if s.rx.dfInv = s.rx.dfScr.getLsbD 0 then x else -x]
          dfScr := scrIterate s.cfg.toCfg 1 s.rx.dfScr
          dfState := if s.rx.dfCnt + 1 = 4080 * s.cfg.nb then .hunt else .lock
          dfCnt := if s.rx.dfCnt + 1 = 4080 * s.cfg.nb then 0 else s.rx.dfCnt + 1 } }

/-- R204 with R201 to R203: one firing of `VITD` takes a pair, keeps for every state the smaller of its two
branches (the first on a tie) and which it was, decides the bits up to `e`, and pushes them in whole
bytes behind what `VT_ACC` held; every other element stays. The room it waits for is log 14's, and that
`VT_NOUT` keeps `e` after a frame's last pair is log 22's. -/
def Obligations.VitdProcessesAPair : Prop :=
  ∀ (s : State) (r1 r2 : Soft) (rest : List Soft),
    s.ctrl.getLsbD 1 = true → s.rx.qPay = r1 :: r2 :: rest →
    RoomFor s.cfg.qdepth.dec s.rx.qDec.length (vitdRoom s.cfg.toCfg s.rx) →
    let c := s.cfg.toCfg
    let first := s.rx.vtCnt = 0
    let pm : Fin 64 → Metric := fun n => if first then (if n = 0 then .fin 0 else .inf) else s.rx.vtPm[n]
    let surv := if first then [] else s.rx.vtSurv
    let acc := if first then [] else s.rx.vtAcc
    let nout := if first then 0 else s.rx.vtNout
    let bm : BitVec 7 → Soft := fun w =>
      (r1 - (if parity (w &&& c.convG1) then 1 else -1)) ^ 2 +
        (r2 - (if parity (w &&& c.convG2) then 1 else -1)) ^ 2
    let m0 : Fin 64 → Metric := fun n =>
      (pm ⟨n.val / 2, by omega⟩).add (bm (BitVec.ofNat 7 n.val))
    let m1 : Fin 64 → Metric := fun n =>
      (pm ⟨n.val / 2 + 32, by omega⟩).add (bm (BitVec.ofNat 7 (n.val + 64)))
    let e := if s.rx.vtCnt + 1 = 2040 * s.cfg.nb then 2040 * s.cfg.nb
      else match c.vitTb with
        | .full => nout
        | .window d => if d ≤ s.rx.vtCnt + 1 then s.rx.vtCnt + 2 - d else nout
    ∃ (npm : Vector Metric 64) (dec : BitVec 64) (bytes : List Byte) (acc' : List Bit),
      exec .vitd s =
        .next { s.advance with
          rx := { s.rx with
            qPay := rest
            qDec := s.rx.qDec ++ bytes
            vtPm := npm
            vtSurv := surv ++ [dec]
            vtAcc := acc'
            vtNout := max nout e
            vtCnt := if s.rx.vtCnt + 1 = 2040 * s.cfg.nb then 0 else s.rx.vtCnt + 1 } } ∧
      (∀ n : Fin 64, dec.getLsbD n.val = (m1 n).lt (m0 n) ∧
        npm[n] = if (m1 n).lt (m0 n) then m1 n else m0 n) ∧
      (e ≤ nout → bytes = [] ∧ acc' = acc) ∧
      (nout < e → acc'.length < 8 ∧
        bytes.flatMap bitsOfByte ++ acc' =
          acc ++ (traceback ((surv ++ [dec]).drop nout).reverse (bestState npm) []).take (e - nout))

/-- R220, R281: one firing of `RSDEC` decodes a block; an uncorrectable one sets `RSD_BAD`; the firing
of a frame's last block pushes the frame result and clears the frame's registers. -/
def Obligations.RsdecDecodesABlock : Prop :=
  ∀ (s : State) (block rest : List Byte),
    s.ctrl.getLsbD 1 = true → s.rx.qDec = block ++ rest → block.length = 255 →
    (s.rx.rsdBlk + 1 = s.cfg.nb → RoomFor s.cfg.qdepth.rxout s.rx.qRxout.length 1) →
    let out := rsDecode s.cfg.toCfg block
    let bad := s.rx.rsdBad || decide (out.1 = .uncorrectable)
    exec .rsdec s =
      .next { s.advance with
        rx :=
          if s.rx.rsdBlk + 1 = s.cfg.nb then
            { s.rx with
              qDec := rest
              qRxout := s.rx.qRxout ++ [⟨if bad then .corrupt else .ok, s.rx.rsdBuf ++ out.2⟩]
              rsdBlk := 0
              rsdBad := false
              rsdBuf := [] }
          else
            { s.rx with
              qDec := rest
              rsdBlk := s.rx.rsdBlk + 1
              rsdBad := bad
              rsdBuf := s.rx.rsdBuf ++ out.2 } }

/-! ## Host data moves -/

/-- R245: `TXPUT` of a whole frame pushes it to `Q_TXIN`, whatever `TX_EN` is, if there is room; an
operand of any other length is refused; a start operation discards the frame. -/
def Obligations.TxputTakesWholeFramesOnly : Prop :=
  encode .txput = 0xF0#8 ∧
  ∀ s : State,
    (s.slot.txin.length = 223 * s.cfg.nb →
      RoomFor s.cfg.qdepth.txin s.tx.qTxin.length s.slot.txin.length →
      exec .txput s = .next { s.advance with tx := { s.tx with qTxin := s.tx.qTxin ++ s.slot.txin } }) ∧
    (s.slot.txin.length ≠ 223 * s.cfg.nb →
      exec .txput s = .refused (.frameLength s.slot.txin.length)) ∧
    ∀ t u, exec .txput s = .next t → exec .txstart t = .next u ∨ exec .txstartb t = .next u →
      u.tx.qTxin = []

/-- R246, R247: `TXGET` always, and `BITGET` with `TX_TAP = 1`, hand the host everything in their stream,
the oldest first, and leave it empty. -/
def Obligations.TxgetAndBitgetDrainTheirStream : Prop :=
  encode .txget = 0xF1#8 ∧ encode .bitget = 0xF2#8 ∧
  ∀ s : State,
    exec .txget s =
      .next { s.advance with
        tx := { s.tx with qTxout := [] }
        ports := { s.advance.ports with txout := s.ports.txout ++ [s.tx.qTxout] } } ∧
    (s.ctrl.getLsbD 2 = true →
      exec .bitget s =
        .next { s.advance with
          tx := { s.tx with qBits := [] }
          ports := { s.advance.ports with bits := s.ports.bits ++ [s.tx.qBits] } })

/-- R248, R249: `RXPUT` with `RX_SRC = 0` and `SYMPUT` with `RX_SRC = 1` push their operand, of any length,
to their stream if there is room for it. -/
def Obligations.RxputAndSymputFeedTheirStream : Prop :=
  encode .rxput = 0xF3#8 ∧ encode .symput = 0xF4#8 ∧
  ∀ s : State,
    (s.ctrl.getLsbD 3 = false → RoomFor s.cfg.qdepth.rxin s.rx.qRxin.length s.slot.rxin.length →
      exec .rxput s = .next { s.advance with rx := { s.rx with qRxin := s.rx.qRxin ++ s.slot.rxin } }) ∧
    (s.ctrl.getLsbD 3 = true → RoomFor s.cfg.qdepth.sym s.rx.qSym.length s.slot.sym.length →
      exec .symput s = .next { s.advance with rx := { s.rx with qSym := s.rx.qSym ++ s.slot.sym } })

/-- R250: `RXGET` hands the host the oldest frame result and removes it. -/
def Obligations.RxgetPopsTheOldestResult : Prop :=
  encode .rxget = 0xF5#8 ∧
  ∀ (s : State) (r : FrameResult) (rest : List FrameResult), s.rx.qRxout = r :: rest →
    exec .rxget s =
      .next { s.advance with
        rx := { s.rx with qRxout := rest }
        ports := { s.advance.ports with rxout := s.ports.rxout ++ [r] } }

/-! ## The field and the Reed-Solomon code -/

/-- R122: `gmul` is commutative, associative, distributes over XOR, and 0 and 1 are its zero and one. -/
def Obligations.GmulObeysTheFieldLaws : Prop :=
  ∀ a b d : Byte,
    gmul a b = gmul b a ∧ gmul (gmul a b) d = gmul a (gmul b d) ∧
    gmul a (b ^^^ d) = gmul a b ^^^ gmul a d ∧ gmul a 0#8 = 0#8 ∧ gmul a 1#8 = a

/-- R123 to R125: the table holds the 255 powers of `GF_ALPHA`, each nonzero element once; `glog` is its
inverse; `ginv` inverts. -/
def Obligations.GexpTableHoldsThePowersOfAlpha : Prop :=
  gexp 0 = 1#8 ∧ (∀ i : Fin 254, gexp (i.val + 1) = gmul (gexp i.val) gfAlpha) ∧
  gmul (gexp 254) gfAlpha = 1#8 ∧ gexpTable.length = 255 ∧ gexpTable.Nodup ∧ 0#8 ∉ gexpTable ∧
  ∀ v : Byte, v ≠ 0#8 → glog v < 255 ∧ gexp (glog v) = v ∧ gmul v (ginv v) = 1#8

/-- R141: the generator is monic of degree 32 and vanishes at 32 consecutive powers of `BETA`. R146: its
coefficients for `CFG_REF`. -/
def Obligations.GeneratorHasItsThirtyTwoRoots : Prop :=
  (∀ c : Config,
    (rsGenerator c.toCfg).length = 33 ∧ (rsGenerator c.toCfg).getD 32 0#8 = 1#8 ∧
    ∀ i : Fin 32,
      pevalLo (rsGenerator c.toCfg) (bexp c.toCfg ((c.rsFcr + i.val : Nat) : Int)) = 0#8) ∧
  rsGenerator Config.ref.toCfg =
    [0x2D, 0xD8, 0xEF, 0x18, 0xFD, 0x68, 0x1B, 0x28, 0x6B, 0x32, 0xA3, 0xD2, 0xE3, 0x86, 0xE0, 0x9E,
      0x77, 0x0D, 0x9E, 0x01, 0xEE, 0xA4, 0x52, 0x2B, 0x0F, 0xE8, 0xF6, 0x8E, 0x32, 0xBD, 0x1D, 0xE8,
      0x01]

/-- R145 (b): the parity of a sum of blocks is the sum of their parities. -/
def Obligations.ParityIsLinear : Prop :=
  ∀ (c : Config) (d d' : List Byte), d.length = d'.length →
    rsParity c.toCfg (wordXor d d') = wordXor (rsParity c.toCfg d) (rsParity c.toCfg d')

/-- R145 (c), R143: every codeword `RSENC` emits has all 32 syndromes zero, for every valid `CFG`. -/
def Obligations.EncodedBlockHasZeroSyndromes : Prop :=
  ∀ (c : Config) (d : List Byte), d.length = 223 →
    ∀ i : Fin 32,
      pevalHi (d ++ rsParity c.toCfg d) (bexp c.toCfg ((c.rsFcr + i.val : Nat) : Int)) = 0#8

/-- R221, R230: a received codeword is accepted as it stands; so what `RSENC` makes of a block decodes to
the block. -/
def Obligations.CleanBlockDecodesToItsData : Prop :=
  ∀ (c : Config) (d : List Byte), d.length = 223 →
    rsDecode c.toCfg (d ++ rsParity c.toCfg d) = (.ok, d)

/-- R233 (b): if the status is `OK` the data is the start of a codeword that differs from the received
word in at most 16 bytes. -/
def Obligations.OkBlockIsWithinSixteenBytesOfACodeword : Prop :=
  ∀ (c : Config) (r data : List Byte), r.length = 255 → rsDecode c.toCfg r = (.ok, data) →
    ∃ word : List Byte, word.length = 255 ∧ data = word.take 223 ∧ byteDistance r word ≤ 16 ∧
      ∀ i : Fin 32, pevalHi word (bexp c.toCfg ((c.rsFcr + i.val : Nat) : Int)) = 0#8

/-- R229's reference value (log 11): the data of an uncorrectable block is the received data. -/
def Obligations.UncorrectableBlockKeepsTheReceivedData : Prop :=
  ∀ (c : Config) (r data : List Byte), rsDecode c.toCfg r = (.uncorrectable, data) →
    data = r.take 223 ∧ ¬∀ i : Fin 32,
      pevalHi r (bexp c.toCfg ((c.rsFcr + i.val : Nat) : Int)) = 0#8

/-- R233 (a) for one byte: a codeword with any one byte changed decodes to its data, for every valid
`CFG`, every block, every position (parity bytes too, R233 (d)) and every error value. -/
def Obligations.OneByteErrorIsCorrected : Prop :=
  ∀ (c : Config) (d : List Byte) (j : Fin 255) (e : Byte), d.length = 223 →
    let word := d ++ rsParity c.toCfg d
    rsDecode c.toCfg (word.set j.val (word.getD j.val 0#8 ^^^ e)) = (.ok, d)

/-! ## The convolutional code, the scrambler and the sync word -/

/-- R156: from a cleared register the coding is linear, twice as long as the input, leaves the last six
bits in the register, and two inputs that first differ at bit `t` differ in both bits of pair `t`. -/
def Obligations.ConvolutionalCodeProperties : Prop :=
  ∀ (c : Config) (as bs : List Bit), as.length = bs.length →
    (convBits c.toCfg 0#6 (bitsXor as bs)).1 =
      bitsXor (convBits c.toCfg 0#6 as).1 (convBits c.toCfg 0#6 bs).1 ∧
    (convBits c.toCfg 0#6 as).1.length = 2 * as.length ∧ c.frameCvBytes = 2 * c.frameRsBytes ∧
    (∀ d : Fin 6, (convBits c.toCfg 0#6 as).2.getLsbD d.val = as.reverse.getD d.val false) ∧
    ∀ t, t < as.length → as.take t = bs.take t → as.getD t false ≠ bs.getD t false →
      ∀ o : Fin 2, (convBits c.toCfg 0#6 as).1.getD (2 * t + o.val) false ≠
        (convBits c.toCfg 0#6 bs).1.getD (2 * t + o.val) false

/-- R154: the expected pair `2*o1 + o2` of every window under the default masks; under any valid masks
complementing the current bit, or the oldest, complements both outputs. -/
def Obligations.ExpectedPairTable : Prop :=
  ((List.range 128).map fun n =>
      let w := BitVec.ofNat 7 n
      2 * (convOut1 Config.ref.toCfg w).toNat + (convOut2 Config.ref.toCfg w).toNat) =
    [0,3,1,2,3,0,2,1,3,0,2,1,0,3,1,2] ++ [0,3,1,2,3,0,2,1,3,0,2,1,0,3,1,2] ++
    [2,1,3,0,1,2,0,3,1,2,0,3,2,1,3,0] ++ [2,1,3,0,1,2,0,3,1,2,0,3,2,1,3,0] ++
    [3,0,2,1,0,3,1,2,0,3,1,2,3,0,2,1] ++ [3,0,2,1,0,3,1,2,0,3,1,2,3,0,2,1] ++
    [1,2,0,3,2,1,3,0,2,1,3,0,1,2,0,3] ++ [1,2,0,3,2,1,3,0,2,1,3,0,1,2,0,3] ∧
  ∀ (c : Config) (w : BitVec 7),
    convOut1 c.toCfg (w ^^^ 0x01#7) = !convOut1 c.toCfg w ∧
    convOut2 c.toCfg (w ^^^ 0x01#7) = !convOut2 c.toCfg w ∧
    convOut1 c.toCfg (w ^^^ 0x40#7) = !convOut1 c.toCfg w ∧
    convOut2 c.toCfg (w ^^^ 0x40#7) = !convOut2 c.toCfg w

/-- R163: the scrambler's register holds the next `SCR_LEN` key bits; the key bits obey the recurrence of
`SCR_TAPS`, whose bit 0 is set, and are not all zero. For `CFG_REF` the register first returns to its seed
after 255 steps, and the key stream begins as R163 prints it. -/
def Obligations.KeyStreamObeysTheTaps : Prop :=
  (∀ (c : Config) (i : Nat),
    (∀ j : Nat, j < c.scrLen →
      (scrIterate c.toCfg i c.scrSeed).getLsbD j = keyBit c.toCfg (i + j)) ∧
    keyBit c.toCfg (i + c.scrLen) =
      ((List.range c.scrLen).filter fun j => c.scrTaps.getLsbD j && keyBit c.toCfg (i + j)).length.bodd ∧
    c.scrTaps.getLsbD 0 = true ∧ ∃ j, j < c.scrLen ∧ keyBit c.toCfg (i + j) = true) ∧
  (scrIterate Config.ref.toCfg 255 Config.ref.scrSeed = Config.ref.scrSeed ∧
    ∀ p : Fin 255, 0 < p.val → scrIterate Config.ref.toCfg p.val Config.ref.scrSeed ≠ Config.ref.scrSeed) ∧
  (packBytes ((List.range 128).map (keyBit Config.ref.toCfg))).1 =
    [0xFF, 0x48, 0x0E, 0xC0, 0x9A, 0x0D, 0x70, 0xBC, 0x8E, 0x2C, 0x93, 0xAD, 0xA7, 0xB7, 0x46, 0xCE]

/-- R196: the aperiodic autocorrelation of the `CFG_REF` sync pattern for the shifts 1 to 31, and that these
are the correlations `32 - s` symbols into a clean sync word behind an empty window. -/
def Obligations.SyncWordAutocorrelation : Prop :=
  let c := Config.ref.toCfg
  let expected : List Int :=
    [9, 4, 1, 0, -1, -2, -5, -2, -1, 0, 1, 2, 1, 0, 3, -2, -3, -4, -1, -2, -1, 0, 5, 2, 5, -2, -3, 0,
      -1, 0, -1]
  ∀ k : Fin 31,
    ((List.range (31 - k.val)).map fun j => syncSymbol c j * syncSymbol c (j + (k.val + 1))).sum =
      (expected.getD k.val 0 : Int) ∧
    correlation c (((List.range (31 - k.val)).map (syncSymbol c)).foldl windowPush zeroWindow) =
      (expected.getD k.val 0 : Int)

/-! ## Runs: what a path computes -/

/-- R173, its second form: from an empty history `m` firings of `RRCI` push the convolution of the taps
with the zero-stuffed symbols. -/
def Obligations.RrciRunIsTheConvolution : Prop :=
  ∀ (s : State) (bs more : List Bit) (rest : List Slot),
    s.ctrl.getLsbD 0 = true → s.ctrl.getLsbD 2 = false →
    s.tx.riHist = List.replicate s.cfg.rrcH 0 → s.tx.qBits = bs ++ more →
    RoomFor s.cfg.qdepth.txout s.tx.qTxout.length (bs.length * s.cfg.rrcSps) →
    s.ports.ctl = repeatWord 0x40#8 bs.length ++ rest →
    ∃ t, stepRun bs.length s = .next t ∧ t.ports.ctl = rest ∧ t.tx.qBits = more ∧ t.rx = s.rx ∧
      t.tx.qTxout = s.tx.qTxout ++ (List.range (bs.length * s.cfg.rrcSps)).map fun n =>
        ⟨∑ j ∈ Finset.range s.cfg.rrcNt, s.cfg.tap j *
          (if j ≤ n then zeroStuffed s.cfg.toCfg (bs.map sym) (n - j) else 0), 0⟩

/-- R176, its second form: from an empty history `m` firings of `RRCD` push every `L`-th value, at the
phase, of the convolution of the taps with the real parts. -/
def Obligations.RrcdRunIsTheDecimatedConvolution : Prop :=
  ∀ (s : State) (zs more : List Sample) (m : Nat) (rest : List Slot),
    s.ctrl.getLsbD 1 = true → s.ctrl.getLsbD 3 = false →
    s.rx.rdHist = List.replicate (s.cfg.rrcNt - 1) 0 → s.rx.qRxin = zs ++ more →
    zs.length = m * s.cfg.rrcSps → RoomFor s.cfg.qdepth.sym s.rx.qSym.length m →
    s.ports.ctl = repeatWord 0x50#8 m ++ rest →
    ∃ t, stepRun m s = .next t ∧ t.ports.ctl = rest ∧ t.rx.qRxin = more ∧ t.tx = s.tx ∧
      t.rx.qSym = s.rx.qSym ++ (List.range m).map fun k =>
        ∑ j ∈ Finset.range s.cfg.rrcNt, s.cfg.tap j *
          (if j ≤ k * s.cfg.rrcSps + s.cfg.rrcPhase then
            (zs.map Sample.re).getD (k * s.cfg.rrcSps + s.cfg.rrcPhase - j) 0 else 0)

/-- R92: in tap mode, from a transmit path at a frame boundary, a frame `f` put, encoded, coded and framed
reaches the host as one sync frame of `SYNCFRAME_BITS` bits behind what was waiting: the sync word, then
the coded bits XORed with the key stream. -/
def Obligations.FrameOnTheWire : Prop :=
  ∀ (s : State) (f : List Byte) (rest : List Slot),
    s.cfg.qdepth = QDepth.unbounded → f.length = 223 * s.cfg.nb →
    s.ctrl.getLsbD 0 = true → s.ctrl.getLsbD 2 = true →
    s.tx.qTxin = [] → s.tx.qRsc = [] → s.tx.qCvc = [] → s.tx.cvCnt = 0 → s.tx.frCnt = 0 →
    s.ports.ctl = ({ word := 0xF0#8, txin := f } : Slot) :: (repeatWord 0x10#8 s.cfg.nb ++
      (repeatWord 0x20#8 (255 * s.cfg.nb) ++ (repeatWord 0x30#8 (510 * s.cfg.nb) ++
        (repeatWord 0xF2#8 1 ++ rest)))) →
    (wireBits s.cfg.toCfg f).length = 32 + 4080 * s.cfg.nb ∧
    ∃ t, stepRun (1 + s.cfg.nb + 255 * s.cfg.nb + 510 * s.cfg.nb + 1) s = .next t ∧
      t.ports.ctl = rest ∧ t.ports.bits = s.ports.bits ++ [s.tx.qBits ++ wireBits s.cfg.toCfg f] ∧
      t.tx.qTxin = [] ∧ t.tx.qRsc = [] ∧ t.tx.qCvc = [] ∧ t.tx.qBits = [] ∧
      t.tx.cvCnt = 0 ∧ t.tx.frCnt = 0 ∧ t.rx = s.rx

/-- R315, R195 (a): from a lock the deframer takes exactly `FRAME_CODED_BITS` symbols, passes each on with
the sign of `DF_INV` and of its key bit removed, and is in `HUNT` again with an empty window. -/
def Obligations.LockRunsItsFullLength : Prop :=
  ∀ (s : State) (xs more : List Soft) (rest : List Slot),
    s.ctrl.getLsbD 1 = true → s.rx.dfState = .lock → s.rx.dfCnt = 0 → s.rx.dfScr = s.cfg.scrSeed →
    s.rx.dfWin = zeroWindow → s.rx.qSym = xs ++ more → xs.length = 4080 * s.cfg.nb →
    RoomFor s.cfg.qdepth.pay s.rx.qPay.length (4080 * s.cfg.nb) →
    s.ports.ctl = repeatWord 0x60#8 (4080 * s.cfg.nb) ++ rest →
    ∃ t, stepRun (4080 * s.cfg.nb) s = .next t ∧ t.ports.ctl = rest ∧ t.rx.qSym = more ∧
      t.rx.dfState = .hunt ∧ t.rx.dfCnt = 0 ∧ t.rx.dfWin = zeroWindow ∧ t.rx.dfInv = s.rx.dfInv ∧
      t.rx.qPay = s.rx.qPay ++ (List.range (4080 * s.cfg.nb)).map fun i =>
        if s.rx.dfInv = keyBit s.cfg.toCfg i then xs.getD i 0 else -xs.getD i 0

/-- R209: on the symbols of a coded frame, all scaled by one positive factor, the Viterbi decoder gives the
frame's bytes, for every valid `CFG` and so for every `VIT_TB`, whatever the last frame left. With a finite
`Q_DEC` it needs the room of R204 (log 14): `FRAME_RS_BYTES` at the last pair, beside what is pushed before it. -/
def Obligations.ViterbiIsExactWithoutNoise : Prop :=
  ∀ (s : State) (k : Soft) (f : List Byte) (more : List Soft) (rest : List Slot),
    0 < k → f.length = 255 * s.cfg.nb → s.ctrl.getLsbD 1 = true → s.rx.vtCnt = 0 →
    s.rx.qPay = symbolsOf k (codedBits s.cfg.toCfg f) ++ more →
    RoomFor s.cfg.qdepth.dec s.rx.qDec.length
      (255 * s.cfg.nb + decidedAfter s.cfg.toCfg (2040 * s.cfg.nb - 1) / 8) →
    s.ports.ctl = repeatWord 0x70#8 (2040 * s.cfg.nb) ++ rest →
    ∃ t, stepRun (2040 * s.cfg.nb) s = .next t ∧ t.ports.ctl = rest ∧ t.rx.qPay = more ∧
      t.rx.vtCnt = 0 ∧ t.rx.vtAcc = [] ∧ t.rx.qDec = s.rx.qDec ++ f

/-- R281, R220, R75: the blocks of a frame make one frame result, with the data of the blocks in order; its
status is `CORRUPT` iff one of them, or several, is uncorrectable; the frame's registers end as at reset. -/
def Obligations.FrameIsCorruptIffABlockIs : Prop :=
  ∀ (s : State) (blocks : List (List Byte)) (more : List Byte) (rest : List Slot),
    s.ctrl.getLsbD 1 = true → s.rx.rsdBlk = 0 → s.rx.rsdBad = false → s.rx.rsdBuf = [] →
    blocks.length = s.cfg.nb → (∀ b ∈ blocks, b.length = 255) → s.rx.qDec = blocks.flatten ++ more →
    RoomFor s.cfg.qdepth.rxout s.rx.qRxout.length 1 →
    s.ports.ctl = repeatWord 0x80#8 s.cfg.nb ++ rest →
    ∃ (t : State) (status : FrameStatus), stepRun s.cfg.nb s = .next t ∧ t.ports.ctl = rest ∧
      t.rx.qDec = more ∧
      t.rx.qRxout = s.rx.qRxout ++
        [⟨status, blocks.flatMap fun b => (rsDecode s.cfg.toCfg b).2⟩] ∧
      (status = .corrupt ↔ ∃ b ∈ blocks, (rsDecode s.cfg.toCfg b).1 = .uncorrectable) ∧
      t.rx.rsdBlk = 0 ∧ t.rx.rsdBad = false ∧ t.rx.rsdBuf = []

/-- The whole block against itself (R92, R195 (b), R209, R230, R250): under the codes of `CFG_REF`, the soft
symbols of a frame's sync frame, of either polarity, fed to a receive path at reset are delivered as that
frame, `OK`. -/
def Obligations.CleanSyncFrameIsDelivered : Prop :=
  ∀ (s : State) (nb : Nat) (f : List Byte) (k : Soft) (rest : List Slot),
    s.cfg.toCfg = Cfg.refWith nb → f.length = 223 * nb → k = 1 ∨ k = -1 →
    s.ctrl.getLsbD 1 = true → s.ctrl.getLsbD 3 = true → RxAtReset s.cfg.toCfg s.rx →
    s.ports.ctl =
      ({ word := 0xF4#8, sym := symbolsOf k (wireBits s.cfg.toCfg f) } : Slot) ::
        (repeatWord 0x60#8 (32 + 4080 * nb) ++ (repeatWord 0x70#8 (2040 * nb) ++
          (repeatWord 0x80#8 nb ++ (repeatWord 0xF5#8 1 ++ rest)))) →
    ∃ t, stepRun (1 + (32 + 4080 * nb) + 2040 * nb + nb + 1) s = .next t ∧ t.ports.ctl = rest ∧
      t.ports.rxout = s.ports.rxout ++ [⟨.ok, f⟩] ∧ t.rx.dfInv = decide (k < 0) ∧ t.tx = s.tx

/-! ## The Viterbi decoder's frames, and polarity -/

/-- R206, R314: with `VIT_TB = FULL` no firing before a frame's last pair pushes a byte, and the last one
pushes all `FRAME_RS_BYTES`. -/
def Obligations.FullTracebackDecidesAtTheFrameEnd : Prop :=
  ∀ s t : State, s.cfg.vitTb = .full → RxInv s → s.enabled .vitd = true → exec .vitd s = .next t →
    if s.rx.vtCnt + 1 = 2040 * s.cfg.nb then
      (t.rx.qDec.length = s.rx.qDec.length + 255 * s.cfg.nb ∧ t.rx.vtAcc = [] ∧ t.rx.vtCnt = 0)
    else t.rx.qDec = s.rx.qDec ∧ t.rx.vtCnt = s.rx.vtCnt + 1

/-- R205: whatever metrics, survivors and undecided bits the last frame left, a frame's first pair is
processed from metric 0 for state 0, `+inf` for every other, and nothing else; and in every state a step
reaches, after `t` pairs of a frame exactly the trellis states below `2^min(t,6)` have finite metrics. -/
def Obligations.ViterbiStartsEveryFrameAfresh : Prop :=
  (∀ s : State, s.rx.vtCnt = 0 → s.enabled .vitd = true →
    exec .vitd s =
      exec .vitd { s with
        rx := { s.rx with
          vtPm := Vector.ofFn fun n : Fin 64 => if n = 0 then .fin 0 else .inf
          vtSurv := []
          vtAcc := []
          vtNout := 0 } }) ∧
  ∀ s t : State, FiniteStates s → step s = .next t → FiniteStates t

/-- R73, R190: two receive paths fed the same symbols with opposite signs stay mirror images, and so push
the same soft symbols to `Q_PAY`: `DF_INV` removes the polarity. -/
def Obligations.PolarityIsRepaired : Prop :=
  ∀ s s' : State, s'.cfg = s.cfg → s'.ctrl = s.ctrl → Mirror s.rx s'.rx →
    ∀ t t', exec .defr s = .next t → exec .defr s' = .next t' →
      Mirror t.rx t'.rx ∧ t'.rx.qPay = t.rx.qPay

/-! ## Invariants and rules of the whole machine -/

/-- R24, R31 to R35, R77, R246: every step keeps the transmit path's counters in range and in step with the
frame boundaries, the scrambler in phase and the history full. -/
def Obligations.StepKeepsTheTxPathAligned : Prop :=
  ∀ s t : State, TxInv s → step s = .next t → TxInv t

/-- R24, R36 to R47, R79: every step keeps the receive path's counters in range and in step with the
deframer's frames, the histories and windows as the rules say, and the frame results whole. -/
def Obligations.StepKeepsTheRxPathAligned : Prop :=
  ∀ s t : State, RxInv s → step s = .next t → RxInv t

/-- The invariants hold at reset. -/
def Obligations.InvariantsHoldAtReset : Prop :=
  TxInv State.reset ∧ RxInv State.reset ∧ CtrlInv State.reset ∧ Capacities State.reset ∧
    FiniteStates State.reset

/-- R25: only the control operations the table names write a bit of `CTRL`, each its own; the reserved
bits stay 0. -/
def Obligations.OnlyControlOperationsWriteCtrl : Prop :=
  State.reset.ctrl = 0x00#8 ∧ (∀ s t : State, CtrlInv s → step s = .next t → CtrlInv t) ∧
  ∀ (i : Instr) (s t : State), exec i s = .next t →
    (t.ctrl.getLsbD 0 ≠ s.ctrl.getLsbD 0 → i ∈ [Instr.txstart, .txstartb, .txstop, .rst]) ∧
    (t.ctrl.getLsbD 1 ≠ s.ctrl.getLsbD 1 → i ∈ [Instr.rxstart, .rxstarts, .rxstop, .rst]) ∧
    (t.ctrl.getLsbD 2 ≠ s.ctrl.getLsbD 2 → i ∈ [Instr.txstart, .txstartb, .rst]) ∧
    (t.ctrl.getLsbD 3 ≠ s.ctrl.getLsbD 3 → i ∈ [Instr.rxstart, .rxstarts, .rst])

/-- R27: no operation writes any field of `CFG`, in any state. -/
def Obligations.NoOperationWritesTheConfiguration : Prop :=
  (∀ (i : Instr) (s t : State), exec i s = .next t → t.cfg = s.cfg) ∧
  ∀ (n : Nat) (s t : State), stepRun n s = .next t → t.cfg = s.cfg

/-- R63, R288: no step fills a stream beyond its capacity. -/
def Obligations.StepKeepsStreamsWithinCapacity : Prop :=
  ∀ s t : State, RxInv s → Capacities s → step s = .next t → Capacities t

/-- R17, R64: of two different stages both enabled each may fire first, the other is enabled after it, and
both orders end in the same state. -/
def Obligations.EnabledStagesCommute : Prop :=
  ∀ (s : State) (i j : Instr), i ∈ stageOps → j ∈ stageOps → i ≠ j →
    s.enabled i = true → s.enabled j = true →
    ∃ t t' u : State, exec i s = .next t ∧ t.enabled j = true ∧ exec j t = .next u ∧
      exec j s = .next t' ∧ t'.enabled i = true ∧ exec i t' = .next u

/-- R21: what an operation does to one path does not depend on the other: two states that agree on one
path, its bits of `CTRL` and the presented line still agree on them, and on what the port returns,
afterwards. -/
def Obligations.PathsAreIndependent : Prop :=
  ∀ (i : Instr) (s s' t t' : State), exec i s = .next t → exec i s' = .next t' →
    (SameTx s s' → t'.tx = t.tx ∧ t'.txEn = t.txEn ∧ t'.txTap = t.txTap ∧
      (s'.ports.txout = s.ports.txout → t'.ports.txout = t.ports.txout) ∧
      (s'.ports.bits = s.ports.bits → t'.ports.bits = t.ports.bits)) ∧
    (SameRx s s' → t'.rx = t.rx ∧ t'.rxEn = t.rxEn ∧ t'.rxSrc = t.rxSrc ∧
      (s'.ports.rxout = s.ports.rxout → t'.ports.rxout = t.ports.rxout))

/-- R22, R60: apart from the resetting operations, each stream is changed only by its producer, which
appends, and by its consumer, which takes its unit from the head. -/
def Obligations.EachStreamHasOneProducerAndOneConsumer : Prop :=
  ∀ (i : Instr) (s t : State), exec i s = .next t →
    i ∉ [Instr.rst, .txstart, .txstartb, .rxstart, .rxstarts] →
    (t.tx.qTxin = if i = .rsenc ∧ s.enabled i then s.tx.qTxin.drop 223
      else if i = .txput ∧ s.enabled i then s.tx.qTxin ++ s.slot.txin else s.tx.qTxin) ∧
    (∃ new, t.tx.qRsc = (if i = .cvenc ∧ s.enabled i then s.tx.qRsc.drop 1 else s.tx.qRsc) ++ new ∧
      (new ≠ [] → i = .rsenc)) ∧
    (∃ new, t.tx.qCvc = (if i = .frmr ∧ s.enabled i then s.tx.qCvc.drop 1 else s.tx.qCvc) ++ new ∧
      (new ≠ [] → i = .cvenc)) ∧
    (∃ new, t.tx.qBits = (if i = .rrci ∧ s.enabled i then s.tx.qBits.drop 1
        else if i = .bitget ∧ s.enabled i then [] else s.tx.qBits) ++ new ∧
      (new ≠ [] → i = .frmr)) ∧
    (∃ new, t.tx.qTxout = (if i = .txget then [] else s.tx.qTxout) ++ new ∧ (new ≠ [] → i = .rrci)) ∧
    (t.rx.qRxin = if i = .rrcd ∧ s.enabled i then s.rx.qRxin.drop s.cfg.rrcSps
      else if i = .rxput ∧ s.enabled i then s.rx.qRxin ++ s.slot.rxin else s.rx.qRxin) ∧
    (∃ new, t.rx.qSym = (if i = .defr ∧ s.enabled i then s.rx.qSym.drop 1 else s.rx.qSym) ++ new ∧
      (new ≠ [] → i = .rrcd ∨ i = .symput)) ∧
    (∃ new, t.rx.qPay = (if i = .vitd ∧ s.enabled i then s.rx.qPay.drop 2 else s.rx.qPay) ++ new ∧
      (new ≠ [] → i = .defr)) ∧
    (∃ new, t.rx.qDec = (if i = .rsdec ∧ s.enabled i then s.rx.qDec.drop 255 else s.rx.qDec) ++ new ∧
      (new ≠ [] → i = .vitd)) ∧
    ∃ new, t.rx.qRxout = (if i = .rxget ∧ s.enabled i then s.rx.qRxout.drop 1 else s.rx.qRxout) ++ new ∧
      (new ≠ [] → i = .rsdec)

/-- R28: outside the resetting operations only `DEFR` writes `DF_STATE` and `DF_INV`, `DF_INV` only at the
moment of lock, and only `RSDEC` writes `RSD_BAD`. -/
def Obligations.FlagsAreWrittenByTheirStageAlone : Prop :=
  ∀ (i : Instr) (s t : State), exec i s = .next t → i ∉ [Instr.rst, .rxstart, .rxstarts] →
    (i ≠ .defr → t.rx.dfState = s.rx.dfState ∧ t.rx.dfInv = s.rx.dfInv) ∧
    (t.rx.dfInv ≠ s.rx.dfInv → s.rx.dfState = .hunt ∧ t.rx.dfState = .lock) ∧
    (s.rx.dfState = .lock → t.rx.dfState = .hunt → s.rx.dfCnt + 1 = 4080 * s.cfg.nb) ∧
    (i ≠ .rsdec → t.rx.rsdBad = s.rx.rsdBad) ∧
    (s.rx.rsdBad = true → t.rx.rsdBad = false → s.rx.rsdBlk + 1 = s.cfg.nb)

/-- R296: a `CFG` has an instance iff every condition of the list holds. (`SYNC_WORD` has 32 bits and the
masks 7 by their types.) The capacities are the numbers of its list; that they are enough is the model's
choice (log 23). -/
def Obligations.OnlyValidConfigurationsHaveAnInstance : Prop :=
  ∀ c : Cfg, (∃ k : Config, k.toCfg = c) ↔
    (c.rsN = 255 ∧ c.rsK = 223 ∧ c.rsT = 16 ∧ c.rsNpar = 32) ∧
    (c.gfPrim = 0x11D#9 ∧ c.gfAlpha = 0x02#8) ∧
    c.rsFcr ≤ 254 ∧ (1 ≤ c.rsGap ∧ c.rsGap ≤ 254 ∧ Nat.Coprime c.rsGap 255) ∧
    1 ≤ c.nb ∧ c.convK = 7 ∧
    (c.convG1.getLsbD 0 = true ∧ c.convG1.getLsbD 6 = true ∧ c.convG2.getLsbD 0 = true ∧
      c.convG2.getLsbD 6 = true ∧ c.convG1 ≠ c.convG2) ∧
    (2 ≤ c.scrLen ∧ c.scrLen ≤ 32) ∧
    (c.scrTaps.toNat < 2 ^ c.scrLen ∧ c.scrTaps.getLsbD 0 = true) ∧
    (c.scrSeed.toNat < 2 ^ c.scrLen ∧ c.scrSeed ≠ 0#32) ∧
    1 ≤ c.rrcSps ∧
    (c.rrcNt % 2 = 1 ∧ c.rrcTaps.length = c.rrcNt) ∧
    (∀ j, j < c.rrcNt → c.rrcTaps.getD j 0 = c.rrcTaps.getD (c.rrcNt - 1 - j) 0) ∧
    (∑ j ∈ Finset.range c.rrcNt, c.rrcTaps.getD j 0 ^ 2 = 1) ∧
    c.rrcPhase = (c.rrcNt - 1) % c.rrcSps ∧
    0 < c.dfThreshold ∧
    (∀ d, c.vitTb = .window d → 35 ≤ d) ∧
    (RoomFor c.qdepth.txin 0 (223 * c.nb) ∧ RoomFor c.qdepth.rsc 0 255 ∧ RoomFor c.qdepth.cvc 0 2 ∧
      RoomFor c.qdepth.bits 0 40 ∧ RoomFor c.qdepth.txout 0 c.rrcSps ∧
      RoomFor c.qdepth.rxin 0 c.rrcSps ∧ RoomFor c.qdepth.sym 0 1 ∧ RoomFor c.qdepth.pay 0 2 ∧
      RoomFor c.qdepth.dec 0 255 ∧ (c.vitTb = .full → RoomFor c.qdepth.dec 0 (255 * c.nb)) ∧
      RoomFor c.qdepth.rxout 0 1)
end

