-- ==== Sys2Proof/Laws/State.lean ====
section
/-! SUPPORT. What each named update of State leaves of each field; all by rfl. -/

namespace Sys2Proof.Machine

variable (s : State)

@[simp] theorem State.advance_cfg : s.advance.cfg = s.cfg := rfl
@[simp] theorem State.advance_ctrl : s.advance.ctrl = s.ctrl := rfl
@[simp] theorem State.advance_tx : s.advance.tx = s.tx := rfl
@[simp] theorem State.advance_rx : s.advance.rx = s.rx := rfl
@[simp] theorem State.advance_ctl : s.advance.ports.ctl = s.ports.ctl.drop 1 := rfl
@[simp] theorem State.advance_status : s.advance.ports.status = s.ports.status := rfl
@[simp] theorem State.advance_txout : s.advance.ports.txout = s.ports.txout := rfl
@[simp] theorem State.advance_bits : s.advance.ports.bits = s.ports.bits := rfl
@[simp] theorem State.advance_rxout : s.advance.ports.rxout = s.ports.rxout := rfl

@[simp] theorem State.setCtrl_cfg (v : BitVec 8) : (s.setCtrl v).cfg = s.cfg := rfl
@[simp] theorem State.setCtrl_ports (v : BitVec 8) : (s.setCtrl v).ports = s.ports := rfl
@[simp] theorem State.setCtrl_ctrl (v : BitVec 8) : (s.setCtrl v).ctrl = v := rfl
@[simp] theorem State.setCtrl_tx (v : BitVec 8) : (s.setCtrl v).tx = s.tx := rfl
@[simp] theorem State.setCtrl_rx (v : BitVec 8) : (s.setCtrl v).rx = s.rx := rfl

@[simp] theorem State.setTx_cfg (t : TxPath) : (s.setTx t).cfg = s.cfg := rfl
@[simp] theorem State.setTx_ports (t : TxPath) : (s.setTx t).ports = s.ports := rfl
@[simp] theorem State.setTx_ctrl (t : TxPath) : (s.setTx t).ctrl = s.ctrl := rfl
@[simp] theorem State.setTx_tx (t : TxPath) : (s.setTx t).tx = t := rfl
@[simp] theorem State.setTx_rx (t : TxPath) : (s.setTx t).rx = s.rx := rfl

@[simp] theorem State.setRx_cfg (r : RxPath) : (s.setRx r).cfg = s.cfg := rfl
@[simp] theorem State.setRx_ports (r : RxPath) : (s.setRx r).ports = s.ports := rfl
@[simp] theorem State.setRx_ctrl (r : RxPath) : (s.setRx r).ctrl = s.ctrl := rfl
@[simp] theorem State.setRx_tx (r : RxPath) : (s.setRx r).tx = s.tx := rfl
@[simp] theorem State.setRx_rx (r : RxPath) : (s.setRx r).rx = r := rfl

@[simp] theorem State.emitStatus_cfg (r : Byte × Byte) : (s.emitStatus r).cfg = s.cfg := rfl
@[simp] theorem State.emitStatus_ctrl (r : Byte × Byte) : (s.emitStatus r).ctrl = s.ctrl := rfl
@[simp] theorem State.emitStatus_tx (r : Byte × Byte) : (s.emitStatus r).tx = s.tx := rfl
@[simp] theorem State.emitStatus_rx (r : Byte × Byte) : (s.emitStatus r).rx = s.rx := rfl
@[simp] theorem State.emitStatus_ctl (r : Byte × Byte) : (s.emitStatus r).ports.ctl = s.ports.ctl := rfl
@[simp] theorem State.emitStatus_status (r : Byte × Byte) :
    (s.emitStatus r).ports.status = s.ports.status ++ [r] := rfl
@[simp] theorem State.emitStatus_txout (r : Byte × Byte) :
    (s.emitStatus r).ports.txout = s.ports.txout := rfl
@[simp] theorem State.emitStatus_bits (r : Byte × Byte) :
    (s.emitStatus r).ports.bits = s.ports.bits := rfl
@[simp] theorem State.emitStatus_rxout (r : Byte × Byte) :
    (s.emitStatus r).ports.rxout = s.ports.rxout := rfl

@[simp] theorem State.emitTxout_cfg (r : List Sample) : (s.emitTxout r).cfg = s.cfg := rfl
@[simp] theorem State.emitTxout_ctrl (r : List Sample) : (s.emitTxout r).ctrl = s.ctrl := rfl
@[simp] theorem State.emitTxout_tx (r : List Sample) : (s.emitTxout r).tx = s.tx := rfl
@[simp] theorem State.emitTxout_rx (r : List Sample) : (s.emitTxout r).rx = s.rx := rfl
@[simp] theorem State.emitTxout_ctl (r : List Sample) : (s.emitTxout r).ports.ctl = s.ports.ctl := rfl
@[simp] theorem State.emitTxout_status (r : List Sample) :
    (s.emitTxout r).ports.status = s.ports.status := rfl
@[simp] theorem State.emitTxout_txout (r : List Sample) :
    (s.emitTxout r).ports.txout = s.ports.txout ++ [r] := rfl
@[simp] theorem State.emitTxout_bits (r : List Sample) :
    (s.emitTxout r).ports.bits = s.ports.bits := rfl
@[simp] theorem State.emitTxout_rxout (r : List Sample) :
    (s.emitTxout r).ports.rxout = s.ports.rxout := rfl

@[simp] theorem State.emitBits_cfg (r : List Bit) : (s.emitBits r).cfg = s.cfg := rfl
@[simp] theorem State.emitBits_ctrl (r : List Bit) : (s.emitBits r).ctrl = s.ctrl := rfl
@[simp] theorem State.emitBits_tx (r : List Bit) : (s.emitBits r).tx = s.tx := rfl
@[simp] theorem State.emitBits_rx (r : List Bit) : (s.emitBits r).rx = s.rx := rfl
@[simp] theorem State.emitBits_ctl (r : List Bit) : (s.emitBits r).ports.ctl = s.ports.ctl := rfl
@[simp] theorem State.emitBits_status (r : List Bit) :
    (s.emitBits r).ports.status = s.ports.status := rfl
@[simp] theorem State.emitBits_txout (r : List Bit) :
    (s.emitBits r).ports.txout = s.ports.txout := rfl
@[simp] theorem State.emitBits_bits (r : List Bit) :
    (s.emitBits r).ports.bits = s.ports.bits ++ [r] := rfl
@[simp] theorem State.emitBits_rxout (r : List Bit) :
    (s.emitBits r).ports.rxout = s.ports.rxout := rfl

@[simp] theorem State.emitRxout_cfg (r : FrameResult) : (s.emitRxout r).cfg = s.cfg := rfl
@[simp] theorem State.emitRxout_ctrl (r : FrameResult) : (s.emitRxout r).ctrl = s.ctrl := rfl
@[simp] theorem State.emitRxout_tx (r : FrameResult) : (s.emitRxout r).tx = s.tx := rfl
@[simp] theorem State.emitRxout_rx (r : FrameResult) : (s.emitRxout r).rx = s.rx := rfl
@[simp] theorem State.emitRxout_ctl (r : FrameResult) : (s.emitRxout r).ports.ctl = s.ports.ctl := rfl
@[simp] theorem State.emitRxout_status (r : FrameResult) :
    (s.emitRxout r).ports.status = s.ports.status := rfl
@[simp] theorem State.emitRxout_txout (r : FrameResult) :
    (s.emitRxout r).ports.txout = s.ports.txout := rfl
@[simp] theorem State.emitRxout_bits (r : FrameResult) :
    (s.emitRxout r).ports.bits = s.ports.bits := rfl
@[simp] theorem State.emitRxout_rxout (r : FrameResult) :
    (s.emitRxout r).ports.rxout = s.ports.rxout ++ [r] := rfl

@[simp] theorem State.resetTx_cfg : s.resetTx.cfg = s.cfg := rfl
@[simp] theorem State.resetTx_ports : s.resetTx.ports = s.ports := rfl
@[simp] theorem State.resetTx_ctrl : s.resetTx.ctrl = s.ctrl := rfl
@[simp] theorem State.resetTx_tx : s.resetTx.tx = .reset s.cfg.toCfg := rfl
@[simp] theorem State.resetTx_rx : s.resetTx.rx = s.rx := rfl

@[simp] theorem State.resetRx_cfg : s.resetRx.cfg = s.cfg := rfl
@[simp] theorem State.resetRx_ports : s.resetRx.ports = s.ports := rfl
@[simp] theorem State.resetRx_ctrl : s.resetRx.ctrl = s.ctrl := rfl
@[simp] theorem State.resetRx_tx : s.resetRx.tx = s.tx := rfl
@[simp] theorem State.resetRx_rx : s.resetRx.rx = .reset s.cfg.toCfg := rfl

@[simp] theorem State.resetAll_cfg : s.resetAll.cfg = s.cfg := rfl
@[simp] theorem State.resetAll_ports : s.resetAll.ports = s.ports := rfl
@[simp] theorem State.resetAll_ctrl : s.resetAll.ctrl = 0x00#8 := rfl
@[simp] theorem State.resetAll_tx : s.resetAll.tx = .reset s.cfg.toCfg := rfl
@[simp] theorem State.resetAll_rx : s.resetAll.rx = .reset s.cfg.toCfg := rfl

@[simp] theorem State.startTx_cfg (b : Bool) : (s.startTx b).cfg = s.cfg := rfl
@[simp] theorem State.startTx_ports (b : Bool) : (s.startTx b).ports = s.ports := rfl
@[simp] theorem State.startTx_ctrl (b : Bool) :
    (s.startTx b).ctrl = ctrlWith (ctrlWith s.ctrl 0 true) 2 b := rfl
@[simp] theorem State.startTx_tx (b : Bool) : (s.startTx b).tx = .reset s.cfg.toCfg := rfl
@[simp] theorem State.startTx_rx (b : Bool) : (s.startTx b).rx = s.rx := rfl

@[simp] theorem State.startRx_cfg (b : Bool) : (s.startRx b).cfg = s.cfg := rfl
@[simp] theorem State.startRx_ports (b : Bool) : (s.startRx b).ports = s.ports := rfl
@[simp] theorem State.startRx_ctrl (b : Bool) :
    (s.startRx b).ctrl = ctrlWith (ctrlWith s.ctrl 1 true) 3 b := rfl
@[simp] theorem State.startRx_tx (b : Bool) : (s.startRx b).tx = s.tx := rfl
@[simp] theorem State.startRx_rx (b : Bool) : (s.startRx b).rx = .reset s.cfg.toCfg := rfl

end Sys2Proof.Machine
end

