-- ==== Sys2Proof/Laws/Ops.lean ====
section
/-! SUPPORT. What the shared operations can do: completing or waiting, streams first in first out, the
bits of `CTRL`. -/

namespace Sys2Proof.Machine

/-! ## Completing or waiting -/

@[simp] theorem State.complete_true (s done : State) : s.complete true done = .next done.advance := rfl

@[simp] theorem State.complete_false (s done : State) : s.complete false done = .next s := rfl

/-- All that `complete` can do: the operation is carried out, or the state stays as it is. -/
theorem State.complete_cases {s done t : State} {en : Bool} (h : s.complete en done = .next t) :
    (en = true ∧ t = done.advance) ∨ (en = false ∧ t = s) := by
  cases en
  · exact .inr ⟨rfl, by simpa using h.symm⟩
  · exact .inl ⟨rfl, by simpa using h.symm⟩

/-- `complete` always answers a next state. -/
theorem State.complete_next (s done : State) (en : Bool) : ∃ t, s.complete en done = .next t := by
  cases en
  · exact ⟨s, rfl⟩
  · exact ⟨done.advance, rfl⟩

/-! ## Streams -/

@[simp] theorem has_iff {α : Type} (q : List α) (n : Nat) : has q n = true ↔ n ≤ q.length := by
  simp [has]

@[simp] theorem room_none {α : Type} (q : List α) (n : Nat) : room none q n = true := rfl

@[simp] theorem room_some {α : Type} (d : Nat) (q : List α) (n : Nat) :
    room (some d) q n = true ↔ q.length + n ≤ d := by
  simp [room, Cfg.holds]

/-- Room, for any capacity. -/
theorem room_iff {α : Type} (cap : Option Nat) (q : List α) (n : Nat) :
    room cap q n = true ↔ ∀ d, cap = some d → q.length + n ≤ d := by
  cases cap <;> simp

/-- Fewer tokens leave more room. -/
theorem room_mono {α : Type} {cap : Option Nat} {q q' : List α} {n : Nat}
    (hle : q'.length ≤ q.length) (h : room cap q n = true) : room cap q' n = true := by
  rw [room_iff] at *
  intro d hd
  exact le_trans (by omega) (h d hd)

@[simp] theorem length_popped {α : Type} (q : List α) (n : Nat) :
    (popped q n).length = min n q.length := by
  simp [popped]

@[simp] theorem length_left {α : Type} (q : List α) (n : Nat) : (left q n).length = q.length - n := by
  simp [left]

@[simp] theorem length_push {α : Type} (q s : List α) : (push q s).length = q.length + s.length := by
  simp [push]

/-- A unit that is there is popped whole. -/
theorem length_popped_of_has {α : Type} {q : List α} {n : Nat} (h : n ≤ q.length) :
    (popped q n).length = n := by
  simp [h]

/-- What is popped and what is left are the stream: nothing is lost, duplicated or reordered (R60). -/
theorem popped_append_left {α : Type} (q : List α) (n : Nat) : popped q n ++ left q n = q :=
  List.take_append_drop n q

/-- A push behind a whole unit does not change what is popped. -/
theorem popped_push {α : Type} {q : List α} {n : Nat} (s : List α) (h : n ≤ q.length) :
    popped (push q s) n = popped q n := by
  simp [popped, push, List.take_append_of_le_length h]

/-- Popping a whole unit and pushing commute: they touch opposite ends (R64). -/
theorem left_push {α : Type} {q : List α} {n : Nat} (s : List α) (h : n ≤ q.length) :
    left (push q s) n = push (left q n) s := by
  simp [left, push, List.drop_append_of_le_length h]

/-- First in, first out: what is pushed to an empty stream is popped in its order. -/
theorem popped_push_empty {α : Type} (s : List α) : popped (push [] s) s.length = s := by
  simp [popped, push]

/-! ## `CTRL` -/

/-- `ctrlWith` sets one bit and keeps the others. -/
theorem getLsbD_ctrlWith (ctrl : BitVec 8) (b : Bool) {i j : Nat} (hi : i < 8) (hj : j < 8) :
    (ctrlWith ctrl i b).getLsbD j = if j = i then b else ctrl.getLsbD j := by
  unfold ctrlWith
  cases b <;> by_cases h : j = i
  · subst h
    simp [hj]
  · have : ¬ (j - i = 0 ∧ i ≤ j) := by omega
    rcases Nat.lt_or_ge j i with hlt | hge
    · simp [h, hj, hlt]
    · have h0 : j - i ≠ 0 := by omega
      simp [h, hj, h0]
  · subst h
    simp [hj]
  · rcases Nat.lt_or_ge j i with hlt | hge
    · simp [h, hlt]
    · have h0 : j - i ≠ 0 := by omega
      simp [h, h0]

/-- `ctrlWith` on a bit below 4 leaves the reserved bits 7:4 zero where they were zero (R25). -/
theorem ctrlWith_reserved {ctrl : BitVec 8} (b : Bool) {i : Nat} (hi : i < 4) (h : ctrl &&& 0xF0#8 = 0#8) :
    ctrlWith ctrl i b &&& 0xF0#8 = 0#8 := by
  interval_cases i <;> cases b <;> (revert h; revert ctrl; decide)

/-! The fields of `CTRL` after each named update. -/

@[simp] theorem State.advance_txEn (s : State) :
    s.advance.txEn = s.txEn := rfl
@[simp] theorem State.setTx_txEn (s : State) (t : TxPath) :
    (s.setTx t).txEn = s.txEn := rfl
@[simp] theorem State.setRx_txEn (s : State) (r : RxPath) :
    (s.setRx r).txEn = s.txEn := rfl
@[simp] theorem State.emitStatus_txEn (s : State) (r : Byte × Byte) :
    (s.emitStatus r).txEn = s.txEn := rfl
@[simp] theorem State.emitTxout_txEn (s : State) (r : List Sample) :
    (s.emitTxout r).txEn = s.txEn := rfl
@[simp] theorem State.emitBits_txEn (s : State) (r : List Bit) :
    (s.emitBits r).txEn = s.txEn := rfl
@[simp] theorem State.emitRxout_txEn (s : State) (r : FrameResult) :
    (s.emitRxout r).txEn = s.txEn := rfl
@[simp] theorem State.resetAll_txEn (s : State) :
    s.resetAll.txEn = false := by
  simp [State.txEn]
@[simp] theorem State.advance_rxEn (s : State) :
    s.advance.rxEn = s.rxEn := rfl
@[simp] theorem State.setTx_rxEn (s : State) (t : TxPath) :
    (s.setTx t).rxEn = s.rxEn := rfl
@[simp] theorem State.setRx_rxEn (s : State) (r : RxPath) :
    (s.setRx r).rxEn = s.rxEn := rfl
@[simp] theorem State.emitStatus_rxEn (s : State) (r : Byte × Byte) :
    (s.emitStatus r).rxEn = s.rxEn := rfl
@[simp] theorem State.emitTxout_rxEn (s : State) (r : List Sample) :
    (s.emitTxout r).rxEn = s.rxEn := rfl
@[simp] theorem State.emitBits_rxEn (s : State) (r : List Bit) :
    (s.emitBits r).rxEn = s.rxEn := rfl
@[simp] theorem State.emitRxout_rxEn (s : State) (r : FrameResult) :
    (s.emitRxout r).rxEn = s.rxEn := rfl
@[simp] theorem State.resetAll_rxEn (s : State) :
    s.resetAll.rxEn = false := by
  simp [State.rxEn]
@[simp] theorem State.advance_txTap (s : State) :
    s.advance.txTap = s.txTap := rfl
@[simp] theorem State.setTx_txTap (s : State) (t : TxPath) :
    (s.setTx t).txTap = s.txTap := rfl
@[simp] theorem State.setRx_txTap (s : State) (r : RxPath) :
    (s.setRx r).txTap = s.txTap := rfl
@[simp] theorem State.emitStatus_txTap (s : State) (r : Byte × Byte) :
    (s.emitStatus r).txTap = s.txTap := rfl
@[simp] theorem State.emitTxout_txTap (s : State) (r : List Sample) :
    (s.emitTxout r).txTap = s.txTap := rfl
@[simp] theorem State.emitBits_txTap (s : State) (r : List Bit) :
    (s.emitBits r).txTap = s.txTap := rfl
@[simp] theorem State.emitRxout_txTap (s : State) (r : FrameResult) :
    (s.emitRxout r).txTap = s.txTap := rfl
@[simp] theorem State.resetAll_txTap (s : State) :
    s.resetAll.txTap = false := by
  simp [State.txTap]
@[simp] theorem State.advance_rxSrc (s : State) :
    s.advance.rxSrc = s.rxSrc := rfl
@[simp] theorem State.setTx_rxSrc (s : State) (t : TxPath) :
    (s.setTx t).rxSrc = s.rxSrc := rfl
@[simp] theorem State.setRx_rxSrc (s : State) (r : RxPath) :
    (s.setRx r).rxSrc = s.rxSrc := rfl
@[simp] theorem State.emitStatus_rxSrc (s : State) (r : Byte × Byte) :
    (s.emitStatus r).rxSrc = s.rxSrc := rfl
@[simp] theorem State.emitTxout_rxSrc (s : State) (r : List Sample) :
    (s.emitTxout r).rxSrc = s.rxSrc := rfl
@[simp] theorem State.emitBits_rxSrc (s : State) (r : List Bit) :
    (s.emitBits r).rxSrc = s.rxSrc := rfl
@[simp] theorem State.emitRxout_rxSrc (s : State) (r : FrameResult) :
    (s.emitRxout r).rxSrc = s.rxSrc := rfl
@[simp] theorem State.resetAll_rxSrc (s : State) :
    s.resetAll.rxSrc = false := by
  simp [State.rxSrc]
@[simp] theorem State.startTx_txEn (s : State) (b : Bool) : (s.startTx b).txEn = true := by
  simp only [State.txEn, State.startTx_ctrl]
  rw [getLsbD_ctrlWith _ _ (by decide) (by decide), getLsbD_ctrlWith _ _ (by decide) (by decide)]
  simp
@[simp] theorem State.startTx_rxEn (s : State) (b : Bool) : (s.startTx b).rxEn = s.rxEn := by
  simp only [State.rxEn, State.startTx_ctrl]
  rw [getLsbD_ctrlWith _ _ (by decide) (by decide), getLsbD_ctrlWith _ _ (by decide) (by decide)]
  simp
@[simp] theorem State.startTx_txTap (s : State) (b : Bool) : (s.startTx b).txTap = b := by
  simp only [State.txTap, State.startTx_ctrl]
  rw [getLsbD_ctrlWith _ _ (by decide) (by decide), getLsbD_ctrlWith _ _ (by decide) (by decide)]
  simp
@[simp] theorem State.startTx_rxSrc (s : State) (b : Bool) : (s.startTx b).rxSrc = s.rxSrc := by
  simp only [State.rxSrc, State.startTx_ctrl]
  rw [getLsbD_ctrlWith _ _ (by decide) (by decide), getLsbD_ctrlWith _ _ (by decide) (by decide)]
  simp
@[simp] theorem State.startRx_txEn (s : State) (b : Bool) : (s.startRx b).txEn = s.txEn := by
  simp only [State.txEn, State.startRx_ctrl]
  rw [getLsbD_ctrlWith _ _ (by decide) (by decide), getLsbD_ctrlWith _ _ (by decide) (by decide)]
  simp
@[simp] theorem State.startRx_rxEn (s : State) (b : Bool) : (s.startRx b).rxEn = true := by
  simp only [State.rxEn, State.startRx_ctrl]
  rw [getLsbD_ctrlWith _ _ (by decide) (by decide), getLsbD_ctrlWith _ _ (by decide) (by decide)]
  simp
@[simp] theorem State.startRx_txTap (s : State) (b : Bool) : (s.startRx b).txTap = s.txTap := by
  simp only [State.txTap, State.startRx_ctrl]
  rw [getLsbD_ctrlWith _ _ (by decide) (by decide), getLsbD_ctrlWith _ _ (by decide) (by decide)]
  simp
@[simp] theorem State.startRx_rxSrc (s : State) (b : Bool) : (s.startRx b).rxSrc = b := by
  simp only [State.rxSrc, State.startRx_ctrl]
  rw [getLsbD_ctrlWith _ _ (by decide) (by decide), getLsbD_ctrlWith _ _ (by decide) (by decide)]
  simp
/-- `TXSTOP` and `txEn` of `CTRL`. -/
@[simp] theorem State.txstop_txEn (s : State) : (s.setCtrl (ctrlWith s.ctrl 0 false)).txEn = false := by
  simp only [State.txEn, State.setCtrl_ctrl]
  rw [getLsbD_ctrlWith _ _ (by decide) (by decide)]
  simp
/-- `TXSTOP` and `rxEn` of `CTRL`. -/
@[simp] theorem State.txstop_rxEn (s : State) : (s.setCtrl (ctrlWith s.ctrl 0 false)).rxEn = s.rxEn := by
  simp only [State.rxEn, State.setCtrl_ctrl]
  rw [getLsbD_ctrlWith _ _ (by decide) (by decide)]
  simp
/-- `TXSTOP` and `txTap` of `CTRL`. -/
@[simp] theorem State.txstop_txTap (s : State) : (s.setCtrl (ctrlWith s.ctrl 0 false)).txTap = s.txTap := by
  simp only [State.txTap, State.setCtrl_ctrl]
  rw [getLsbD_ctrlWith _ _ (by decide) (by decide)]
  simp
/-- `TXSTOP` and `rxSrc` of `CTRL`. -/
@[simp] theorem State.txstop_rxSrc (s : State) : (s.setCtrl (ctrlWith s.ctrl 0 false)).rxSrc = s.rxSrc := by
  simp only [State.rxSrc, State.setCtrl_ctrl]
  rw [getLsbD_ctrlWith _ _ (by decide) (by decide)]
  simp
/-- `RXSTOP` and `txEn` of `CTRL`. -/
@[simp] theorem State.rxstop_txEn (s : State) : (s.setCtrl (ctrlWith s.ctrl 1 false)).txEn = s.txEn := by
  simp only [State.txEn, State.setCtrl_ctrl]
  rw [getLsbD_ctrlWith _ _ (by decide) (by decide)]
  simp
/-- `RXSTOP` and `rxEn` of `CTRL`. -/
@[simp] theorem State.rxstop_rxEn (s : State) : (s.setCtrl (ctrlWith s.ctrl 1 false)).rxEn = false := by
  simp only [State.rxEn, State.setCtrl_ctrl]
  rw [getLsbD_ctrlWith _ _ (by decide) (by decide)]
  simp
/-- `RXSTOP` and `txTap` of `CTRL`. -/
@[simp] theorem State.rxstop_txTap (s : State) : (s.setCtrl (ctrlWith s.ctrl 1 false)).txTap = s.txTap := by
  simp only [State.txTap, State.setCtrl_ctrl]
  rw [getLsbD_ctrlWith _ _ (by decide) (by decide)]
  simp
/-- `RXSTOP` and `rxSrc` of `CTRL`. -/
@[simp] theorem State.rxstop_rxSrc (s : State) : (s.setCtrl (ctrlWith s.ctrl 1 false)).rxSrc = s.rxSrc := by
  simp only [State.rxSrc, State.setCtrl_ctrl]
  rw [getLsbD_ctrlWith _ _ (by decide) (by decide)]
  simp

@[simp] theorem RxPath.raiseCorrupt_rsdBad (r : RxPath) : r.raiseCorrupt.rsdBad = true := rfl

/-- `raise CORRUPT` sets `RSD_BAD` and changes nothing else (R281). -/
theorem RxPath.raiseCorrupt_eq (r : RxPath) : r.raiseCorrupt = { r with rsdBad := true } := rfl

end Sys2Proof.Machine
end

