-- ==== Sys2Proof/Laws/Codes.lean ====
section
/-! SUPPORT. The lengths and the basic equations of the bit, code, scrambler, filter and Reed-Solomon
functions. -/

namespace Sys2Proof.Machine

/-! ## Bits and bytes -/

@[simp] theorem length_bitsOfByte (b : Byte) : (bitsOfByte b).length = 8 := by simp [bitsOfByte]

@[simp] theorem length_bitsMsbFirst {n : Nat} (v : BitVec n) : (bitsMsbFirst v).length = n := by
  simp [bitsMsbFirst]

@[simp] theorem length_syncBits (c : Cfg) : (syncBits c).length = 32 := by simp [syncBits]

/-- Packing the bits of a byte gives the byte: R70 and R71 are inverse. -/
theorem byteOfBits_bitsOfByte (b : Byte) : byteOfBits (bitsOfByte b) = b := by
  revert b
  decide +kernel

/-- Every eight bits make a byte, and fewer than eight remain. -/
theorem packBytes_lengths (l : List Bit) :
    (packBytes l).1.length = l.length / 8 ∧ (packBytes l).2.length = l.length % 8 := by
  induction l using packBytes.induct with
  | case1 b7 b6 b5 b4 b3 b2 b1 b0 rest ih =>
    simp only [packBytes, List.length_cons, ih.1, ih.2]
    omega
  | case2 short h =>
    have hlen : short.length < 8 := by
      by_contra hge
      match short, h with
      | b7 :: b6 :: b5 :: b4 :: b3 :: b2 :: b1 :: b0 :: rest, h => exact h _ _ _ _ _ _ _ _ _ rfl
      | [], _ | [_], _ | [_, _], _ | [_, _, _], _ | [_, _, _, _], _ | [_, _, _, _, _], _
      | [_, _, _, _, _, _], _ | [_, _, _, _, _, _, _], _ => simp at hge
    unfold packBytes
    split
    · rename_i heq
      exact absurd rfl (h _ _ _ _ _ _ _ _ _)
    · simp only [List.length_nil]
      omega

@[simp] theorem length_packBytes_fst (l : List Bit) : (packBytes l).1.length = l.length / 8 :=
  (packBytes_lengths l).1

@[simp] theorem length_packBytes_snd (l : List Bit) : (packBytes l).2.length = l.length % 8 :=
  (packBytes_lengths l).2

/-! ## Convolutional code -/

@[simp] theorem convBits_nil (c : Cfg) (sr : BitVec 6) : convBits c sr [] = ([], sr) := rfl

@[simp] theorem convBits_cons (c : Cfg) (sr : BitVec 6) (b : Bit) (bs : List Bit) :
    convBits c sr (b :: bs) =
      (convOut1 c (convWindow sr b) :: convOut2 c (convWindow sr b) ::
          (convBits c (convNext (convWindow sr b)) bs).1,
        (convBits c (convNext (convWindow sr b)) bs).2) := rfl

/-- Two coded bits for each input bit (R150). -/
@[simp] theorem length_convBits (c : Cfg) (sr : BitVec 6) (bs : List Bit) :
    (convBits c sr bs).1.length = 2 * bs.length := by
  induction bs generalizing sr with
  | nil => rfl
  | cons b bs ih => simp [ih]; omega

/-- Coding a concatenation: the register carries across. -/
theorem convBits_append (c : Cfg) (sr : BitVec 6) (as bs : List Bit) :
    convBits c sr (as ++ bs) =
      ((convBits c sr as).1 ++ (convBits c (convBits c sr as).2 bs).1,
        (convBits c (convBits c sr as).2 bs).2) := by
  induction as generalizing sr with
  | nil => rfl
  | cons a as ih => simp [ih]

/-! ## Scrambler -/

@[simp] theorem scrIterate_zero (c : Cfg) (s : BitVec 32) : scrIterate c 0 s = s := rfl

@[simp] theorem scrIterate_succ (c : Cfg) (n : Nat) (s : BitVec 32) :
    scrIterate c (n + 1) s = scrIterate c n (scrNext c s) := rfl

theorem scrIterate_add (c : Cfg) (m n : Nat) (s : BitVec 32) :
    scrIterate c (m + n) s = scrIterate c n (scrIterate c m s) := by
  induction m generalizing s with
  | zero => simp
  | succ m ih => rw [Nat.succ_add, scrIterate_succ, ih, scrIterate_succ]

/-- One more step at the end. -/
theorem scrIterate_succ_last (c : Cfg) (n : Nat) (s : BitVec 32) :
    scrIterate c (n + 1) s = scrNext c (scrIterate c n s) := by
  rw [scrIterate_add c n 1 s]
  rfl

@[simp] theorem length_scramble (c : Cfg) (s : BitVec 32) (bs : List Bit) :
    (scramble c s bs).1.length = bs.length := by
  induction bs generalizing s with
  | nil => rfl
  | cons b bs ih => simp [scramble, ih]

/-- Scrambling `n` bits steps the register `n` times. -/
theorem scramble_register (c : Cfg) (s : BitVec 32) (bs : List Bit) :
    (scramble c s bs).2 = scrIterate c bs.length s := by
  induction bs generalizing s with
  | nil => rfl
  | cons b bs ih => simp [scramble, ih]

/-- Bit `i` of the scrambled bits is bit `i` XOR output `i` of the register (R163). -/
theorem scramble_getD (c : Cfg) (s : BitVec 32) (bs : List Bit) (i : Nat) (h : i < bs.length) :
    (scramble c s bs).1.getD i false = (bs.getD i false ^^ scrOut (scrIterate c i s)) := by
  induction bs generalizing s i with
  | nil => simp at h
  | cons b bs ih =>
    cases i with
    | zero => simp [scramble]
    | succ i =>
      have := ih (scrNext c s) i (by simpa using h)
      simp only [scramble, List.getD_cons_succ, scrIterate_succ]
      exact this

/-! ## Filters -/

@[simp] theorem length_interpolateAll (c : Cfg) (hist : List Soft) (a0 : Soft) :
    (interpolateAll c hist a0).length = c.rrcSps := by
  simp [interpolateAll]

/-- `RI_HIST` keeps its length. -/
theorem length_riHistNext {c : Cfg} {hist : List Soft} (a0 : Soft) (h : hist.length = c.rrcH) :
    (riHistNext c hist a0).length = c.rrcH := by
  simp [riHistNext, h]

/-- `RD_HIST` keeps its length. -/
theorem length_rdHistNext {c : Cfg} {hist : List Soft} (z : List Sample)
    (h : hist.length = c.rrcNt - 1) : (rdHistNext c hist z).length = c.rrcNt - 1 := by
  simp [rdHistNext, h]

/-! ## Reed-Solomon -/

theorem length_generatorTimes (g : List Byte) (r : Byte) :
    (generatorTimes g r).length = g.length + 1 := by
  simp [generatorTimes]

/-- The generator has degree 32 (R141). -/
theorem length_rsGenerator (c : Cfg) : (rsGenerator c).length = 33 := by
  have h : ∀ (n : Nat) (g : List Byte),
      ((List.range n).foldl (fun g (i : Nat) => generatorTimes g (bexp c ((c.rsFcr + i : Nat) : Int))) g).length =
        g.length + n := by
    intro n
    induction n with
    | zero => intro g; rfl
    | succ n ih =>
      intro g
      rw [List.range_succ, List.foldl_append]
      simp only [List.foldl_cons, List.foldl_nil, length_generatorTimes, ih]
      omega
  have := h 32 [1#8]
  simpa [rsGenerator] using this

theorem length_rsParityStep {gRev par : List Byte} (d : Byte) (hg : gRev.length = 32)
    (hp : par.length = 32) : (rsParityStep gRev par d).length = 32 := by
  simp only [rsParityStep]
  split <;> simp [hg, hp]

/-- There are 32 parity bytes (R142). -/
@[simp] theorem length_rsParity (c : Cfg) (d : List Byte) : (rsParity c d).length = 32 := by
  have hg : ((rsGenerator c).take 32).reverse.length = 32 := by simp [length_rsGenerator]
  have h : ∀ (d par : List Byte), par.length = 32 →
      (d.foldl (rsParityStep ((rsGenerator c).take 32).reverse) par).length = 32 := by
    intro d
    induction d with
    | nil => intro par hp; exact hp
    | cons x d ih => intro par hp; exact ih _ (length_rsParityStep x hg hp)
  exact h d _ (by simp)

@[simp] theorem length_syndromes (c : Cfg) (r : List Byte) : (syndromes c r).length = 32 := by
  simp [syndromes]

/-- A correction keeps the length of the word. -/
theorem length_forneyAll {c : Cfg} {lam omg : List Byte} {deg : Nat} {ps : List Nat}
    {word out : List Byte} (h : forneyAll c lam omg deg ps word = some out) :
    out.length = word.length := by
  induction ps generalizing word with
  | nil => simp_all [forneyAll]
  | cons p ps ih =>
    simp only [forneyAll] at h
    split at h
    · cases h
    · rename_i word' hw
      rw [ih h]
      unfold forneyCorrect at hw
      simp only at hw
      split at hw
      · cases hw
      · cases hw
        simp

/-- What `rsCorrect` can answer: a codeword that the corrections of the found positions make of the
received word, at most 16 of them (R225 to R228). -/
theorem rsCorrect_some {c : Cfg} {r word : List Byte} (h : rsCorrect c r = some word) :
    isCodeword c word = true ∧
      ∃ locs : List Nat, locs.length ≤ 16 ∧
        ∃ lam omg deg, forneyAll c lam omg deg locs r = some word := by
  unfold rsCorrect at h
  simp only at h
  split at h
  · cases h
  · rename_i hlen
    split at h
    · cases h
    · rename_i hlocs
      split at h
      · cases h
      · rename_i w hw
        split at h
        · rename_i hc
          cases h
          exact ⟨hc, _, by omega, _, _, _, hw⟩
        · cases h

/-- All that `rsDecode` can answer (R230). -/
theorem rsDecode_cases (c : Cfg) (r : List Byte) :
    (isCodeword c r = true ∧ rsDecode c r = (.ok, r.take 223)) ∨
    (∃ word, rsCorrect c r = some word ∧ rsDecode c r = (.ok, word.take 223)) ∨
    (rsCorrect c r = none ∧ isCodeword c r = false ∧ rsDecode c r = (.uncorrectable, r.take 223)) := by
  unfold rsDecode
  by_cases hc : isCodeword c r = true
  · exact .inl ⟨hc, by simp [hc]⟩
  · simp only [hc]
    cases hr : rsCorrect c r with
    | none => exact .inr (.inr ⟨rfl, by simp, by simp⟩)
    | some word => exact .inr (.inl ⟨word, rfl, by simp⟩)

/-- A whole block gives 223 data bytes, whatever its status. -/
theorem length_rsDecode {c : Cfg} {r : List Byte} (h : r.length = 255) :
    (rsDecode c r).2.length = 223 := by
  rcases rsDecode_cases c r with ⟨-, e⟩ | ⟨word, hw, e⟩ | ⟨-, -, e⟩
  · simp [e, h]
  · obtain ⟨-, locs, -, lam, omg, deg, hf⟩ := rsCorrect_some hw
    simp [e, length_forneyAll hf, h]
  · simp [e, h]

/-! ## Counters -/

/-- A position counter stays inside its frame (R24, R130). -/
theorem countTo_lt {n len : Nat} (h : n < len) : countTo n len < len := by
  unfold countTo
  split <;> omega

/-- Counting modulo the frame's length. -/
theorem countTo_mod {n len : Nat} (h : n < len) : countTo n len = (n + 1) % len := by
  unfold countTo
  split
  · rename_i e
    simp [e]
  · exact (Nat.mod_eq_of_lt (by omega)).symm

/-! ## Correlator -/

/-- Element `j` of the slid window. -/
theorem windowPush_get (win : Vector Soft 32) (x : Soft) (j : Nat) (hj : j < 32) :
    (windowPush win x)[j] = if h : j + 1 < 32 then win[j + 1] else x := by
  simp [windowPush]

@[simp] theorem zeroWindow_get (j : Nat) (hj : j < 32) : zeroWindow[j] = 0 := by
  simp [zeroWindow]

end Sys2Proof.Machine
end

