-- ==== Sys2Proof/Laws/Config.lean ====
section
/-! SUPPORT. What R296 gives for every valid configuration, one lemma for each condition. -/

namespace Sys2Proof

/-- A configuration is valid group by group. -/
theorem Cfg.valid_iff (c : Cfg) : c.valid = true ↔
    c.rsOk = true ∧ c.gfOk = true ∧ c.fcrOk = true ∧ c.gapOk = true ∧ c.nbOk = true ∧
      c.convKOk = true ∧ c.convMasksOk = true ∧ c.scrLenOk = true ∧ c.scrTapsOk = true ∧
      c.scrSeedOk = true ∧ c.rrcSpsOk = true ∧ c.rrcLengthOk = true ∧ c.rrcSymmetric = true ∧
      c.rrcUnitEnergy = true ∧ c.rrcPhaseOk = true ∧ c.thresholdOk = true ∧ c.tracebackOk = true ∧
      c.queuesOk = true := by
  simp only [Cfg.valid, Bool.and_eq_true, and_assoc]

namespace Config

variable (c : Config)

theorem rsFcr_le : c.rsFcr ≤ 254 := by
  have h := (c.toCfg.valid_iff.1 c.ok).2.2.1
  simpa [Cfg.fcrOk] using h

theorem rsGap_bounds : 1 ≤ c.rsGap ∧ c.rsGap ≤ 254 ∧ Nat.gcd c.rsGap 255 = 1 := by
  have h := (c.toCfg.valid_iff.1 c.ok).2.2.2.1
  simpa [Cfg.gapOk, and_assoc] using h

theorem nb_pos : 1 ≤ c.nb := by
  have h := (c.toCfg.valid_iff.1 c.ok).2.2.2.2.1
  simpa [Cfg.nbOk] using h

theorem conv_bits : c.convG1.getLsbD 0 = true ∧ c.convG1.getLsbD 6 = true ∧ c.convG2.getLsbD 0 = true ∧
    c.convG2.getLsbD 6 = true ∧ c.convG1 ≠ c.convG2 := by
  have h := (c.toCfg.valid_iff.1 c.ok).2.2.2.2.2.2.1
  simpa [Cfg.convMasksOk, and_assoc] using h

theorem scrLen_bounds : 2 ≤ c.scrLen ∧ c.scrLen ≤ 32 := by
  have h := (c.toCfg.valid_iff.1 c.ok).2.2.2.2.2.2.2.1
  simpa [Cfg.scrLenOk] using h

theorem scrTaps_fit : c.scrTaps.toNat < 2 ^ c.scrLen ∧ c.scrTaps.getLsbD 0 = true := by
  have h := (c.toCfg.valid_iff.1 c.ok).2.2.2.2.2.2.2.2.1
  simpa [Cfg.scrTapsOk] using h

theorem scrSeed_fits : c.scrSeed.toNat < 2 ^ c.scrLen ∧ c.scrSeed ≠ 0#32 := by
  have h := (c.toCfg.valid_iff.1 c.ok).2.2.2.2.2.2.2.2.2.1
  simpa [Cfg.scrSeedOk] using h

theorem rrcSps_pos : 1 ≤ c.rrcSps := by
  have h := (c.toCfg.valid_iff.1 c.ok).2.2.2.2.2.2.2.2.2.2.1
  simpa [Cfg.rrcSpsOk] using h

theorem rrcTaps_length : c.rrcNt % 2 = 1 ∧ c.rrcTaps.length = c.rrcNt := by
  have h := (c.toCfg.valid_iff.1 c.ok).2.2.2.2.2.2.2.2.2.2.2.1
  simpa [Cfg.rrcLengthOk] using h

theorem rrcPhase_eq : c.rrcPhase = (c.rrcNt - 1) % c.rrcSps := by
  have h := (c.toCfg.valid_iff.1 c.ok).2.2.2.2.2.2.2.2.2.2.2.2.2.2.1
  simpa [Cfg.rrcPhaseOk] using h

theorem dfThreshold_pos : 0 < c.dfThreshold := by
  have h := (c.toCfg.valid_iff.1 c.ok).2.2.2.2.2.2.2.2.2.2.2.2.2.2.2.1
  simpa [Cfg.thresholdOk] using h

theorem vitTb_window {d : Nat} (hd : c.vitTb = .window d) : 35 ≤ d := by
  have h := (c.toCfg.valid_iff.1 c.ok).2.2.2.2.2.2.2.2.2.2.2.2.2.2.2.2.1
  simpa [Cfg.tracebackOk, hd] using h

/-- The tap `h[i]` beyond the table is 0 (R173). -/
theorem tap_of_ge {i : Nat} (h : c.rrcNt ≤ i) : c.tap i = 0 := by
  have hl := c.rrcTaps_length.2
  simp [Cfg.tap, List.getD_eq_getElem?_getD, List.getElem?_eq_none (by omega : c.rrcTaps.length ≤ i)]

end Config

/-! ## Sizes (R6) -/

theorem Cfg.frameDecBits_eq (c : Cfg) : c.frameDecBits = 8 * c.frameRsBytes := by
  simp only [Cfg.frameDecBits, Cfg.frameRsBytes]
  omega

theorem Cfg.frameCodedBits_eq (c : Cfg) : c.frameCodedBits = 2 * c.frameDecBits := by
  simp only [Cfg.frameCodedBits, Cfg.frameDecBits]
  omega

theorem Cfg.frameCvBytes_eq (c : Cfg) : c.frameCvBytes = 2 * c.frameRsBytes := by
  simp only [Cfg.frameCvBytes, Cfg.frameRsBytes]
  omega

theorem Config.frameRsBytes_pos (c : Config) : 255 ≤ c.frameRsBytes := by
  have := c.nb_pos
  simp only [Cfg.frameRsBytes]
  omega

end Sys2Proof
end

