-- ==== Sys2Proof/Laws/Exec.lean ====
section
/-! SUPPORT. What `exec` answers for each operation, when each is enabled, and how a run of steps goes. -/

namespace Sys2Proof.Machine

/-! ## When an operation is enabled -/

/-- Room in a stream, as the statements write it. -/
theorem room_iff_roomFor {α : Type} (cap : Option Nat) (q : List α) (n : Nat) :
    room cap q n = true ↔ RoomFor cap q.length n := by
  rw [room_iff]
  rfl

theorem RoomFor.mono {cap : Option Nat} {len n len' n' : Nat} (h : RoomFor cap len n)
    (hle : len' + n' ≤ len + n) : RoomFor cap len' n' :=
  fun d hd => le_trans hle (h d hd)

theorem RoomFor.of_none {cap : Option Nat} (len n : Nat) (h : cap = none) : RoomFor cap len n := by
  intro d hd
  rw [h] at hd
  cases hd

theorem State.rsencEnabled_iff (s : State) : s.rsencEnabled = true ↔
    s.txEn = true ∧ 223 ≤ s.tx.qTxin.length ∧ RoomFor s.cfg.qdepth.rsc s.tx.qRsc.length 255 := by
  simp only [State.rsencEnabled, Bool.and_eq_true, has_iff, room_iff_roomFor, and_assoc]

theorem State.cvencEnabled_iff (s : State) : s.cvencEnabled = true ↔
    s.txEn = true ∧ 1 ≤ s.tx.qRsc.length ∧ RoomFor s.cfg.qdepth.cvc s.tx.qCvc.length 2 := by
  simp only [State.cvencEnabled, Bool.and_eq_true, has_iff, room_iff_roomFor, and_assoc]

theorem State.frmrEnabled_iff (s : State) : s.frmrEnabled = true ↔
    s.txEn = true ∧ 1 ≤ s.tx.qCvc.length ∧ RoomFor s.cfg.qdepth.bits s.tx.qBits.length 40 := by
  simp only [State.frmrEnabled, Bool.and_eq_true, has_iff, room_iff_roomFor, and_assoc]

theorem State.rrciEnabled_iff (s : State) : s.rrciEnabled = true ↔
    s.txEn = true ∧ s.txTap = false ∧ 1 ≤ s.tx.qBits.length ∧
      RoomFor s.cfg.qdepth.txout s.tx.qTxout.length s.cfg.rrcSps := by
  simp only [State.rrciEnabled, Bool.and_eq_true, Bool.not_eq_true', has_iff, room_iff_roomFor,
    and_assoc]

theorem State.rrcdEnabled_iff (s : State) : s.rrcdEnabled = true ↔
    s.rxEn = true ∧ s.rxSrc = false ∧ s.cfg.rrcSps ≤ s.rx.qRxin.length ∧
      RoomFor s.cfg.qdepth.sym s.rx.qSym.length 1 := by
  simp only [State.rrcdEnabled, Bool.and_eq_true, Bool.not_eq_true', has_iff, room_iff_roomFor,
    and_assoc]

theorem State.defrEnabled_iff (s : State) : s.defrEnabled = true ↔
    s.rxEn = true ∧ 1 ≤ s.rx.qSym.length ∧ RoomFor s.cfg.qdepth.pay s.rx.qPay.length 1 := by
  simp only [State.defrEnabled, Bool.and_eq_true, has_iff, room_iff_roomFor, and_assoc]

/-- The room of `VITD` at a frame's last pair. -/
theorem vitdRoom_last {c : Cfg} {r : RxPath} (h : r.vtCnt = c.frameDecBits - 1) :
    vitdRoom c r = c.frameRsBytes := if_pos h

/-- The room of `VITD` before a frame's last pair. -/
theorem vitdRoom_inside {c : Cfg} {r : RxPath} (h : r.vtCnt ≠ c.frameDecBits - 1) :
    vitdRoom c r = if c.vitTb = .full then 0 else 1 := by
  unfold vitdRoom
  rw [if_neg h]
  cases c.vitTb <;> rfl

/-- `VITD` never waits for more room than a frame's bytes. -/
theorem vitdRoom_le (c : Config) (r : RxPath) : vitdRoom c.toCfg r ≤ c.frameRsBytes := by
  have hnb := c.nb_pos
  by_cases h : r.vtCnt = c.frameDecBits - 1
  · rw [vitdRoom_last h]
  · rw [vitdRoom_inside h, Cfg.frameRsBytes]
    split <;> omega

theorem State.vitdEnabled_iff (s : State) : s.vitdEnabled = true ↔
    s.rxEn = true ∧ 2 ≤ s.rx.qPay.length ∧
      RoomFor s.cfg.qdepth.dec s.rx.qDec.length (vitdRoom s.cfg.toCfg s.rx) := by
  simp only [State.vitdEnabled, Bool.and_eq_true, has_iff, room_iff_roomFor, and_assoc]

theorem State.rsdecEnabled_iff (s : State) : s.rsdecEnabled = true ↔
    s.rxEn = true ∧ 255 ≤ s.rx.qDec.length ∧
      (s.rx.rsdBlk + 1 = s.cfg.nb → RoomFor s.cfg.qdepth.rxout s.rx.qRxout.length 1) := by
  simp only [State.rsdecEnabled, Bool.and_eq_true, Bool.or_eq_true, has_iff, room_iff_roomFor,
    and_assoc, bne_iff_ne, ne_eq]
  tauto

theorem State.txputLengthOk_iff (s : State) :
    s.txputLengthOk = true ↔ s.slot.txin.length = 223 * s.cfg.nb := by
  simp [State.txputLengthOk, State.txinOperand, Cfg.framePayloadBytes]

theorem State.txputEnabled_iff (s : State) : s.txputEnabled = true ↔
    s.slot.txin.length = 223 * s.cfg.nb ∧
      RoomFor s.cfg.qdepth.txin s.tx.qTxin.length s.slot.txin.length := by
  simp only [State.txputEnabled, Bool.and_eq_true, State.txputLengthOk_iff, room_iff_roomFor,
    State.txinOperand]

theorem State.rxputEnabled_iff (s : State) : s.rxputEnabled = true ↔
    s.rxSrc = false ∧ RoomFor s.cfg.qdepth.rxin s.rx.qRxin.length s.slot.rxin.length := by
  simp only [State.rxputEnabled, Bool.and_eq_true, Bool.not_eq_true', room_iff_roomFor,
    State.rxinOperand]

theorem State.symputEnabled_iff (s : State) : s.symputEnabled = true ↔
    s.rxSrc = true ∧ RoomFor s.cfg.qdepth.sym s.rx.qSym.length s.slot.sym.length := by
  simp only [State.symputEnabled, Bool.and_eq_true, room_iff_roomFor, State.symOperand]

theorem State.rxgetEnabled_iff (s : State) : s.rxgetEnabled = true ↔ s.rx.qRxout ≠ [] := by
  cases h : s.rx.qRxout <;> simp [State.rxgetEnabled, has, h]

/-! ## What `exec` answers -/

@[simp] theorem exec_nop (s : State) : exec .nop s = s.complete true s := rfl
@[simp] theorem exec_rst (s : State) : exec .rst s = s.complete true s.resetAll := rfl
@[simp] theorem exec_txstart (s : State) : exec .txstart s = s.complete true (s.startTx false) := rfl
@[simp] theorem exec_txstartb (s : State) : exec .txstartb s = s.complete true (s.startTx true) := rfl
@[simp] theorem exec_txstop (s : State) : exec .txstop s = s.complete true (s.setCtrl (ctrlWith s.ctrl 0 false)) := rfl
@[simp] theorem exec_rxstart (s : State) : exec .rxstart s = s.complete true (s.startRx false) := rfl
@[simp] theorem exec_rxstarts (s : State) : exec .rxstarts s = s.complete true (s.startRx true) := rfl
@[simp] theorem exec_rxstop (s : State) : exec .rxstop s = s.complete true (s.setCtrl (ctrlWith s.ctrl 1 false)) := rfl
@[simp] theorem exec_rdstat (s : State) : exec .rdstat s = s.complete true (s.emitStatus (s.ctrlRead, s.statusByte)) := rfl
@[simp] theorem exec_rsenc (s : State) : exec .rsenc s = s.complete s.rsencEnabled (s.setTx (rsencFire s.cfg.toCfg s.tx)) := rfl
@[simp] theorem exec_cvenc (s : State) : exec .cvenc s = s.complete s.cvencEnabled (s.setTx (cvencFire s.cfg.toCfg s.tx)) := rfl
@[simp] theorem exec_frmr (s : State) : exec .frmr s = s.complete s.frmrEnabled (s.setTx (frmrFire s.cfg.toCfg s.tx)) := rfl
@[simp] theorem exec_rrci (s : State) : exec .rrci s = s.complete s.rrciEnabled (s.setTx (rrciFire s.cfg.toCfg s.tx)) := rfl
@[simp] theorem exec_rrcd (s : State) : exec .rrcd s = s.complete s.rrcdEnabled (s.setRx (rrcdFire s.cfg.toCfg s.rx)) := rfl
@[simp] theorem exec_defr (s : State) : exec .defr s = s.complete s.defrEnabled (s.setRx (defrFire s.cfg.toCfg s.rx)) := rfl
@[simp] theorem exec_vitd (s : State) : exec .vitd s = s.complete s.vitdEnabled (s.setRx (vitdFire s.cfg.toCfg s.rx)) := rfl
@[simp] theorem exec_rsdec (s : State) : exec .rsdec s = s.complete s.rsdecEnabled (s.setRx (rsdecFire s.cfg.toCfg s.rx)) := rfl
@[simp] theorem exec_txget (s : State) : exec .txget s = s.complete true ((s.setTx { s.tx with qTxout := [] }).emitTxout s.tx.qTxout) := rfl
@[simp] theorem exec_bitget (s : State) : exec .bitget s = s.complete s.bitgetEnabled ((s.setTx { s.tx with qBits := [] }).emitBits s.tx.qBits) := rfl
@[simp] theorem exec_rxput (s : State) : exec .rxput s = s.complete s.rxputEnabled (s.setRx { s.rx with qRxin := push s.rx.qRxin s.rxinOperand }) := rfl
@[simp] theorem exec_symput (s : State) : exec .symput s = s.complete s.symputEnabled (s.setRx { s.rx with qSym := push s.rx.qSym s.symOperand }) := rfl
@[simp] theorem exec_rxget (s : State) : exec .rxget s = s.complete s.rxgetEnabled s.returnFrame := rfl
/-- `TXPUT` of a whole frame. -/
theorem exec_txput_of_length {s : State} (h : s.slot.txin.length = 223 * s.cfg.nb) :
    exec .txput s = s.complete s.txputEnabled (s.setTx { s.tx with qTxin := push s.tx.qTxin s.slot.txin }) := by
  simp [exec, execTxput, (s.txputLengthOk_iff).2 h, State.txinOperand]

/-- `TXPUT` of anything else. -/
theorem exec_txput_of_ne {s : State} (h : s.slot.txin.length ≠ 223 * s.cfg.nb) :
    exec .txput s = .refused (.frameLength s.slot.txin.length) := by
  have : s.txputLengthOk = false := by
    rw [← Bool.not_eq_true, State.txputLengthOk_iff]
    exact h
  simp [exec, execTxput, this, State.txinOperand]

/-- What an operation does when it is carried out, the line not yet dropped. -/
def done (s : State) : Instr → State
  | .nop => s
  | .rst => s.resetAll
  | .txstart => s.startTx false
  | .txstartb => s.startTx true
  | .txstop => s.setCtrl (ctrlWith s.ctrl 0 false)
  | .rxstart => s.startRx false
  | .rxstarts => s.startRx true
  | .rxstop => s.setCtrl (ctrlWith s.ctrl 1 false)
  | .rdstat => s.emitStatus (s.ctrlRead, s.statusByte)
  | .rsenc => s.setTx (rsencFire s.cfg.toCfg s.tx)
  | .cvenc => s.setTx (cvencFire s.cfg.toCfg s.tx)
  | .frmr => s.setTx (frmrFire s.cfg.toCfg s.tx)
  | .rrci => s.setTx (rrciFire s.cfg.toCfg s.tx)
  | .rrcd => s.setRx (rrcdFire s.cfg.toCfg s.rx)
  | .defr => s.setRx (defrFire s.cfg.toCfg s.rx)
  | .vitd => s.setRx (vitdFire s.cfg.toCfg s.rx)
  | .rsdec => s.setRx (rsdecFire s.cfg.toCfg s.rx)
  | .txget => (s.setTx { s.tx with qTxout := [] }).emitTxout s.tx.qTxout
  | .bitget => (s.setTx { s.tx with qBits := [] }).emitBits s.tx.qBits
  | .rxput => s.setRx { s.rx with qRxin := push s.rx.qRxin s.rxinOperand }
  | .symput => s.setRx { s.rx with qSym := push s.rx.qSym s.symOperand }
  | .rxget => s.returnFrame
  | .txput => s.setTx { s.tx with qTxin := push s.tx.qTxin s.txinOperand }

/-- All that `exec` can answer with a next state: the operation was enabled and is carried out, or it was
not and the state is as it was. -/
theorem exec_cases {i : Instr} {s t : State} (h : exec i s = .next t) :
    (s.enabled i = true ∧ t = (done s i).advance) ∨ (s.enabled i = false ∧ t = s) := by
  cases i
  case txput =>
    by_cases hl : s.slot.txin.length = 223 * s.cfg.nb
    · rw [exec_txput_of_length hl] at h
      exact State.complete_cases h
    · rw [exec_txput_of_ne hl] at h
      cases h
  all_goals exact State.complete_cases h

/-- An enabled operation is carried out. -/
theorem exec_of_enabled {i : Instr} {s : State} (h : s.enabled i = true) :
    exec i s = .next (done s i).advance := by
  cases i
  case txput =>
    rw [exec_txput_of_length ((s.txputEnabled_iff).1 h).1]
    exact congrArg (fun b => s.complete b _) h
  all_goals exact congrArg (fun b => s.complete b _) h

/-- What `step` can answer with a next state. -/
theorem step_cases {s t : State} (h : step s = .next t) : ∃ i, decode s.presented = .op i ∧ exec i s = .next t := by
  unfold step at h
  split at h
  · rename_i i hd
    exact ⟨i, hd, h⟩
  · cases h

/-- A word of the map, in front of a line, is the operation. -/
theorem step_of_decode {s : State} {i : Instr} (h : decode s.presented = .op i) : step s = exec i s := by
  simp only [step, h]

/-- A word that is none of the map's is reserved. -/
theorem decode_of_not_wordDefined : ∀ w : Byte, wordDefined w = false → decode w = .reserved w := by
  decide +kernel

/-! ## Runs -/

@[simp] theorem stepRun_zero (s : State) : stepRun 0 s = .next s := rfl

/-- A run goes on from a step that answers a next state. -/
theorem stepRun_succ {n : Nat} {s t : State} (h : step s = .next t) :
    stepRun (n + 1) s = stepRun n t := by
  simp only [stepRun, h]

/-- Two runs, one after the other. -/
theorem stepRun_add {m n : Nat} {s t : State} (h : stepRun m s = .next t) :
    stepRun (m + n) s = stepRun n t := by
  induction m generalizing s with
  | zero =>
    cases h
    simp
  | succ m ih =>
    rw [Nat.succ_add]
    simp only [stepRun] at h ⊢
    split at h
    · rename_i s' hs
      exact ih h
    · cases h
    · cases h

/-- What every step keeps, every run keeps. -/
theorem stepRun_keeps {P : State → Prop} (hP : ∀ s t, P s → step s = .next t → P t) {n : Nat} {s t : State}
    (hs : P s) (h : stepRun n s = .next t) : P t := by
  induction n generalizing s with
  | zero =>
    cases h
    exact hs
  | succ n ih =>
    simp only [stepRun] at h
    split at h
    · rename_i s' hs'
      exact ih (hP s s' hs hs') h
    · cases h
    · cases h

@[simp] theorem repeatWord_zero (w : Byte) : repeatWord w 0 = [] := rfl

@[simp] theorem repeatWord_succ (w : Byte) (n : Nat) :
    repeatWord w (n + 1) = { word := w } :: repeatWord w n := rfl

end Sys2Proof.Machine
end

