-- ==== Sys2Proof/Laws/PerInstr.lean ====
section
/-! SUPPORT. The family WordFields: where each operation's word stands in the map of R100 and R102. -/

namespace Sys2Proof.Laws

/-- The word of `i` is one of the map's, its fields are those of its unit (control 0 with functions 0 to 8,
stages 1 to 8 with function 0 alone, host moves 0xF with functions 0 to 5: R100, R102, R104), and it decodes
to `i`. -/
def WordFields.Statement (i : Instr) : Prop :=
  i.wellFormed = true ∧ wordDefined (encode i) = true ∧ decode (encode i) = .op i ∧
    ((unitField (encode i) = 0 ∧ fnField (encode i) ≤ 8) ∨
      (1 ≤ unitField (encode i) ∧ unitField (encode i) ≤ 8 ∧ fnField (encode i) = 0) ∨
      (unitField (encode i) = 15 ∧ fnField (encode i) ≤ 5))

theorem WordFields.nop : WordFields.Statement .nop := by
  unfold WordFields.Statement
  decide

theorem WordFields.rst : WordFields.Statement .rst := by
  unfold WordFields.Statement
  decide

theorem WordFields.txstart : WordFields.Statement .txstart := by
  unfold WordFields.Statement
  decide

theorem WordFields.txstartb : WordFields.Statement .txstartb := by
  unfold WordFields.Statement
  decide

theorem WordFields.txstop : WordFields.Statement .txstop := by
  unfold WordFields.Statement
  decide

theorem WordFields.rxstart : WordFields.Statement .rxstart := by
  unfold WordFields.Statement
  decide

theorem WordFields.rxstarts : WordFields.Statement .rxstarts := by
  unfold WordFields.Statement
  decide

theorem WordFields.rxstop : WordFields.Statement .rxstop := by
  unfold WordFields.Statement
  decide

theorem WordFields.rdstat : WordFields.Statement .rdstat := by
  unfold WordFields.Statement
  decide

theorem WordFields.rsenc : WordFields.Statement .rsenc := by
  unfold WordFields.Statement
  decide

theorem WordFields.cvenc : WordFields.Statement .cvenc := by
  unfold WordFields.Statement
  decide

theorem WordFields.frmr : WordFields.Statement .frmr := by
  unfold WordFields.Statement
  decide

theorem WordFields.rrci : WordFields.Statement .rrci := by
  unfold WordFields.Statement
  decide

theorem WordFields.rrcd : WordFields.Statement .rrcd := by
  unfold WordFields.Statement
  decide

theorem WordFields.defr : WordFields.Statement .defr := by
  unfold WordFields.Statement
  decide

theorem WordFields.vitd : WordFields.Statement .vitd := by
  unfold WordFields.Statement
  decide

theorem WordFields.rsdec : WordFields.Statement .rsdec := by
  unfold WordFields.Statement
  decide

theorem WordFields.txput : WordFields.Statement .txput := by
  unfold WordFields.Statement
  decide

theorem WordFields.txget : WordFields.Statement .txget := by
  unfold WordFields.Statement
  decide

theorem WordFields.bitget : WordFields.Statement .bitget := by
  unfold WordFields.Statement
  decide

theorem WordFields.rxput : WordFields.Statement .rxput := by
  unfold WordFields.Statement
  decide

theorem WordFields.symput : WordFields.Statement .symput := by
  unfold WordFields.Statement
  decide

theorem WordFields.rxget : WordFields.Statement .rxget := by
  unfold WordFields.Statement
  decide

end Sys2Proof.Laws
end

