-- ==== Sys2Proof/Laws/Stages.lean ====
section
/-! SUPPORT. What one firing of each stage leaves unchanged (R23: a stage writes its own registers, the head
of its input and the tail of its output), and what `RXGET` does. -/

namespace Sys2Proof.Machine

@[simp] theorem rsencFire_qCvc (c : Cfg) (t : TxPath) : (rsencFire c t).qCvc = t.qCvc := rfl
@[simp] theorem rsencFire_qBits (c : Cfg) (t : TxPath) : (rsencFire c t).qBits = t.qBits := rfl
@[simp] theorem rsencFire_qTxout (c : Cfg) (t : TxPath) : (rsencFire c t).qTxout = t.qTxout := rfl
@[simp] theorem rsencFire_cvCnt (c : Cfg) (t : TxPath) : (rsencFire c t).cvCnt = t.cvCnt := rfl
@[simp] theorem rsencFire_cvSr (c : Cfg) (t : TxPath) : (rsencFire c t).cvSr = t.cvSr := rfl
@[simp] theorem rsencFire_frCnt (c : Cfg) (t : TxPath) : (rsencFire c t).frCnt = t.frCnt := rfl
@[simp] theorem rsencFire_frScr (c : Cfg) (t : TxPath) : (rsencFire c t).frScr = t.frScr := rfl
@[simp] theorem rsencFire_riHist (c : Cfg) (t : TxPath) : (rsencFire c t).riHist = t.riHist := rfl
@[simp] theorem cvencFire_qTxin (c : Cfg) (t : TxPath) : (cvencFire c t).qTxin = t.qTxin := rfl
@[simp] theorem cvencFire_qBits (c : Cfg) (t : TxPath) : (cvencFire c t).qBits = t.qBits := rfl
@[simp] theorem cvencFire_qTxout (c : Cfg) (t : TxPath) : (cvencFire c t).qTxout = t.qTxout := rfl
@[simp] theorem cvencFire_frCnt (c : Cfg) (t : TxPath) : (cvencFire c t).frCnt = t.frCnt := rfl
@[simp] theorem cvencFire_frScr (c : Cfg) (t : TxPath) : (cvencFire c t).frScr = t.frScr := rfl
@[simp] theorem cvencFire_riHist (c : Cfg) (t : TxPath) : (cvencFire c t).riHist = t.riHist := rfl
@[simp] theorem frmrFire_qTxin (c : Cfg) (t : TxPath) : (frmrFire c t).qTxin = t.qTxin := rfl
@[simp] theorem frmrFire_qRsc (c : Cfg) (t : TxPath) : (frmrFire c t).qRsc = t.qRsc := rfl
@[simp] theorem frmrFire_qTxout (c : Cfg) (t : TxPath) : (frmrFire c t).qTxout = t.qTxout := rfl
@[simp] theorem frmrFire_cvCnt (c : Cfg) (t : TxPath) : (frmrFire c t).cvCnt = t.cvCnt := rfl
@[simp] theorem frmrFire_cvSr (c : Cfg) (t : TxPath) : (frmrFire c t).cvSr = t.cvSr := rfl
@[simp] theorem frmrFire_riHist (c : Cfg) (t : TxPath) : (frmrFire c t).riHist = t.riHist := rfl
@[simp] theorem rrciFire_qTxin (c : Cfg) (t : TxPath) : (rrciFire c t).qTxin = t.qTxin := rfl
@[simp] theorem rrciFire_qRsc (c : Cfg) (t : TxPath) : (rrciFire c t).qRsc = t.qRsc := rfl
@[simp] theorem rrciFire_qCvc (c : Cfg) (t : TxPath) : (rrciFire c t).qCvc = t.qCvc := rfl
@[simp] theorem rrciFire_cvCnt (c : Cfg) (t : TxPath) : (rrciFire c t).cvCnt = t.cvCnt := rfl
@[simp] theorem rrciFire_cvSr (c : Cfg) (t : TxPath) : (rrciFire c t).cvSr = t.cvSr := rfl
@[simp] theorem rrciFire_frCnt (c : Cfg) (t : TxPath) : (rrciFire c t).frCnt = t.frCnt := rfl
@[simp] theorem rrciFire_frScr (c : Cfg) (t : TxPath) : (rrciFire c t).frScr = t.frScr := rfl
@[simp] theorem rrcdFire_qPay (c : Cfg) (r : RxPath) : (rrcdFire c r).qPay = r.qPay := rfl
@[simp] theorem rrcdFire_qDec (c : Cfg) (r : RxPath) : (rrcdFire c r).qDec = r.qDec := rfl
@[simp] theorem rrcdFire_qRxout (c : Cfg) (r : RxPath) : (rrcdFire c r).qRxout = r.qRxout := rfl
@[simp] theorem rrcdFire_dfState (c : Cfg) (r : RxPath) : (rrcdFire c r).dfState = r.dfState := rfl
@[simp] theorem rrcdFire_dfWin (c : Cfg) (r : RxPath) : (rrcdFire c r).dfWin = r.dfWin := rfl
@[simp] theorem rrcdFire_dfCnt (c : Cfg) (r : RxPath) : (rrcdFire c r).dfCnt = r.dfCnt := rfl
@[simp] theorem rrcdFire_dfInv (c : Cfg) (r : RxPath) : (rrcdFire c r).dfInv = r.dfInv := rfl
@[simp] theorem rrcdFire_dfScr (c : Cfg) (r : RxPath) : (rrcdFire c r).dfScr = r.dfScr := rfl
@[simp] theorem rrcdFire_vtCnt (c : Cfg) (r : RxPath) : (rrcdFire c r).vtCnt = r.vtCnt := rfl
@[simp] theorem rrcdFire_vtPm (c : Cfg) (r : RxPath) : (rrcdFire c r).vtPm = r.vtPm := rfl
@[simp] theorem rrcdFire_vtSurv (c : Cfg) (r : RxPath) : (rrcdFire c r).vtSurv = r.vtSurv := rfl
@[simp] theorem rrcdFire_vtAcc (c : Cfg) (r : RxPath) : (rrcdFire c r).vtAcc = r.vtAcc := rfl
@[simp] theorem rrcdFire_vtNout (c : Cfg) (r : RxPath) : (rrcdFire c r).vtNout = r.vtNout := rfl
@[simp] theorem rrcdFire_rsdBlk (c : Cfg) (r : RxPath) : (rrcdFire c r).rsdBlk = r.rsdBlk := rfl
@[simp] theorem rrcdFire_rsdBad (c : Cfg) (r : RxPath) : (rrcdFire c r).rsdBad = r.rsdBad := rfl
@[simp] theorem rrcdFire_rsdBuf (c : Cfg) (r : RxPath) : (rrcdFire c r).rsdBuf = r.rsdBuf := rfl

/-- `DEFR` writes `Q_SYM`, `Q_PAY` and its registers of R39 to R43, and nothing else. -/
theorem defrFire_frame (c : Cfg) (r : RxPath) :
    defrFire c r = { r with
      qSym := left r.qSym 1
      qPay := (defrFire c r).qPay
      dfState := (defrFire c r).dfState
      dfWin := (defrFire c r).dfWin
      dfCnt := (defrFire c r).dfCnt
      dfInv := (defrFire c r).dfInv
      dfScr := (defrFire c r).dfScr } := by
  unfold defrFire
  simp only
  split
  · unfold huntStep
    simp only
    split <;> rfl
  · rfl

/-- `VITD` writes `Q_PAY`, `Q_DEC` and its registers of R44 to R46, and nothing else. -/
theorem vitdFire_frame (c : Cfg) (r : RxPath) :
    vitdFire c r = { r with
      qPay := left r.qPay 2
      qDec := (vitdFire c r).qDec
      vtPm := (vitdFire c r).vtPm
      vtSurv := (vitdFire c r).vtSurv
      vtAcc := (vitdFire c r).vtAcc
      vtNout := (vitdFire c r).vtNout
      vtCnt := countTo r.vtCnt c.frameDecBits } := by
  unfold vitdFire vitStart
  split <;> rfl

theorem rsdAccept_rsdBlk (r : RxPath) (st : BlockStatus) (d : List Byte) :
    (rsdAccept r st d).rsdBlk = r.rsdBlk + 1 := by
  cases st <;> rfl

/-- A block decoded, as one record: `RSD_BAD` raised if it is uncorrectable, data and count kept. -/
theorem rsdAccept_eq (r : RxPath) (st : BlockStatus) (d : List Byte) :
    rsdAccept r st d = { r with
      rsdBad := r.rsdBad || decide (st = .uncorrectable)
      rsdBuf := r.rsdBuf ++ d
      rsdBlk := r.rsdBlk + 1 } := by
  cases st <;> simp [rsdAccept, RxPath.raiseCorrupt]

/-- `RSDEC` writes `Q_DEC`, `Q_RXOUT` and its registers of R47, and nothing else. -/
theorem rsdecFire_frame (c : Cfg) (r : RxPath) :
    rsdecFire c r = { r with
      qDec := left r.qDec 255
      qRxout := (rsdecFire c r).qRxout
      rsdBlk := (rsdecFire c r).rsdBlk
      rsdBad := (rsdecFire c r).rsdBad
      rsdBuf := (rsdecFire c r).rsdBuf } := by
  unfold rsdecFire
  simp only [rsdAccept_rsdBlk]
  split
  · rw [rsdAccept_eq]
    rfl
  · rw [rsdAccept_eq]

@[simp] theorem defrFire_qRxin (c : Cfg) (r : RxPath) : (defrFire c r).qRxin = r.qRxin := by rw [defrFire_frame]
@[simp] theorem defrFire_qDec (c : Cfg) (r : RxPath) : (defrFire c r).qDec = r.qDec := by rw [defrFire_frame]
@[simp] theorem defrFire_qRxout (c : Cfg) (r : RxPath) : (defrFire c r).qRxout = r.qRxout := by rw [defrFire_frame]
@[simp] theorem defrFire_rdHist (c : Cfg) (r : RxPath) : (defrFire c r).rdHist = r.rdHist := by rw [defrFire_frame]
@[simp] theorem defrFire_vtCnt (c : Cfg) (r : RxPath) : (defrFire c r).vtCnt = r.vtCnt := by rw [defrFire_frame]
@[simp] theorem defrFire_vtPm (c : Cfg) (r : RxPath) : (defrFire c r).vtPm = r.vtPm := by rw [defrFire_frame]
@[simp] theorem defrFire_vtSurv (c : Cfg) (r : RxPath) : (defrFire c r).vtSurv = r.vtSurv := by rw [defrFire_frame]
@[simp] theorem defrFire_vtAcc (c : Cfg) (r : RxPath) : (defrFire c r).vtAcc = r.vtAcc := by rw [defrFire_frame]
@[simp] theorem defrFire_vtNout (c : Cfg) (r : RxPath) : (defrFire c r).vtNout = r.vtNout := by rw [defrFire_frame]
@[simp] theorem defrFire_rsdBlk (c : Cfg) (r : RxPath) : (defrFire c r).rsdBlk = r.rsdBlk := by rw [defrFire_frame]
@[simp] theorem defrFire_rsdBad (c : Cfg) (r : RxPath) : (defrFire c r).rsdBad = r.rsdBad := by rw [defrFire_frame]
@[simp] theorem defrFire_rsdBuf (c : Cfg) (r : RxPath) : (defrFire c r).rsdBuf = r.rsdBuf := by rw [defrFire_frame]
@[simp] theorem vitdFire_qRxin (c : Cfg) (r : RxPath) : (vitdFire c r).qRxin = r.qRxin := by rw [vitdFire_frame]
@[simp] theorem vitdFire_qSym (c : Cfg) (r : RxPath) : (vitdFire c r).qSym = r.qSym := by rw [vitdFire_frame]
@[simp] theorem vitdFire_qRxout (c : Cfg) (r : RxPath) : (vitdFire c r).qRxout = r.qRxout := by rw [vitdFire_frame]
@[simp] theorem vitdFire_rdHist (c : Cfg) (r : RxPath) : (vitdFire c r).rdHist = r.rdHist := by rw [vitdFire_frame]
@[simp] theorem vitdFire_dfState (c : Cfg) (r : RxPath) : (vitdFire c r).dfState = r.dfState := by rw [vitdFire_frame]
@[simp] theorem vitdFire_dfWin (c : Cfg) (r : RxPath) : (vitdFire c r).dfWin = r.dfWin := by rw [vitdFire_frame]
@[simp] theorem vitdFire_dfCnt (c : Cfg) (r : RxPath) : (vitdFire c r).dfCnt = r.dfCnt := by rw [vitdFire_frame]
@[simp] theorem vitdFire_dfInv (c : Cfg) (r : RxPath) : (vitdFire c r).dfInv = r.dfInv := by rw [vitdFire_frame]
@[simp] theorem vitdFire_dfScr (c : Cfg) (r : RxPath) : (vitdFire c r).dfScr = r.dfScr := by rw [vitdFire_frame]
@[simp] theorem vitdFire_rsdBlk (c : Cfg) (r : RxPath) : (vitdFire c r).rsdBlk = r.rsdBlk := by rw [vitdFire_frame]
@[simp] theorem vitdFire_rsdBad (c : Cfg) (r : RxPath) : (vitdFire c r).rsdBad = r.rsdBad := by rw [vitdFire_frame]
@[simp] theorem vitdFire_rsdBuf (c : Cfg) (r : RxPath) : (vitdFire c r).rsdBuf = r.rsdBuf := by rw [vitdFire_frame]
@[simp] theorem rsdecFire_qRxin (c : Cfg) (r : RxPath) : (rsdecFire c r).qRxin = r.qRxin := by rw [rsdecFire_frame]
@[simp] theorem rsdecFire_qSym (c : Cfg) (r : RxPath) : (rsdecFire c r).qSym = r.qSym := by rw [rsdecFire_frame]
@[simp] theorem rsdecFire_qPay (c : Cfg) (r : RxPath) : (rsdecFire c r).qPay = r.qPay := by rw [rsdecFire_frame]
@[simp] theorem rsdecFire_rdHist (c : Cfg) (r : RxPath) : (rsdecFire c r).rdHist = r.rdHist := by rw [rsdecFire_frame]
@[simp] theorem rsdecFire_dfState (c : Cfg) (r : RxPath) : (rsdecFire c r).dfState = r.dfState := by rw [rsdecFire_frame]
@[simp] theorem rsdecFire_dfWin (c : Cfg) (r : RxPath) : (rsdecFire c r).dfWin = r.dfWin := by rw [rsdecFire_frame]
@[simp] theorem rsdecFire_dfCnt (c : Cfg) (r : RxPath) : (rsdecFire c r).dfCnt = r.dfCnt := by rw [rsdecFire_frame]
@[simp] theorem rsdecFire_dfInv (c : Cfg) (r : RxPath) : (rsdecFire c r).dfInv = r.dfInv := by rw [rsdecFire_frame]
@[simp] theorem rsdecFire_dfScr (c : Cfg) (r : RxPath) : (rsdecFire c r).dfScr = r.dfScr := by rw [rsdecFire_frame]
@[simp] theorem rsdecFire_vtCnt (c : Cfg) (r : RxPath) : (rsdecFire c r).vtCnt = r.vtCnt := by rw [rsdecFire_frame]
@[simp] theorem rsdecFire_vtPm (c : Cfg) (r : RxPath) : (rsdecFire c r).vtPm = r.vtPm := by rw [rsdecFire_frame]
@[simp] theorem rsdecFire_vtSurv (c : Cfg) (r : RxPath) : (rsdecFire c r).vtSurv = r.vtSurv := by rw [rsdecFire_frame]
@[simp] theorem rsdecFire_vtAcc (c : Cfg) (r : RxPath) : (rsdecFire c r).vtAcc = r.vtAcc := by rw [rsdecFire_frame]
@[simp] theorem rsdecFire_vtNout (c : Cfg) (r : RxPath) : (rsdecFire c r).vtNout = r.vtNout := by rw [rsdecFire_frame]
@[simp] theorem defrFire_qSym (c : Cfg) (r : RxPath) : (defrFire c r).qSym = left r.qSym 1 := by rw [defrFire_frame]
@[simp] theorem vitdFire_qPay (c : Cfg) (r : RxPath) : (vitdFire c r).qPay = left r.qPay 2 := by rw [vitdFire_frame]
@[simp] theorem vitdFire_vtCnt (c : Cfg) (r : RxPath) : (vitdFire c r).vtCnt = countTo r.vtCnt c.frameDecBits := by
  rw [vitdFire_frame]
@[simp] theorem rsdecFire_qDec (c : Cfg) (r : RxPath) : (rsdecFire c r).qDec = left r.qDec 255 := by
  rw [rsdecFire_frame]

/-! ## `RXGET` -/

/-- The oldest result handed over. -/
theorem State.returnFrame_cons {s : State} {r : FrameResult} {rest : List FrameResult}
    (h : s.rx.qRxout = r :: rest) :
    s.returnFrame = (s.setRx { s.rx with qRxout := rest }).emitRxout r := by
  simp [State.returnFrame, popped, left, h]

@[simp] theorem State.returnFrame_cfg (s : State) : s.returnFrame.cfg = s.cfg := by
  unfold State.returnFrame
  split <;> rfl
@[simp] theorem State.returnFrame_ctrl (s : State) : s.returnFrame.ctrl = s.ctrl := by
  unfold State.returnFrame
  split <;> rfl
@[simp] theorem State.returnFrame_tx (s : State) : s.returnFrame.tx = s.tx := by
  unfold State.returnFrame
  split <;> rfl
@[simp] theorem State.returnFrame_rx (s : State) :
    s.returnFrame.rx = { s.rx with qRxout := left s.rx.qRxout 1 } := by
  cases h : s.rx.qRxout with
  | nil =>
    have hs : s.returnFrame = s := by simp [State.returnFrame, popped, h]
    have hq : left ([] : List FrameResult) 1 = s.rx.qRxout := by rw [h]; rfl
    rw [hs, hq]
  | cons r rest => rw [State.returnFrame_cons h]; rfl

end Sys2Proof.Machine
end

