-- ==== Sys2Proof/Laws/Trellis.lean ====
section
/-! SUPPORT. The basic equations of the trellis functions and of one pair through the Viterbi decoder. -/

namespace Sys2Proof.Machine

@[simp] theorem startMetrics_get (n : Nat) (h : n < 64) :
    startMetrics[n] = if n = 0 then .fin 0 else .inf := by
  simp [startMetrics]

/-- The new metric of state `n`: that of the surviving branch (R203). -/
theorem acsMetrics_get (c : Cfg) (pm : Vector Metric 64) (r1 r2 : Soft) (n : Fin 64) :
    (acsMetrics c pm r1 r2)[n] =
      if acsDecision c pm r1 r2 n then acsMetric1 c pm r1 r2 n else acsMetric0 c pm r1 r2 n := by
  simp [acsMetrics]

/-- Bit `n` of the decision word (R46, R203). -/
theorem acsDecisions_get (c : Cfg) (pm : Vector Metric 64) (r1 r2 : Soft) (n : Fin 64) :
    (acsDecisions c pm r1 r2).getLsbD n.val = acsDecision c pm r1 r2 n := by
  simp [acsDecisions]

/-- One bit for each decision word. -/
@[simp] theorem length_traceback (ws : List (BitVec 64)) (s : BitVec 6) (acc : List Bit) :
    (traceback ws s acc).length = ws.length + acc.length := by
  induction ws generalizing s acc with
  | nil => simp [traceback]
  | cons w ws ih => simp [traceback, ih]; omega

/-- The accumulated bits of a traceback stand behind what it reads. -/
theorem traceback_acc (ws : List (BitVec 64)) (s : BitVec 6) (acc : List Bit) :
    traceback ws s acc = traceback ws s [] ++ acc := by
  induction ws generalizing s acc with
  | nil => simp [traceback]
  | cons w ws ih =>
    rw [traceback, ih, traceback, ih (survivorPred w s) [s.getLsbD 0]]
    simp

theorem length_vitDecide (pm : Vector Metric 64) (surv : List (BitVec 64)) (nout e : Nat) :
    (vitDecide pm surv nout e).length = min (e - nout) (surv.length - nout) := by
  simp [vitDecide]

/-- The lengths of what one pair packs, where the survivors reach the bits decided and `VT_ACC` holds
the bits short of a byte. -/
theorem vitPack_lengths {pm : Vector Metric 64} {surv : List (BitVec 64)} {acc : List Bit} {nout e : Nat}
    (hle : nout ≤ e) (he : e ≤ surv.length) (ha : acc.length = nout % 8) :
    (vitPack pm surv acc nout e).1.length = e / 8 - nout / 8 ∧
      (vitPack pm surv acc nout e).2.length = e % 8 := by
  unfold vitPack
  split
  · simp only [length_packBytes_fst, length_packBytes_snd, List.length_append, length_vitDecide, ha]
    omega
  · have : e = nout := by omega
    subst this
    simp [ha]

/-- A branch metric is never negative. -/
theorem branchMetric_nonneg (c : Cfg) (r1 r2 : Soft) (w : BitVec 7) : 0 ≤ branchMetric c r1 r2 w :=
  add_nonneg (mul_self_nonneg _) (mul_self_nonneg _)

end Sys2Proof.Machine
end

