-- ==== Sys2Proof/Tests/Slice0.lean ====
section
/-! SUPPORT. Tests: decoding, well-formedness, vectors of 95_test_vectors.md and worked examples of the
rules; then, for every statement with hypotheses, a state that meets them. -/

namespace Sys2Proof.Tests

open Sys2Proof.Machine

/-! The tests are checked one after another: each waits for the kernel, and a thread apiece is too many. -/
set_option Elab.async false

/-! ## Helpers -/

/-- The reset state with NB = 1, the configuration of the vectors. -/
def base : State := .resetWith .ref1

/-- `s` with the lines `xs` on its control port. -/
def present (s : State) (xs : List Slot) : State := { s with ports := { s.ports with ctl := xs } }

/-- The state after one step at the word `w`; `s` itself where the step is refused. -/
def after (s : State) (w : Byte) : State :=
  match step (present s [{ word := w }]) with
  | .next t => t
  | _ => s

/-- What a step at the line `x` refuses. -/
def refusal (s : State) (x : Slot) : Option Refusal :=
  match step (present s [x]) with
  | .refused r => some r
  | _ => none

/-- The block running, in the modes of the name. -/
def txOn : State := { base with ctrl := 0x01#8 }
def tapOn : State := { base with ctrl := 0x05#8 }
def rxOn : State := { base with ctrl := 0x02#8 }
def symOn : State := { base with ctrl := 0x0A#8 }

/-- A state with something in every corner a reset must clear. -/
def busy : State :=
  { base with
    ctrl := 0x0F#8
    tx := { base.tx with qRsc := [1#8], qBits := [true], cvCnt := 5, cvSr := 3#6, frCnt := 7, frScr := 9#32 }
    rx := { base.rx with qSym := [1], dfState := .lock, dfCnt := 8, dfInv := true, vtCnt := 4,
                         vtNout := 2, rsdBad := true, qRxout := [⟨.ok, []⟩] } }

/-! ## Decoding: the words of R102, unit and function nibble written out -/

theorem test_decode_nop : decode 0b00000000#8 = .op .nop := by decide
theorem test_decode_rst : decode 0b00000001#8 = .op .rst := by decide
theorem test_decode_txstart : decode 0b00000010#8 = .op .txstart := by decide
theorem test_decode_txstartb : decode 0b00000011#8 = .op .txstartb := by decide
theorem test_decode_txstop : decode 0b00000100#8 = .op .txstop := by decide
theorem test_decode_rxstart : decode 0b00000101#8 = .op .rxstart := by decide
theorem test_decode_rxstarts : decode 0b00000110#8 = .op .rxstarts := by decide
theorem test_decode_rxstop : decode 0b00000111#8 = .op .rxstop := by decide
theorem test_decode_rdstat : decode 0b00001000#8 = .op .rdstat := by decide
theorem test_decode_rsenc : decode 0b00010000#8 = .op .rsenc := by decide
theorem test_decode_cvenc : decode 0b00100000#8 = .op .cvenc := by decide
theorem test_decode_frmr : decode 0b00110000#8 = .op .frmr := by decide
theorem test_decode_rrci : decode 0b01000000#8 = .op .rrci := by decide
theorem test_decode_rrcd : decode 0b01010000#8 = .op .rrcd := by decide
theorem test_decode_defr : decode 0b01100000#8 = .op .defr := by decide
theorem test_decode_vitd : decode 0b01110000#8 = .op .vitd := by decide
theorem test_decode_rsdec : decode 0b10000000#8 = .op .rsdec := by decide
theorem test_decode_txput : decode 0b11110000#8 = .op .txput := by decide
theorem test_decode_txget : decode 0b11110001#8 = .op .txget := by decide
theorem test_decode_bitget : decode 0b11110010#8 = .op .bitget := by decide
theorem test_decode_rxput : decode 0b11110011#8 = .op .rxput := by decide
theorem test_decode_symput : decode 0b11110100#8 = .op .symput := by decide
theorem test_decode_rxget : decode 0b11110101#8 = .op .rxget := by decide

/-- V-CT13. -/
theorem test_reserved_words_refused :
    [0x09#8, 0x11#8, 0xFF#8, 0xF6#8].map (fun w => refusal base { word := w }) =
      [some (.reservedWord 0x09#8), some (.reservedWord 0x11#8), some (.reservedWord 0xFF#8),
        some (.reservedWord 0xF6#8)] := by decide

/-- A lone word of the table runs as the first operation after reset, with a zero frame for `TXPUT`. -/
theorem test_fetch_word :
    decodeTableWord 8 0x10 = some .rsenc ∧ decodeTableWord 8 0x09 = none ∧
    (State.reset.withFetchWord 8 0x10).presented = 0x10#8 ∧
    (State.reset.withFetchWord 8 0xF0).txputLengthOk = true := by decide +kernel

/-! ## Well-formedness: each check refuses an ill-formed term -/

theorem test_wellFormed_accepts :
    ({ word := 0x20#8 } : Slot).wellFormed Config.ref1.toCfg = true ∧
    ({ word := 0xF0#8, txin := List.replicate 223 0#8 } : Slot).wellFormed Config.ref1.toCfg = true := by
  decide +kernel
theorem test_wordDefined_refuses : ({ word := 0x21#8 } : Slot).wellFormed Config.ref1.toCfg = false := by
  decide
/-- V-CT14: 222 bytes. -/
theorem test_frameOperandOk_refuses :
    frameOperandOk Config.ref1.toCfg { word := 0xF0#8, txin := List.replicate 222 0#8 } = false ∧
    ({ word := 0xF0#8, txin := List.replicate 222 0#8 } : Slot).wellFormed Config.ref1.toCfg = false := by
  decide +kernel
theorem test_noStrayOperand_refuses :
    ({ word := 0x00#8, txin := [0#8] } : Slot).wellFormed Config.ref1.toCfg = false ∧
    ({ word := 0xF4#8, rxin := [⟨1, 0⟩] } : Slot).wellFormed Config.ref1.toCfg = false ∧
    ({ word := 0xF3#8, sym := [1] } : Slot).wellFormed Config.ref1.toCfg = false := by decide

/-- R296: a `CFG` with one condition broken has no instance; the valid one has. -/
theorem test_cfg_valid_has_instance : (Config.ofCfg (Cfg.refWith 2)).isSome = true := by decide +kernel
theorem test_cfg_rsOk_refuses : (Config.ofCfg { Cfg.refWith 1 with rsK := 239 }).isNone = true := by
  decide +kernel
theorem test_cfg_gfOk_refuses : (Config.ofCfg { Cfg.refWith 1 with gfPrim := 0x187#9 }).isNone = true := by
  decide +kernel
theorem test_cfg_fcrOk_refuses : (Config.ofCfg { Cfg.refWith 1 with rsFcr := 255 }).isNone = true := by
  decide +kernel
theorem test_cfg_gapOk_refuses :
    ([0, 3, 5, 17, 255].map fun g => (Config.ofCfg { Cfg.refWith 1 with rsGap := g }).isNone) =
      [true, true, true, true, true] := by decide +kernel
theorem test_cfg_nbOk_refuses : (Config.ofCfg (Cfg.refWith 0)).isNone = true := by decide +kernel
theorem test_cfg_convKOk_refuses : (Config.ofCfg { Cfg.refWith 1 with convK := 9 }).isNone = true := by
  decide +kernel
theorem test_cfg_convMasksOk_refuses :
    ([(0x6C#7, 0x4F#7), (0x2D#7, 0x4F#7), (0x6D#7, 0x4E#7), (0x6D#7, 0x0F#7), (0x6D#7, 0x6D#7)].map
      fun g => (Config.ofCfg { Cfg.refWith 1 with convG1 := g.1, convG2 := g.2 }).isNone) =
      [true, true, true, true, true] := by decide +kernel
theorem test_cfg_scrLenOk_refuses :
    (Config.ofCfg { Cfg.refWith 1 with scrLen := 1, scrTaps := 1#32, scrSeed := 1#32 }).isNone = true ∧
    (Config.ofCfg { Cfg.refWith 1 with scrLen := 33 }).isNone = true := by decide +kernel
theorem test_cfg_scrTapsOk_refuses :
    (Config.ofCfg { Cfg.refWith 1 with scrTaps := 0xA8#32 }).isNone = true ∧
    (Config.ofCfg { Cfg.refWith 1 with scrTaps := 0x1A9#32 }).isNone = true := by decide +kernel
theorem test_cfg_scrSeedOk_refuses :
    (Config.ofCfg { Cfg.refWith 1 with scrSeed := 0#32 }).isNone = true ∧
    (Config.ofCfg { Cfg.refWith 1 with scrSeed := 0x100#32 }).isNone = true := by decide +kernel
theorem test_cfg_rrcSpsOk_refuses :
    (Config.ofCfg { Cfg.refWith 1 with rrcSps := 0, rrcPhase := 62 }).isNone = true := by decide +kernel
theorem test_cfg_rrcLengthOk_refuses :
    (Config.ofCfg { Cfg.refWith 1 with rrcNt := 65 }).isNone = true ∧
    (Config.ofCfg { Cfg.refWith 1 with rrcNt := 2, rrcTaps := [mkRat 3 5, mkRat 4 5], rrcPhase := 1 }).isNone =
      true := by decide +kernel
theorem test_cfg_rrcSymmetric_refuses :
    (Config.ofCfg { Cfg.refWith 1 with rrcNt := 3, rrcTaps := [mkRat 3 5, 0, mkRat 4 5] }).isNone = true := by
  decide +kernel
theorem test_cfg_rrcUnitEnergy_refuses :
    (Config.ofCfg { Cfg.refWith 1 with rrcNt := 1, rrcTaps := [2] }).isNone = true ∧
    (Config.ofCfg { Cfg.refWith 1 with rrcNt := 1, rrcTaps := [1] }).isSome = true := by decide +kernel
theorem test_cfg_rrcPhaseOk_refuses : (Config.ofCfg { Cfg.refWith 1 with rrcPhase := 1 }).isNone = true := by
  decide +kernel
theorem test_cfg_thresholdOk_refuses :
    (Config.ofCfg { Cfg.refWith 1 with dfThreshold := 0 }).isNone = true := by decide +kernel
theorem test_cfg_tracebackOk_refuses :
    (Config.ofCfg { Cfg.refWith 1 with vitTb := .window 34 }).isNone = true ∧
    (Config.ofCfg { Cfg.refWith 1 with vitTb := .window 35 }).isSome = true := by decide +kernel
theorem test_cfg_queuesOk_refuses :
    (Config.ofCfg { Cfg.refWith 1 with qdepth := .uniform 254 }).isNone = true ∧
    (Config.ofCfg { Cfg.refWith 1 with qdepth := .uniform 255 }).isSome = true ∧
    (Config.ofCfg { Cfg.refWith 1 with qdepth := { QDepth.unbounded with bits := some 39 } }).isNone = true := by
  decide +kernel

/-! ## Field and codes -/

/-- V-GF1 to V-GF7. -/
theorem test_gmul_vectors :
    gmul 0x02 0x80 = 0x1D ∧ gmul 0x80 0x80 = 0x13 ∧ gmul 0xFF 0xFF = 0xE2 ∧ gmul 0x53 0xCA = 0x8F ∧
    gmul 0xB6 0x53 = 0xEE ∧ gmul 0x8E 0x02 = 0x01 ∧ gmul 0x00 0x37 = 0x00 ∧ gmul 0x01 0x37 = 0x37 := by
  decide +kernel

/-- V-GF8, V-GF9, V-GF10. -/
theorem test_gf_tables :
    [0, 1, 7, 8, 9, 25, 127, 128, 254].map gexp =
      [0x01, 0x02, 0x80, 0x1D, 0x3A, 0x03, 0xCC, 0x85, 0x8E] ∧
    [0x01, 0x02, 0x03, 0x1D, 0x53, 0x80, 0x8E, 0xFF].map (gexpTable.idxOf ·) =
      [0, 1, 25, 8, 206, 7, 254, 175] ∧
    gexp (255 - 206) = 0x8C := by decide +kernel

/-- R123: each entry of the table is the one before times `GF_ALPHA` (R122's product). -/
theorem test_gexp_recurrence :
    (List.range 254).all (fun i => gexp (i + 1) == gmul (gexp i) gfAlpha) = true := by decide +kernel

/-- The syndromes of R232. -/
def syn232 : List Byte :=
  [0xE5, 0x95, 0x84, 0xB5, 0xDD, 0xC7, 0x90, 0x14, 0xC6, 0x5B, 0xDB, 0x63, 0x7E, 0xF2, 0xE4, 0x16] ++
  [0xA7, 0x2E, 0x1D, 0x85, 0x85, 0x3C, 0x8E, 0x6E, 0x66, 0x90, 0x20, 0xC2, 0x6D, 0x57, 0x35, 0x59]

/-- R232: the table of the first four Berlekamp-Massey steps (`ginv` of a nonzero byte is in the table). -/
theorem test_bm_steps :
    bmDiscrepancy syn232 bmStart 0 = 0xE5 ∧
    ((List.range 4).foldl (bmStep syn232) bmStart).len = 2 ∧
    ((List.range 4).foldl (bmStep syn232) bmStart).shift = 2 ∧
    ((List.range 4).foldl (bmStep syn232) bmStart).disc = 0x8A ∧
    ((List.range 4).foldl (bmStep syn232) bmStart).lam.take 4 = [0x01, 0xAA, 0x77, 0x00] ∧
    ((List.range 4).foldl (bmStep syn232) bmStart).prev.take 2 = [0x01, 0x26] := by decide +kernel

/-- R232: evaluator, Chien values and Forney values at `p = 54` and `p = 244`. -/
theorem test_chien_forney :
    (evaluator syn232 [0x01, 0xAA, 0x77] 2).take 4 = [0xE5, 0x2B, 0x00, 0x00] ∧
    pevalLo [0x01, 0xAA, 0x77] (bexp Config.ref.toCfg (-54)) = 0x00 ∧
    pevalLo [0x01, 0xAA, 0x77] (bexp Config.ref.toCfg (-55)) ≠ 0x00 ∧
    bexp Config.ref.toCfg 54 = 0x50 ∧ bexp Config.ref.toCfg (-54) = 0x38 ∧
    forneyDen Config.ref.toCfg [0x01, 0xAA, 0x77] 2 54 = 0xAA ∧
    forneyVal Config.ref.toCfg [0xE5, 0x2B] 54 0xAA = 0xAA ∧
    forneyVal Config.ref.toCfg [0xE5, 0x2B] 244 0xAA = 0x55 := by decide +kernel

/-- R211: 0xA5's pairs, the metrics after pairs 0 and 1, the end state 37 and the bits. -/
theorem test_viterbi_worked_example :
    let c := Config.ref.toCfg
    let m1 := acsMetrics c startMetrics 1 1
    let m2 := acsMetrics c m1 (-1) 1
    (m1[0] = .fin 8 ∧ m1[1] = .fin 0 ∧ m1[2] = .inf) ∧
    (m2[0] = .fin 12 ∧ m2[1] = .fin 12 ∧ m2[2] = .fin 0 ∧ m2[3] = .fin 8 ∧ m2[4] = .inf) := by
  decide +kernel

/-- R211: two pairs traced back give the first two bits of 0xA5. -/
theorem test_traceback :
    let c := Config.ref.toCfg
    let m1 := acsMetrics c startMetrics 1 1
    vitDecide (acsMetrics c m1 (-1) 1)
      [acsDecisions c startMetrics 1 1, acsDecisions c m1 (-1) 1] 0 2 = [true, false] := by
  decide +kernel

/-! ## One step each -/

/-- V-CT17. -/
theorem test_nop : after busy 0x00 = busy := by decide +kernel

/-- R55, R236. -/
theorem test_rst : after busy 0x01 = base := by decide +kernel

/-- V-CT2 and V-CT3, V-CT4, V-CT5: `CTRL` after a start from reset. -/
theorem test_txstart : (after base 0x02).ctrl = 0x01#8 ∧ (after busy 0x02).tx = base.tx ∧
    (after busy 0x02).rx = busy.rx := by decide +kernel
theorem test_txstartb : (after base 0x03).ctrl = 0x05#8 ∧ (after busy 0x03).tx = base.tx := by
  decide +kernel
theorem test_rxstart : (after base 0x05).ctrl = 0x02#8 ∧ (after busy 0x05).rx = base.rx ∧
    (after busy 0x05).tx = busy.tx := by decide +kernel
theorem test_rxstarts : (after base 0x06).ctrl = 0x0A#8 ∧ (after busy 0x06).rx = base.rx := by
  decide +kernel

/-- V-CT7 and R243. -/
theorem test_txstop : (after tapOn 0x04).ctrl = 0x04#8 ∧ (after busy 0x04).tx = busy.tx := by
  decide +kernel
theorem test_rxstop : (after symOn 0x07).ctrl = 0x08#8 ∧ (after busy 0x07).rx = busy.rx := by
  decide +kernel

/-- V-CT2, V-CT15: `TX_IDLE` is 0 once a frame waits. -/
theorem test_rdstat :
    (after txOn 0x08).ports.status = [(0x01#8, 0x18#8)] ∧
    (after { txOn with tx := { txOn.tx with qTxin := List.replicate 223 0#8 } } 0x08).ports.status =
      [(0x01#8, 0x10#8)] := by decide +kernel
/-- R244's example: mid-frame after a negative lock. -/
theorem test_rdstat_locked :
    (after { symOn with rx := { symOn.rx with dfState := .lock, dfInv := true, dfCnt := 5 } } 0x08).ports.status =
      [(0x0A#8, 0x1B#8)] := by decide +kernel

/-- V-RSE2. -/
theorem test_rsenc :
    (after { txOn with tx := { txOn.tx with qTxin := List.replicate 222 0#8 ++ [0x01#8] } } 0x10).tx.qRsc.drop
        222 =
      [0x01, 0xE8, 0x1D, 0xBD, 0x32, 0x8E, 0xF6, 0xE8, 0x0F, 0x2B, 0x52, 0xA4, 0xEE, 0x01, 0x9E, 0x0D,
        0x77] ++
      [0x9E, 0xE0, 0x86, 0xE3, 0xD2, 0xA3, 0x32, 0x6B, 0x28, 0x1B, 0x68, 0xFD, 0x18, 0xEF, 0xD8, 0x2D] := by
  decide +kernel
/-- V-CT8, V-CT9: stuck, nothing changes. -/
theorem test_rsenc_waits :
    step (present base [{ word := 0x10#8 }]) = .next (present base [{ word := 0x10#8 }]) := by rfl

/-- V-CV5. -/
theorem test_cvenc :
    (after { txOn with tx := { txOn.tx with qRsc := [0xA5#8] } } 0x20).tx.qCvc = [0xD2#8, 0xEA#8] ∧
    (after { txOn with tx := { txOn.tx with qRsc := [0xA5#8] } } 0x20).tx.cvSr = 0x25#6 := by
  decide +kernel
/-- V-CV9: the second byte of `FF 00`, inside a frame and at a frame's first byte. -/
theorem test_cvenc_frame_boundary :
    (after { txOn with tx := { txOn.tx with qRsc := [0x00#8], cvSr := 0x3F#6, cvCnt := 1 } } 0x20).tx.qCvc =
      [0x19#8, 0x70#8] ∧
    (after { txOn with tx := { txOn.tx with qRsc := [0x00#8], cvSr := 0x3F#6, cvCnt := 0 } } 0x20).tx.qCvc =
      [0x00#8, 0x00#8] ∧
    (after { txOn with tx := { txOn.tx with qRsc := [0x00#8], cvCnt := 254 } } 0x20).tx.cvCnt = 0 := by
  decide +kernel

/-- R164's worked example: a frame's first byte. -/
theorem test_frmr :
    (packBytes (after { txOn with tx := { txOn.tx with qCvc := [0xA5#8] } } 0x30).tx.qBits).1 =
      [0x1A#8, 0xCF#8, 0xFC#8, 0x1D#8, 0x5A#8] := by decide +kernel
/-- R164's worked example: the second byte; R165: the register after eight steps. -/
theorem test_frmr_second_byte :
    (packBytes (after { txOn with
        tx := { txOn.tx with qCvc := [0x00#8], frCnt := 1, frScr := 0x12#32 } } 0x30).tx.qBits).1 = [0x48#8] ∧
    (after { txOn with tx := { txOn.tx with qCvc := [0x00#8] } } 0x30).tx.frScr = 0x12#32 := by decide +kernel

/-- V-RRC1: `y[2] = h[2] - h[0]` and `y[3] = h[3] - h[1]` for the bit 0 after a bit 1. -/
theorem test_rrci :
    (after { txOn with tx := { txOn.tx with qBits := [false], riHist := 1 :: List.replicate 30 0 } } 0x40).tx.qTxout =
      [⟨rrcRefTaps.getD 2 0 - rrcRefTaps.getD 0 0, 0⟩, ⟨rrcRefTaps.getD 3 0 - rrcRefTaps.getD 1 0, 0⟩] := by
  decide +kernel

/-- R176's worked example: the third soft symbol, `h[4]`. -/
theorem test_rrcd :
    (after { rxOn with
        rx := { rxOn.rx with qRxin := [⟨0, 7⟩, ⟨0, 7⟩], rdHist := [0, 0, 0, 1] ++ List.replicate 58 0 } }
      0x50).rx.qSym = [rrcRefTaps.getD 4 0] := by decide +kernel

/-- R178: four of the printed digits, and that the reference taps are within one unit of the last. -/
theorem test_reference_taps :
    (([(0, 644863482), (1, -482288723), (30, 429761752768), (31, 774731751694), (62, 644863482)] :
        List (Nat × Int)).all fun x =>
      decide ((rrcRefTaps.getD x.1 0 * 1000000000000 - (x.2 : Rat)) ^ 2 ≤ 1)) = true ∧
    rrcRefTaps.length = 63 := by decide +kernel

/-- The window of 31 symbols of the sync word, some of them negated, behind a zero. -/
def huntingAt (negated : List Nat) (k : Soft) : State :=
  { symOn with
    rx := { symOn.rx with
      dfWin := Vector.ofFn fun j =>
        if j.val = 0 then 0
        else k * (if negated.contains (j.val - 1) then -syncSymbol Config.ref.toCfg (j.val - 1)
          else syncSymbol Config.ref.toCfg (j.val - 1))
      qSym := [k * (if negated.contains 31 then -syncSymbol Config.ref.toCfg 31
        else syncSymbol Config.ref.toCfg 31)] } }

/-- V-DEF2, V-DEF3 (correlation exactly 24), V-DEF4 (22). -/
theorem test_defr_hunt :
    (after (huntingAt [] (-1)) 0x60).rx.dfState = .lock ∧ (after (huntingAt [] (-1)) 0x60).rx.dfInv = true ∧
    (after (huntingAt [0, 9, 17, 30] 1) 0x60).rx.dfState = .lock ∧
    (after (huntingAt [0, 9, 17, 30, 31] 1) 0x60).rx.dfState = .hunt ∧
    (after (huntingAt [] (-1)) 0x60).rx.qPay = [] := by decide +kernel
/-- V-DEF10, V-DEF11: the first payload symbol; a frame's last symbol returns to `HUNT`. -/
theorem test_defr_lock :
    (after { symOn with rx := { symOn.rx with dfState := .lock, qSym := [1] } } 0x60).rx.qPay = [-1] ∧
    (after { symOn with rx := { symOn.rx with dfState := .lock, dfInv := true, qSym := [-1] } } 0x60).rx.qPay =
      [-1] ∧
    (after { symOn with rx := { symOn.rx with dfState := .lock, dfCnt := 4079, qSym := [1] } } 0x60).rx.dfState =
      .hunt := by decide +kernel

/-- R211: pair 0 of 0xA5. -/
theorem test_vitd :
    (after { symOn with rx := { symOn.rx with qPay := [1, 1] } } 0x70).rx.vtPm[0] = .fin 8 ∧
    (after { symOn with rx := { symOn.rx with qPay := [1, 1] } } 0x70).rx.vtPm[1] = .fin 0 ∧
    (after { symOn with rx := { symOn.rx with qPay := [1, 1] } } 0x70).rx.vtCnt = 1 ∧
    (after { symOn with rx := { symOn.rx with qPay := [1, 1] } } 0x70).rx.qDec = [] := by decide +kernel

/-- R204: in windowed mode with room for 300 bytes, a frame's last pair waits for 255 of them (45 bytes may
stand in `Q_DEC`, 46 may not), an earlier pair for one. -/
theorem test_vitd_room :
    let c : Cfg := { Cfg.refWith 1 with vitTb := .window 35, qdepth := .uniform 300 }
    let r (cnt : Nat) : RxPath := { RxPath.reset c with vtCnt := cnt, vtNout := cnt + 1 - 35 }
    room c.qdepth.dec (List.replicate 45 0#8) (vitdRoom c (r 2039)) = true ∧
    room c.qdepth.dec (List.replicate 46 0#8) (vitdRoom c (r 2039)) = false ∧
    room c.qdepth.dec (List.replicate 299 0#8) (vitdRoom c (r 2038)) = true ∧
    room c.qdepth.dec (List.replicate 300 0#8) (vitdRoom c (r 2038)) = false := by decide +kernel

/-- Log 14 at NB = 1 and `VIT_TB = 35`: before the last pair 250 bytes are pushed, of which `RSDEC` can take
none, and `VITD` then waits for 505 in all. -/
theorem test_vitd_room_stuck :
    let c (d : Nat) : Cfg := { Cfg.refWith 1 with vitTb := .window 35, qdepth := .uniform d }
    let r : RxPath := { RxPath.reset (c 255) with vtCnt := 2039 }
    decidedAfter (c 255) 2039 / 8 = 250 ∧ (c 255).valid = true ∧
    [255, 504, 505].map (fun d => room (c d).qdepth.dec (List.replicate 250 0#8) (vitdRoom (c d) r)) =
      [false, false, true] := by decide +kernel

/-- A block of zeros but for the 32 coefficients of `(x + ALPHA) ... (x + ALPHA^31)`, highest first: the
first 31 syndromes are 0 and the last is not, so Berlekamp-Massey gives `L = 32` (R225). -/
def badTail : List Byte :=
  ((List.range 31).foldl (fun g (i : Nat) => generatorTimes g (gexp (i + 1))) [1#8]).reverse

def badBlock : List Byte := List.replicate 223 0#8 ++ badTail

/-- Leading zeros add nothing to Horner's rule. -/
theorem pevalHi_zeros (n : Nat) (cs : List Byte) (x : Byte) :
    pevalHi (List.replicate n 0#8 ++ cs) x = pevalHi cs x := by
  have hz : gmul 0#8 x = 0#8 := by
    revert x
    decide +kernel
  induction n with
  | zero => rfl
  | succ n ih =>
    rw [← ih]
    simp only [pevalHi, List.replicate_succ, List.cons_append, List.foldl_cons, hz]
    rfl

theorem syndromes_zeros (n : Nat) (cs : List Byte) (c : Cfg) :
    syndromes c (List.replicate n 0#8 ++ cs) = syndromes c cs := by
  simp only [syndromes, pevalHi_zeros]

theorem zero_block_is_codeword (c : Cfg) : isCodeword c (List.replicate 255 0#8) = true := by
  have h := syndromes_zeros 255 [] c
  rw [List.append_nil] at h
  rw [isCodeword, h]
  simp [syndromes, pevalHi]

/-- The all-zero word decodes to zeros (V-RSE1). -/
theorem test_rsDecode_zero (c : Cfg) : rsDecode c (List.replicate 255 0#8) = (.ok, List.replicate 223 0#8) := by
  rw [rsDecode, if_pos (zero_block_is_codeword c), List.take_replicate]
  rfl

/-- R225, R229: `L > 16`. -/
theorem test_rsDecode_uncorrectable :
    rsDecode Config.ref1.toCfg badBlock = (.uncorrectable, List.replicate 223 0#8) := by
  have hs : syndromes Config.ref1.toCfg badBlock = syndromes Config.ref1.toCfg badTail :=
    syndromes_zeros 223 badTail _
  have h : (syndromes Config.ref1.toCfg badTail).all (· == 0#8) = false ∧
      16 < (berlekampMassey (syndromes Config.ref1.toCfg badTail)).len := by decide +kernel
  have hc : rsCorrect Config.ref1.toCfg badBlock = none := by
    unfold rsCorrect
    simp only [hs]
    rw [if_pos (Or.inl h.2)]
  have ht : badBlock.take 223 = List.replicate 223 0#8 := List.take_left' (List.length_replicate ..)
  rw [rsDecode, isCodeword, hs, h.1, hc, ht]
  rfl

/-- R220, R281: with NB = 1 an uncorrectable block gives a `CORRUPT` result at once. -/
theorem test_rsdec :
    (after { symOn with rx := { symOn.rx with qDec := badBlock } } 0x80).rx.qRxout =
      [⟨.corrupt, List.replicate 223 0#8⟩] := by
  have hl : badBlock.length = 255 := by decide +kernel
  have he : State.rsdecEnabled (present { symOn with rx := { symOn.rx with qDec := badBlock } }
      [{ word := 0x80 }]) = true := by
    rw [State.rsdecEnabled_iff]
    refine ⟨by decide, ?_, fun _ => RoomFor.of_none _ _ rfl⟩
    show 255 ≤ badBlock.length
    omega
  have hd : rsDecode Config.ref1.toCfg (badBlock.take 255) = (.uncorrectable, List.replicate 223 0#8) := by
    rw [List.take_of_length_le (by omega), test_rsDecode_uncorrectable]
  have hf : (rsdecFire Config.ref1.toCfg { symOn.rx with qDec := badBlock }).qRxout =
      [⟨.corrupt, List.replicate 223 0#8⟩] := by
    simp only [rsdecFire, popped, hd]
    rfl
  have hs := (step_of_decode (s := present { symOn with rx := { symOn.rx with qDec := badBlock } }
    [{ word := 0x80 }]) (i := .rsdec) rfl).trans (exec_of_enabled (i := .rsdec) he)
  unfold after
  rw [hs]
  exact hf

/-- V-CT14 and R245. -/
theorem test_txput :
    refusal txOn { word := 0xF0#8, txin := List.replicate 222 0#8 } = some (.frameLength 222) ∧
    refusal txOn { word := 0xF0#8, txin := List.replicate 223 0#8 } = none := by decide +kernel

/-- R246. -/
theorem test_txget :
    (after { txOn with tx := { txOn.tx with qTxout := [⟨1, 0⟩, ⟨2, 0⟩] } } 0xF1).ports.txout =
      [[⟨1, 0⟩, ⟨2, 0⟩]] ∧
    (after { txOn with tx := { txOn.tx with qTxout := [⟨1, 0⟩, ⟨2, 0⟩] } } 0xF1).tx.qTxout = [] := by
  decide +kernel

/-- V-CT10 and R247. -/
theorem test_bitget :
    (after { tapOn with tx := { tapOn.tx with qBits := [true, false] } } 0xF2).ports.bits = [[true, false]] ∧
    (after { txOn with tx := { txOn.tx with qBits := [true, false] } } 0xF2).ports.bits = [] := by
  decide +kernel

/-- R248. -/
theorem test_rxput :
    (match step (present rxOn [{ word := 0xF3#8, rxin := [⟨1, 2⟩, ⟨3, 4⟩, ⟨5, 6⟩] }]) with
      | .next t => t.rx.qRxin
      | _ => []) = [⟨1, 2⟩, ⟨3, 4⟩, ⟨5, 6⟩] := by decide +kernel

/-- V-CT11 and R249. -/
theorem test_symput :
    (match step (present symOn [{ word := 0xF4#8, sym := [1, -1, 1] }]) with
      | .next t => t.rx.qSym
      | _ => []) = [1, -1, 1] ∧
    (match step (present rxOn [{ word := 0xF4#8, sym := [1, -1, 1] }]) with
      | .next t => t.rx.qSym
      | _ => [5]) = [] := by decide +kernel

/-- V-CT12 and R250. -/
theorem test_rxget :
    (after { symOn with rx := { symOn.rx with qRxout := [⟨.corrupt, [1#8]⟩, ⟨.ok, [2#8]⟩] } } 0xF5).ports.rxout =
      [⟨.corrupt, [1#8]⟩] ∧
    (after symOn 0xF5).ports.rxout = [] := by decide +kernel

/-! ## The statements' hypotheses can be met

For each statement with hypotheses a state and operands that meet them, and for a statement of several
clauses one for each. -/

/-- A transmit path inside a frame, a token in every stream. -/
def livelyTx : TxPath :=
  { base.tx with
    qTxin := List.replicate 223 0#8
    qRsc := 0xA5#8 :: List.replicate 253 0#8
    qCvc := [0xD2#8]
    qBits := [true]
    cvCnt := 1
    frCnt := 1
    frScr := scrIterate Config.ref1.toCfg 8 0xFF#32 }

/-- A receive path before a frame's last pair, the deframer hunting, a token in every stream. -/
def lastPairRx : RxPath :=
  { base.rx with
    qRxin := [⟨1, 0⟩, ⟨-1, 0⟩]
    qSym := [1]
    qPay := [1, -1]
    qDec := List.replicate 255 0#8
    qRxout := [⟨.ok, List.replicate 223 0#8⟩]
    vtCnt := 2039
    vtPm := Vector.ofFn fun _ => .fin 0
    vtSurv := List.replicate 2039 0#64 }

/-- The same before a frame's second pair, the deframer at payload symbol 4. -/
def secondPairRx : RxPath :=
  { lastPairRx with
    dfState := .lock
    dfCnt := 4
    dfScr := scrIterate Config.ref1.toCfg 4 0xFF#32
    dfWin := zeroWindow
    vtCnt := 1
    vtPm := Vector.ofFn fun n => if n.val < 2 then .fin 4 else .inf
    vtSurv := [0#64] }

/-- Both paths running, all eight stages enabled, the word `w` presented. -/
def lively (r : RxPath) (w : Byte) : State :=
  { base with ctrl := 0x03#8, tx := livelyTx, rx := r, ports := { Ports.idle with ctl := [{ word := w }] } }

/-- `CFG_REF` with NB = 1, in windowed mode. -/
def ref1Window : Config := ⟨{ Cfg.refWith 1 with vitTb := .window 35 }, by decide +kernel⟩

/-- `CFG_REF` with NB = 1 and room for 300 tokens in each stream. -/
def ref1Bounded : Config := ⟨{ Cfg.refWith 1 with qdepth := .uniform 300 }, by decide +kernel⟩

theorem lively_txInv_nop : TxInv (lively lastPairRx 0) where
  wholeBlocks := by decide +kernel
  cvRange := by decide +kernel
  frRange := by decide +kernel
  cvAligned := by decide +kernel
  frAligned := by decide +kernel
  scrWidth := by decide +kernel
  scrPhase := fun _ => by decide +kernel
  histLength := by decide +kernel
  tapDry := fun h => absurd h (by decide)

/-- The transmit path in step, whatever the receive path and the word. -/
theorem lively_txInv (r : RxPath) (w : Byte) : TxInv (lively r w) :=
  let h := lively_txInv_nop
  ⟨h.wholeBlocks, h.cvRange, h.frRange, h.cvAligned, h.frAligned, h.scrWidth, h.scrPhase, h.histLength,
    h.tapDry⟩

theorem lastPair_rxInv : RxInv (lively lastPairRx 0) where
  histLength := by decide +kernel
  dfRange := by decide +kernel
  huntCount := fun _ => rfl
  lockWindow := fun h => absurd h (by decide)
  scrWidth := by decide +kernel
  scrPhase := fun h => absurd h (by decide)
  vtRange := by decide +kernel
  payAligned := by decide +kernel
  survLength := fun _ => List.length_replicate ..
  decided := fun _ => rfl
  noutRange := by decide +kernel
  accLength := rfl
  metrics := by decide +kernel
  decAligned := by decide +kernel
  blkRange := by decide +kernel
  bufLength := rfl
  badClear := fun _ => rfl
  results := by decide +kernel
  srcDry := fun h => absurd h (by decide)

theorem secondPair_rxInv : RxInv (lively secondPairRx 0) where
  histLength := by decide +kernel
  dfRange := by decide +kernel
  huntCount := fun h => absurd h (by decide)
  lockWindow := fun _ => rfl
  scrWidth := by decide +kernel
  scrPhase := fun _ => rfl
  vtRange := by decide +kernel
  payAligned := by decide +kernel
  survLength := fun _ => rfl
  decided := fun _ => rfl
  noutRange := by decide +kernel
  accLength := rfl
  metrics := by decide +kernel
  decAligned := by decide +kernel
  blkRange := by decide +kernel
  bufLength := rfl
  badClear := fun _ => rfl
  results := by decide +kernel
  srcDry := fun h => absurd h (by decide)

/-- The receive paths in step, whatever the word. -/
theorem lively_rxInv (w : Byte) : RxInv (lively lastPairRx w) ∧ RxInv (lively secondPairRx w) :=
  let h := lastPair_rxInv
  let g := secondPair_rxInv
  ⟨⟨h.histLength, h.dfRange, h.huntCount, h.lockWindow, h.scrWidth, h.scrPhase, h.vtRange, h.payAligned,
      h.survLength, h.decided, h.noutRange, h.accLength, h.metrics, h.decAligned, h.blkRange, h.bufLength,
      h.badClear, h.results, h.srcDry⟩,
    ⟨g.histLength, g.dfRange, g.huntCount, g.lockWindow, g.scrWidth, g.scrPhase, g.vtRange, g.payAligned,
      g.survLength, g.decided, g.noutRange, g.accLength, g.metrics, g.decAligned, g.blkRange, g.bufLength,
      g.badClear, g.results, g.srcDry⟩⟩

theorem secondPair_finiteStates : FiniteStates (lively secondPairRx 0x70) := fun _ => by decide +kernel

/-- All eight stages are enabled. -/
theorem lively_enabled (w : Byte) (i : Instr) (h : i ∈ stageOps) :
    (lively lastPairRx w).enabled i = true ∧ (lively secondPairRx w).enabled i = true := by
  have : ∀ i ∈ stageOps,
      (lively lastPairRx 0).enabled i = true ∧ (lively secondPairRx 0).enabled i = true := by
    decide +kernel
  exact this i h

theorem lively_capacities (r : RxPath) (w : Byte) : Capacities (lively r w) := by
  constructor <;> exact RoomFor.of_none _ _ rfl

theorem witness_EveryWordDecodesAsTheMapSays : wordDefined 0xF5#8 = true ∧ wordDefined 0xF6#8 = false := by
  decide

theorem witness_ReservedWordIsRefused :
    wordDefined (present base [{ word := 0x09#8 }]).presented = false ∧
    (9 ≤ unitField 0x90#8 ∧ unitField 0x90#8 ≤ 14) ∧ (9 ≤ unitField 0xEF#8 ∧ unitField 0xEF#8 ≤ 14) ∧
    (1 ≤ unitField 0x11#8 ∧ unitField 0x11#8 ≤ 8 ∧ fnField 0x11#8 ≠ 0) ∧
    (1 ≤ unitField 0x8F#8 ∧ unitField 0x8F#8 ≤ 8 ∧ fnField 0x8F#8 ≠ 0) := by decide

theorem witness_StepRunsThePresentedOperation :
    ((lively lastPairRx 0x10).ports.ctl = [{ word := 0x10 }] ∧ decode 0x10 = .op .rsenc ∧
      ∃ t, exec .rsenc (lively lastPairRx 0x10) = .next t) ∧
    ((present base [{ word := 0x10 }]).ports.ctl = [{ word := 0x10 }] ∧
      exec .rsenc (present base [{ word := 0x10 }]) = .next (present base [{ word := 0x10 }])) ∧
    base.ports.ctl = [] :=
  ⟨⟨rfl, rfl, _, exec_of_enabled (lively_enabled _ _ (by decide)).1⟩, ⟨rfl, rfl⟩, rfl⟩

theorem witness_OnlyReservedWordsAndPartFramesAreRefused :
    wordDefined (present base [{ word := 0x09#8 }]).presented = false ∧
    ((present base [{ word := 0xF0#8 }]).presented = 0xF0#8 ∧
      (present base [{ word := 0xF0#8 }]).slot.txin.length ≠ 223 * base.cfg.nb) ∧
    wordDefined base.presented = true ∧ base.presented ≠ 0xF0#8 := by decide +kernel

/-- The boundary for `RSENC` is one byte short; for `TXPUT` a stream of 300 that holds a frame. -/
theorem witness_OperationNotEnabledWaits :
    (¬(txOn.ctrl.getLsbD 0 = true ∧ 223 ≤ (List.replicate 222 0#8).length ∧
      RoomFor txOn.cfg.qdepth.rsc 0 255)) ∧
    (¬(base.ctrl.getLsbD 0 = true ∧ True) ∧ ¬(base.ctrl.getLsbD 1 = true ∧ True)) ∧
    ((List.replicate 223 0#8).length = 223 * ref1Bounded.nb ∧
      ¬RoomFor ref1Bounded.qdepth.txin (List.replicate 223 0#8).length (List.replicate 223 0#8).length) ∧
    base.ctrl.getLsbD 2 = false ∧
    ¬(symOn.ctrl.getLsbD 3 = false ∧
      RoomFor symOn.cfg.qdepth.rxin symOn.rx.qRxin.length symOn.slot.rxin.length) ∧
    ¬(base.ctrl.getLsbD 3 = true ∧ RoomFor base.cfg.qdepth.sym base.rx.qSym.length base.slot.sym.length) ∧
    base.rx.qRxout = [] := by
  refine ⟨fun h => absurd h.2.1 (by decide +kernel),
    ⟨fun h => absurd h.1 (by decide), fun h => absurd h.1 (by decide)⟩,
    ⟨by decide +kernel, fun h => absurd (h 300 rfl) (by decide +kernel)⟩, by decide,
    fun h => absurd h.1 (by decide), fun h => absurd h.1 (by decide), rfl⟩

theorem witness_NopChangesNothing :
    (present busy (repeatWord 0x00#8 3 ++ [{ word := 0x01#8 }])).ports.ctl =
      repeatWord 0x00#8 3 ++ [{ word := 0x01#8 }] := rfl

theorem witness_TxStartsResetAndEnableTheTxPath :
    tapOn.ctrl.getLsbD 2 = true ∧
    ∃ r t u t' u', exec .rst busy = .next r ∧ exec .txstart r = .next t ∧ exec .rdstat t = .next u ∧
      exec .txstartb r = .next t' ∧ exec .rdstat t' = .next u' :=
  ⟨by decide, _, _, _, _, _, rfl, rfl, rfl, rfl, rfl⟩

theorem witness_RxStartsResetAndEnableTheRxPath :
    symOn.ctrl.getLsbD 3 = true ∧
    ∃ r t u t' u', exec .rst busy = .next r ∧ exec .rxstart r = .next t ∧ exec .rdstat t = .next u ∧
      exec .rxstarts r = .next t' ∧ exec .rdstat t' = .next u' :=
  ⟨by decide, _, _, _, _, _, rfl, rfl, rfl, rfl, rfl⟩

theorem witness_StopsClearTheEnableBitOnly :
    ∃ t u, exec .txstop (lively lastPairRx 0x04) = .next t ∧ exec .rxstop (lively lastPairRx 0x07) = .next u :=
  ⟨_, _, rfl, rfl⟩

/-- `RSENC`, `CVENC` and `FRMR` inside a frame; `RRCI`. -/
theorem witness_transmit_stages :
    let s := lively lastPairRx 0x10
    s.ctrl.getLsbD 0 = true ∧ s.ctrl.getLsbD 2 = false ∧
    (s.tx.qTxin = List.replicate 223 0#8 ++ [] ∧ (List.replicate 223 0#8).length = 223 ∧
      RoomFor s.cfg.qdepth.rsc s.tx.qRsc.length 255) ∧
    (s.tx.qRsc = 0xA5#8 :: List.replicate 253 0#8 ∧ RoomFor s.cfg.qdepth.cvc s.tx.qCvc.length 2 ∧
      s.tx.cvCnt ≠ 0) ∧
    (s.tx.qCvc = 0xD2#8 :: [] ∧ RoomFor s.cfg.qdepth.bits s.tx.qBits.length 40 ∧ s.tx.frCnt ≠ 0) ∧
    (s.tx.qBits = true :: [] ∧ RoomFor s.cfg.qdepth.txout s.tx.qTxout.length s.cfg.rrcSps) :=
  ⟨by decide, by decide, ⟨(List.append_nil _).symm, List.length_replicate .., RoomFor.of_none _ _ rfl⟩,
    ⟨rfl, RoomFor.of_none _ _ rfl, by decide⟩,
    ⟨rfl, RoomFor.of_none _ _ rfl, by decide⟩, ⟨rfl, RoomFor.of_none _ _ rfl⟩⟩

/-- `CVENC` and `FRMR` at a frame's first byte (`n = 0`, `m = 0`) and at its last (254 and 509). -/
theorem witness_transmit_frame_ends (n m : Nat) :
    let s : State :=
      { txOn with tx := { txOn.tx with qRsc := [0xA5#8], qCvc := [0xD2#8], cvCnt := n, frCnt := m } }
    s.ctrl.getLsbD 0 = true ∧ s.tx.cvCnt = n ∧ s.tx.frCnt = m ∧ s.tx.qRsc = 0xA5#8 :: [] ∧
    s.tx.qCvc = 0xD2#8 :: [] ∧ RoomFor s.cfg.qdepth.cvc s.tx.qCvc.length 2 ∧
    RoomFor s.cfg.qdepth.bits s.tx.qBits.length 40 :=
  ⟨show (0x01#8).getLsbD 0 = true by decide, rfl, rfl, rfl, rfl, RoomFor.of_none _ _ rfl,
    RoomFor.of_none _ _ rfl⟩

/-- `RRCD`; `DEFR` hunting; `VITD` at a frame's last pair; `RSDEC` at a frame's last block. -/
theorem witness_receive_stages :
    let s := lively lastPairRx 0x50
    s.ctrl.getLsbD 1 = true ∧ s.ctrl.getLsbD 3 = false ∧
    (s.rx.qRxin = [⟨1, 0⟩, ⟨-1, 0⟩] ++ [] ∧ ([⟨1, 0⟩, ⟨-1, 0⟩] : List Sample).length = s.cfg.rrcSps ∧
      RoomFor s.cfg.qdepth.sym s.rx.qSym.length 1) ∧
    (s.rx.dfState = .hunt ∧ s.rx.qSym = 1 :: [] ∧ RoomFor s.cfg.qdepth.pay s.rx.qPay.length 1) ∧
    (s.rx.qPay = 1 :: -1 :: [] ∧
      RoomFor s.cfg.qdepth.dec s.rx.qDec.length (vitdRoom s.cfg.toCfg s.rx) ∧
      s.rx.vtCnt + 1 = 2040 * s.cfg.nb) ∧
    (s.rx.qDec = List.replicate 255 0#8 ++ [] ∧ (List.replicate 255 0#8).length = 255 ∧
      s.rx.rsdBlk + 1 = s.cfg.nb ∧ RoomFor s.cfg.qdepth.rxout s.rx.qRxout.length 1) :=
  ⟨by decide, by decide, ⟨rfl, rfl, RoomFor.of_none _ _ rfl⟩, ⟨rfl, rfl, RoomFor.of_none _ _ rfl⟩,
    ⟨rfl, RoomFor.of_none _ _ rfl, rfl⟩, ⟨(List.append_nil _).symm, List.length_replicate .., rfl, RoomFor.of_none _ _ rfl⟩⟩

/-- `DEFR` hunting with a correlation of 32, of exactly 24 and of 22, whichever the sign. -/
theorem witness_DefrHunts :
    let s := huntingAt [0, 9, 17, 30] 1
    s.ctrl.getLsbD 1 = true ∧ s.rx.dfState = .hunt ∧ s.rx.qSym = [1 * syncSymbol Config.ref.toCfg 31] ∧
    RoomFor s.cfg.qdepth.pay s.rx.qPay.length 1 ∧
    correlation s.cfg.toCfg (windowPush s.rx.dfWin (s.rx.qSym.headD 0)) = 24 ∧
    correlation s.cfg.toCfg
      (windowPush (huntingAt [] (-1)).rx.dfWin ((huntingAt [] (-1)).rx.qSym.headD 0)) = -32 ∧
    correlation s.cfg.toCfg
      (windowPush (huntingAt [0, 9, 17, 30, 31] 1).rx.dfWin
        ((huntingAt [0, 9, 17, 30, 31] 1).rx.qSym.headD 0)) = 22 :=
  ⟨by decide, rfl, rfl, RoomFor.of_none _ _ rfl, by decide +kernel, by decide +kernel, by decide +kernel⟩

/-- `DEFR` inside a payload and at its last symbol. -/
theorem witness_DefrPassesAPayloadSymbol :
    let s := lively secondPairRx 0x60
    let last : State := { symOn with rx := { symOn.rx with dfState := .lock, dfCnt := 4079, qSym := [1] } }
    (s.ctrl.getLsbD 1 = true ∧ s.rx.dfState = .lock ∧ s.rx.qSym = 1 :: [] ∧
      RoomFor s.cfg.qdepth.pay s.rx.qPay.length 1 ∧ s.rx.dfCnt + 1 ≠ 4080 * s.cfg.nb) ∧
    (last.ctrl.getLsbD 1 = true ∧ last.rx.dfState = .lock ∧ last.rx.qSym = 1 :: [] ∧
      RoomFor last.cfg.qdepth.pay last.rx.qPay.length 1 ∧ last.rx.dfCnt + 1 = 4080 * last.cfg.nb) :=
  ⟨⟨by decide, rfl, rfl, RoomFor.of_none _ _ rfl, by decide⟩,
    ⟨by decide, rfl, rfl, RoomFor.of_none _ _ rfl, rfl⟩⟩

/-- `VITD` at a frame's first pair and at its second; in windowed mode at pair `D - 1` a bit is decided,
at pair `D - 2` none. -/
theorem witness_VitdProcessesAPair :
    let s := lively secondPairRx 0x70
    let w (n : Nat) : State :=
      { symOn with
        cfg := ref1Window
        rx := { symOn.rx with qPay := [1, 1], vtCnt := n, vtSurv := List.replicate n 0#64 } }
    (s.ctrl.getLsbD 1 = true ∧ s.rx.qPay = 1 :: -1 :: [] ∧
      RoomFor s.cfg.qdepth.dec s.rx.qDec.length (vitdRoom s.cfg.toCfg s.rx) ∧ s.rx.vtCnt = 1) ∧
    (∀ n, (w n).ctrl.getLsbD 1 = true ∧ (w n).rx.qPay = 1 :: 1 :: [] ∧
      RoomFor (w n).cfg.qdepth.dec (w n).rx.qDec.length (vitdRoom (w n).cfg.toCfg (w n).rx)) ∧
    (w 0).rx.vtCnt = 0 ∧
    bitsDecided (w 33).cfg.toCfg 33 0 = 0 ∧ bitsDecided (w 34).cfg.toCfg 34 0 = 1 :=
  ⟨⟨by decide, rfl, RoomFor.of_none _ _ rfl, rfl⟩, fun _ => ⟨show (0x0A#8).getLsbD 1 = true by decide, rfl, RoomFor.of_none _ _ rfl⟩,
    rfl, by decide +kernel, by decide +kernel⟩

/-- `RSDEC` at a block that is not a frame's last (NB = 9), and with an uncorrectable block. -/
theorem witness_RsdecDecodesABlock :
    let s : State := { State.resetWith .ref with ctrl := 0x02#8, rx := { base.rx with qDec := badBlock } }
    s.ctrl.getLsbD 1 = true ∧ s.rx.qDec = badBlock ++ [] ∧ badBlock.length = 255 ∧
    s.rx.rsdBlk + 1 ≠ s.cfg.nb ∧ (rsDecode Config.ref1.toCfg badBlock).1 = .uncorrectable :=
  ⟨by decide, (List.append_nil _).symm, by decide +kernel, by decide,
    by rw [test_rsDecode_uncorrectable]⟩

theorem witness_TxputTakesWholeFramesOnly :
    let s := present base [{ word := 0xF0#8, txin := List.replicate 223 0#8 }, { word := 0x02#8 }]
    (s.slot.txin.length = 223 * s.cfg.nb ∧ RoomFor s.cfg.qdepth.txin s.tx.qTxin.length s.slot.txin.length) ∧
    base.slot.txin.length ≠ 223 * base.cfg.nb ∧
    ∃ t u, exec .txput s = .next t ∧ exec .txstart t = .next u := by
  have h : (present base [{ word := 0xF0#8, txin := List.replicate 223 0#8 }, { word := 0x02#8 }]).slot.txin.length
      = 223 * base.cfg.nb := by decide +kernel
  refine ⟨⟨h, RoomFor.of_none _ _ rfl⟩, by decide +kernel, _, _, exec_of_enabled ?_, rfl⟩
  exact (State.txputEnabled_iff _).2 ⟨h, RoomFor.of_none _ _ rfl⟩

theorem witness_host_moves :
    tapOn.ctrl.getLsbD 2 = true ∧
    (rxOn.ctrl.getLsbD 3 = false ∧
      RoomFor rxOn.cfg.qdepth.rxin rxOn.rx.qRxin.length rxOn.slot.rxin.length) ∧
    (symOn.ctrl.getLsbD 3 = true ∧
      RoomFor symOn.cfg.qdepth.sym symOn.rx.qSym.length symOn.slot.sym.length) ∧
    (lively lastPairRx 0xF5).rx.qRxout = ⟨.ok, List.replicate 223 0#8⟩ :: [] :=
  ⟨by decide, ⟨by decide, RoomFor.of_none _ _ rfl⟩, ⟨by decide, RoomFor.of_none _ _ rfl⟩, rfl⟩

theorem witness_GexpTableHoldsThePowersOfAlpha : (0x01#8 : Byte) ≠ 0#8 ∧ (0xFF#8 : Byte) ≠ 0#8 := by decide

theorem witness_ParityIsLinear : (List.replicate 223 0x01#8).length = (List.replicate 223 0xFF#8).length := by
  rw [List.length_replicate, List.length_replicate]

/-- For `EncodedBlockHasZeroSyndromes`, `CleanBlockDecodesToItsData` and `OneByteErrorIsCorrected`. -/
theorem witness_data_block : (List.replicate 223 0xA5#8).length = 223 := List.length_replicate ..

theorem witness_OkBlockIsWithinSixteenBytesOfACodeword :
    (List.replicate 255 0#8).length = 255 ∧
    rsDecode Config.ref1.toCfg (List.replicate 255 0#8) = (.ok, List.replicate 223 0#8) :=
  ⟨List.length_replicate .., test_rsDecode_zero _⟩

theorem witness_UncorrectableBlockKeepsTheReceivedData :
    rsDecode Config.ref1.toCfg badBlock = (.uncorrectable, List.replicate 223 0#8) :=
  test_rsDecode_uncorrectable

theorem witness_ConvolutionalCodeProperties :
    let as := [true, false, true]
    let bs := [true, false, false]
    as.length = bs.length ∧ 2 < as.length ∧ as.take 2 = bs.take 2 ∧ as.getD 2 false ≠ bs.getD 2 false ∧
    [false].getD 0 false ≠ [true].getD 0 false := by decide

theorem witness_RrciRunIsTheConvolution :
    let s : State :=
      { present txOn (repeatWord 0x40#8 2 ++ []) with tx := { txOn.tx with qBits := [true, false, true] } }
    s.ctrl.getLsbD 0 = true ∧ s.ctrl.getLsbD 2 = false ∧ s.tx.riHist = List.replicate s.cfg.rrcH 0 ∧
    s.tx.qBits = [true, false] ++ [true] ∧
    RoomFor s.cfg.qdepth.txout s.tx.qTxout.length ([true, false].length * s.cfg.rrcSps) ∧
    s.ports.ctl = repeatWord 0x40#8 [true, false].length ++ [] :=
  ⟨by decide, by decide, rfl, rfl, RoomFor.of_none _ _ rfl, rfl⟩

theorem witness_RrcdRunIsTheDecimatedConvolution :
    let zs : List Sample := [⟨1, 0⟩, ⟨2, 0⟩, ⟨3, 0⟩, ⟨4, 0⟩]
    let s : State := { present rxOn (repeatWord 0x50#8 2 ++ []) with rx := { rxOn.rx with qRxin := zs ++ [] } }
    s.ctrl.getLsbD 1 = true ∧ s.ctrl.getLsbD 3 = false ∧
    s.rx.rdHist = List.replicate (s.cfg.rrcNt - 1) 0 ∧ s.rx.qRxin = zs ++ [] ∧
    zs.length = 2 * s.cfg.rrcSps ∧ RoomFor s.cfg.qdepth.sym s.rx.qSym.length 2 ∧
    s.ports.ctl = repeatWord 0x50#8 2 ++ [] :=
  ⟨by decide, by decide, rfl, rfl, rfl, RoomFor.of_none _ _ rfl, rfl⟩

theorem witness_FrameOnTheWire :
    let f := List.replicate 223 0xA5#8
    let s := present tapOn (({ word := 0xF0#8, txin := f } : Slot) :: (repeatWord 0x10#8 1 ++
      (repeatWord 0x20#8 255 ++ (repeatWord 0x30#8 510 ++ (repeatWord 0xF2#8 1 ++ [])))))
    s.cfg.qdepth = QDepth.unbounded ∧ f.length = 223 * s.cfg.nb ∧
    s.ctrl.getLsbD 0 = true ∧ s.ctrl.getLsbD 2 = true ∧
    s.tx.qTxin = [] ∧ s.tx.qRsc = [] ∧ s.tx.qCvc = [] ∧ s.tx.cvCnt = 0 ∧ s.tx.frCnt = 0 ∧
    s.ports.ctl = ({ word := 0xF0#8, txin := f } : Slot) :: (repeatWord 0x10#8 s.cfg.nb ++
      (repeatWord 0x20#8 (255 * s.cfg.nb) ++ (repeatWord 0x30#8 (510 * s.cfg.nb) ++
        (repeatWord 0xF2#8 1 ++ [])))) :=
  ⟨rfl, by decide +kernel, by decide, by decide, rfl, rfl, rfl, rfl, rfl, rfl⟩

theorem witness_LockRunsItsFullLength :
    let xs : List Soft := List.replicate 4080 1
    let s : State :=
      { present symOn (repeatWord 0x60#8 4080 ++ []) with
        rx := { symOn.rx with dfState := .lock, qSym := xs ++ [1] } }
    s.ctrl.getLsbD 1 = true ∧ s.rx.dfState = .lock ∧ s.rx.dfCnt = 0 ∧ s.rx.dfScr = s.cfg.scrSeed ∧
    s.rx.dfWin = zeroWindow ∧ s.rx.qSym = xs ++ [1] ∧ xs.length = 4080 * s.cfg.nb ∧
    RoomFor s.cfg.qdepth.pay s.rx.qPay.length (4080 * s.cfg.nb) ∧
    s.ports.ctl = repeatWord 0x60#8 (4080 * s.cfg.nb) ++ [] :=
  ⟨by decide, rfl, rfl, rfl, rfl, rfl, List.length_replicate .., RoomFor.of_none _ _ rfl, rfl⟩

/-- In windowed mode, with metrics that another frame left. -/
theorem witness_ViterbiIsExactWithoutNoise :
    let f := List.replicate 255 0xA5#8
    let s : State :=
      { present symOn (repeatWord 0x70#8 2040 ++ []) with
        cfg := ref1Window
        rx := { lastPairRx with
          vtCnt := 0
          qPay := symbolsOf (mkRat 1 2) (codedBits ref1Window.toCfg f) ++ [1] } }
    0 < (mkRat 1 2 : Soft) ∧ f.length = 255 * s.cfg.nb ∧ s.ctrl.getLsbD 1 = true ∧ s.rx.vtCnt = 0 ∧
    s.rx.qPay = symbolsOf (mkRat 1 2) (codedBits s.cfg.toCfg f) ++ [1] ∧
    RoomFor s.cfg.qdepth.dec s.rx.qDec.length
      (255 * s.cfg.nb + decidedAfter s.cfg.toCfg (2040 * s.cfg.nb - 1) / 8) ∧
    s.ports.ctl = repeatWord 0x70#8 (2040 * s.cfg.nb) ++ [] :=
  ⟨by decide +kernel, List.length_replicate .., by decide, rfl, rfl, RoomFor.of_none _ _ rfl, rfl⟩

theorem witness_FrameIsCorruptIffABlockIs :
    let s : State :=
      { present symOn (repeatWord 0x80#8 1 ++ []) with rx := { symOn.rx with qDec := [badBlock].flatten ++ [7#8] } }
    s.ctrl.getLsbD 1 = true ∧ s.rx.rsdBlk = 0 ∧ s.rx.rsdBad = false ∧ s.rx.rsdBuf = [] ∧
    [badBlock].length = s.cfg.nb ∧ (∀ b ∈ [badBlock], b.length = 255) ∧
    s.rx.qDec = [badBlock].flatten ++ [7#8] ∧ RoomFor s.cfg.qdepth.rxout s.rx.qRxout.length 1 ∧
    s.ports.ctl = repeatWord 0x80#8 s.cfg.nb ++ [] :=
  ⟨by decide, rfl, rfl, rfl, rfl, by decide +kernel, rfl, RoomFor.of_none _ _ rfl, rfl⟩

/-- Of negative polarity. -/
theorem witness_CleanSyncFrameIsDelivered :
    let f := List.replicate 223 0xA5#8
    let line : Slot := { word := 0xF4#8, sym := symbolsOf (-1) (wireBits Config.ref1.toCfg f) }
    let s := present symOn (line :: (repeatWord 0x60#8 4112 ++ (repeatWord 0x70#8 2040 ++
      (repeatWord 0x80#8 1 ++ (repeatWord 0xF5#8 1 ++ [])))))
    s.cfg.toCfg = Cfg.refWith 1 ∧ f.length = 223 * 1 ∧ s.ctrl.getLsbD 1 = true ∧ s.ctrl.getLsbD 3 = true ∧
    RxAtReset s.cfg.toCfg s.rx ∧
    s.ports.ctl =
      ({ word := 0xF4#8, sym := symbolsOf (-1) (wireBits s.cfg.toCfg f) } : Slot) ::
        (repeatWord 0x60#8 (32 + 4080 * 1) ++ (repeatWord 0x70#8 (2040 * 1) ++
          (repeatWord 0x80#8 1 ++ (repeatWord 0xF5#8 1 ++ [])))) :=
  ⟨rfl, List.length_replicate .., by decide, by decide,
    ⟨rfl, rfl, rfl, rfl, rfl, rfl, rfl, by decide +kernel, rfl, rfl, rfl, rfl, rfl, by decide +kernel, rfl,
      rfl, rfl, rfl, rfl, rfl⟩, rfl⟩

/-- At a frame's last pair and before it. -/
theorem witness_FullTracebackDecidesAtTheFrameEnd :
    let s := lively lastPairRx 0x70
    let s' := lively secondPairRx 0x70
    (s.cfg.vitTb = .full ∧ RxInv s ∧ s.enabled .vitd = true ∧ (∃ t, exec .vitd s = .next t) ∧
      s.rx.vtCnt + 1 = 2040 * s.cfg.nb) ∧
    (s'.cfg.vitTb = .full ∧ RxInv s' ∧ s'.enabled .vitd = true ∧ (∃ t, exec .vitd s' = .next t) ∧
      s'.rx.vtCnt + 1 ≠ 2040 * s'.cfg.nb) :=
  ⟨⟨rfl, (lively_rxInv _).1, (lively_enabled _ .vitd (by decide)).1,
      ⟨_, exec_of_enabled (lively_enabled _ .vitd (by decide)).1⟩, rfl⟩,
    ⟨rfl, (lively_rxInv _).2, (lively_enabled _ .vitd (by decide)).2,
      ⟨_, exec_of_enabled (lively_enabled _ .vitd (by decide)).2⟩, by decide⟩⟩

theorem witness_ViterbiStartsEveryFrameAfresh :
    ((lively { lastPairRx with vtCnt := 0 } 0x70).rx.vtCnt = 0 ∧
      (lively { lastPairRx with vtCnt := 0 } 0x70).enabled .vitd = true) ∧
    FiniteStates (lively secondPairRx 0x70) ∧ ∃ t, step (lively secondPairRx 0x70) = .next t :=
  ⟨⟨rfl, by decide +kernel⟩, secondPair_finiteStates, _,
    (step_of_decode (i := .vitd) rfl).trans (exec_of_enabled (lively_enabled _ .vitd (by decide)).2)⟩

/-- Hunting and locked. -/
theorem witness_PolarityIsRepaired :
    let s := lively lastPairRx 0x60
    let s' := lively { lastPairRx with qSym := [-1] } 0x60
    let l := lively secondPairRx 0x60
    let l' := lively { secondPairRx with qSym := [-1], dfInv := true } 0x60
    (s'.cfg = s.cfg ∧ s'.ctrl = s.ctrl ∧ Mirror s.rx s'.rx ∧
      ∃ t t', exec .defr s = .next t ∧ exec .defr s' = .next t') ∧
    (l'.cfg = l.cfg ∧ l'.ctrl = l.ctrl ∧ Mirror l.rx l'.rx ∧
      ∃ t t', exec .defr l = .next t ∧ exec .defr l' = .next t') :=
  ⟨⟨rfl, rfl, ⟨by decide +kernel, rfl, by decide +kernel, fun h => absurd h (by decide), rfl⟩, _, _,
      exec_of_enabled (by decide +kernel), exec_of_enabled (by decide +kernel)⟩,
    ⟨rfl, rfl, ⟨by decide +kernel, rfl, by decide +kernel, fun _ => rfl, rfl⟩, _, _,
      exec_of_enabled (by decide +kernel), exec_of_enabled (by decide +kernel)⟩⟩

/-- For `StepKeepsTheTxPathAligned`, `StepKeepsTheRxPathAligned`, `StepKeepsStreamsWithinCapacity` and
`OnlyControlOperationsWriteCtrl`: a step at each of the eight stage words. -/
theorem witness_steps_keep (i : Instr) (h : i ∈ stageOps) :
    let s := lively lastPairRx (encode i)
    TxInv s ∧ RxInv s ∧ Capacities s ∧ CtrlInv s ∧ ∃ t, step s = .next t :=
  ⟨lively_txInv _ _, (lively_rxInv _).1, lively_capacities _ _, show 0x03#8 &&& 0xF0#8 = 0#8 by decide, _,
    (step_of_decode (by revert i; decide)).trans (exec_of_enabled (lively_enabled _ i h).1)⟩

/-- Every premise on `CTRL` met by an operation that changes the bit. -/
theorem witness_OnlyControlOperationsWriteCtrl :
    ∃ t r, exec .txstartb base = .next t ∧ t.ctrl.getLsbD 0 ≠ base.ctrl.getLsbD 0 ∧
      t.ctrl.getLsbD 2 ≠ base.ctrl.getLsbD 2 ∧ exec .rxstarts base = .next r ∧
      r.ctrl.getLsbD 1 ≠ base.ctrl.getLsbD 1 ∧ r.ctrl.getLsbD 3 ≠ base.ctrl.getLsbD 3 :=
  ⟨_, _, rfl, by decide, by decide, rfl, by decide, by decide⟩

theorem witness_NoOperationWritesTheConfiguration :
    ∃ t, exec .rst busy = .next t ∧ stepRun 1 (present busy [{ word := 0x01#8 }]) = .next t :=
  ⟨_, rfl, rfl⟩

theorem witness_EnabledStagesCommute :
    Instr.rsenc ∈ stageOps ∧ Instr.cvenc ∈ stageOps ∧ Instr.rsenc ≠ Instr.cvenc ∧
    (lively lastPairRx 0x10).enabled .rsenc = true ∧ (lively lastPairRx 0x10).enabled .cvenc = true :=
  ⟨by decide, by decide, by decide, (lively_enabled _ _ (by decide)).1, (lively_enabled _ _ (by decide)).1⟩

/-- Two states that share the transmit half, and two that share the receive half. -/
theorem witness_PathsAreIndependent :
    let s := lively lastPairRx 0x10
    let s' := lively secondPairRx 0x10
    let r := { s with ctrl := 0x02#8, tx := base.tx }
    SameTx s s' ∧ s'.ports.txout = s.ports.txout ∧ s'.ports.bits = s.ports.bits ∧
    (∃ t t', exec .rsenc s = .next t ∧ exec .rsenc s' = .next t') ∧
    SameRx s r ∧ r.ports.rxout = s.ports.rxout ∧
    ∃ t t', exec .rxget s = .next t ∧ exec .rxget r = .next t' :=
  ⟨⟨rfl, rfl, rfl, rfl, rfl⟩, rfl, rfl,
    ⟨_, _, exec_of_enabled (lively_enabled _ _ (by decide)).1,
      exec_of_enabled (lively_enabled _ _ (by decide)).2⟩,
    ⟨rfl, rfl, rfl, by decide, by decide⟩, rfl, _, _, rfl, rfl⟩

/-- For `EachStreamHasOneProducerAndOneConsumer` and `FlagsAreWrittenByTheirStageAlone`. -/
theorem witness_stage_firings (i : Instr) (h : i ∈ stageOps) :
    (∃ t, exec i (lively lastPairRx 0x00) = .next t) ∧
    i ∉ [Instr.rst, .txstart, .txstartb, .rxstart, .rxstarts] ∧ i ∉ [Instr.rst, .rxstart, .rxstarts] :=
  ⟨⟨_, exec_of_enabled (lively_enabled _ i h).1⟩, by revert i; decide, by revert i; decide⟩

/-- A lock that sets `DF_INV` and a lock's end. (`test_rsdec` has the firing that ends a bad frame.) -/
theorem witness_FlagsAreWrittenByTheirStageAlone :
    (after (huntingAt [] (-1)) 0x60).rx.dfInv ≠ (huntingAt [] (-1)).rx.dfInv ∧
    (after { symOn with rx := { symOn.rx with dfState := .lock, dfCnt := 4079, qSym := [1] } } 0x60).rx.dfState =
      .hunt := by decide +kernel

theorem witness_OnlyValidConfigurationsHaveAnInstance :
    (∃ k : Config, k.toCfg = Cfg.refWith 1) ∧ ¬∃ k : Config, k.toCfg = Cfg.refWith 0 :=
  ⟨⟨.ref1, rfl⟩, fun ⟨k, hk⟩ => absurd k.ok (by rw [hk]; decide +kernel)⟩

end Sys2Proof.Tests
end

