-- ==== Sys2Proof/Proofs/Configuration.lean ====
section
/-! R27: the configuration is no register. No named update of `State` reaches it, so neither an operation
carried out nor the line dropped after it does, and a run keeps what each of its steps keeps. -/

namespace Sys2Proof.Machine

/-- `RXGET` alone asks the state what to hand over (`returnFrame`); every other operation is one or two
named updates, none of them of the configuration. -/
@[simp] theorem done_cfg (s : State) (i : Instr) : (done s i).cfg = s.cfg := by
  cases i
  case rxget => exact s.returnFrame_cfg
  all_goals simp [done]

theorem exec_keeps_cfg {i : Instr} {s t : State} (h : exec i s = .next t) : t.cfg = s.cfg := by
  obtain ⟨_, rfl⟩ | ⟨_, rfl⟩ := exec_cases h
  · calc (done s i).advance.cfg = (done s i).cfg := State.advance_cfg _
      _ = s.cfg := done_cfg s i
  · rfl

theorem step_keeps_cfg {s t : State} (h : step s = .next t) : t.cfg = s.cfg := by
  obtain ⟨_, _, hexec⟩ := step_cases h
  exact exec_keeps_cfg hexec

theorem stepRun_keeps_cfg {n : Nat} {s t : State} (h : stepRun n s = .next t) : t.cfg = s.cfg :=
  stepRun_keeps (P := fun u => u.cfg = s.cfg) (fun _ _ hu hstep => (step_keeps_cfg hstep).trans hu) rfl h

end Sys2Proof.Machine

open Sys2Proof.Machine in
/-- Settles O54: an operation writes no field of `CFG` (R27), and so no run of steps does. -/
theorem noOperationWritesTheConfiguration : Obligations.NoOperationWritesTheConfiguration :=
  ⟨fun _ _ _ => exec_keeps_cfg, fun _ _ _ => stepRun_keeps_cfg⟩
end

