-- ==== Sys2Proof/Proofs/Encoding.lean ====
section
/-! The operation map (R102 to R104). A word is an operation's just when it is in the map, and then its two
fields are those of `WordFields.Statement`; what is reserved follows from that. -/

namespace Sys2Proof

/-! ## The words of the map -/

/-- The family of Laws/PerInstr.lean, put together. -/
theorem wordFields : ∀ i : Instr, Laws.WordFields.Statement i
  | .nop => Laws.WordFields.nop
  | .rst => Laws.WordFields.rst
  | .txstart => Laws.WordFields.txstart
  | .txstartb => Laws.WordFields.txstartb
  | .txstop => Laws.WordFields.txstop
  | .rxstart => Laws.WordFields.rxstart
  | .rxstarts => Laws.WordFields.rxstarts
  | .rxstop => Laws.WordFields.rxstop
  | .rdstat => Laws.WordFields.rdstat
  | .rsenc => Laws.WordFields.rsenc
  | .cvenc => Laws.WordFields.cvenc
  | .frmr => Laws.WordFields.frmr
  | .rrci => Laws.WordFields.rrci
  | .rrcd => Laws.WordFields.rrcd
  | .defr => Laws.WordFields.defr
  | .vitd => Laws.WordFields.vitd
  | .rsdec => Laws.WordFields.rsdec
  | .txput => Laws.WordFields.txput
  | .txget => Laws.WordFields.txget
  | .bitget => Laws.WordFields.bitget
  | .rxput => Laws.WordFields.rxput
  | .symput => Laws.WordFields.symput
  | .rxget => Laws.WordFields.rxget

@[simp] theorem decode_encode (i : Instr) : decode (encode i) = .op i := by
  obtain ⟨_, _, hdecode, _⟩ := wordFields i
  exact hdecode

@[simp] theorem wordDefined_encode (i : Instr) : wordDefined (encode i) = true := by
  obtain ⟨_, hdefined, _, _⟩ := wordFields i
  exact hdefined

/-- The operations in the order of the map. -/
def mapOperations : List Instr :=
  [.nop, .rst, .txstart, .txstartb, .txstop, .rxstart, .rxstarts, .rxstop, .rdstat] ++
  [.rsenc, .cvenc, .frmr, .rrci, .rrcd, .defr, .vitd, .rsdec] ++
  [.txput, .txget, .bitget, .rxput, .symput, .rxget]

theorem definedWords_eq_map_encode : definedWords = mapOperations.map encode := rfl

/-- The map holds the encodings of the operations and nothing else. -/
theorem wordDefined_iff (w : Byte) : wordDefined w = true ↔ ∃ i, encode i = w := by
  constructor
  · intro h
    have hmem : w ∈ mapOperations.map encode := by
      simpa [wordDefined, definedWords_eq_map_encode] using h
    obtain ⟨i, _, hi⟩ := List.mem_map.1 hmem
    exact ⟨i, hi⟩
  · rintro ⟨i, rfl⟩
    exact wordDefined_encode i

/-- The fields of a word of the map (R100): control 0 with functions 0 to 8, a stage 1 to 8 with function 0
alone, a host move 0xF with functions 0 to 5. -/
theorem fields_of_wordDefined {w : Byte} (h : wordDefined w = true) :
    (unitField w = 0 ∧ fnField w ≤ 8) ∨ (1 ≤ unitField w ∧ unitField w ≤ 8 ∧ fnField w = 0) ∨
      (unitField w = 15 ∧ fnField w ≤ 5) := by
  obtain ⟨i, rfl⟩ := (wordDefined_iff w).1 h
  obtain ⟨_, _, _, hfields⟩ := wordFields i
  exact hfields

/-! ## The decoder on a word of the opcode table -/

/-- All eight bits of a word are significant. -/
@[simp] theorem tableWord_toNat (w : Byte) : tableWord 8 w.toNat = w := by
  rw [tableWord, Nat.mod_eq_of_lt w.isLt, BitVec.ofNat_toNat, BitVec.setWidth_eq]

theorem decodeTableWord_of_op {w : Byte} {i : Instr} (h : decode w = .op i) :
    decodeTableWord 8 w.toNat = some i := by
  simp only [decodeTableWord, tableWord_toNat, h]

theorem decodeTableWord_of_reserved {w : Byte} (h : decode w = .reserved w) :
    decodeTableWord 8 w.toNat = none := by
  simp only [decodeTableWord, tableWord_toNat, h]

/-! ## The reserved words -/

theorem not_wordDefined_of_reserved_unit {w : Byte} (h : 9 ≤ unitField w ∧ unitField w ≤ 14) :
    wordDefined w = false := by
  refine Bool.eq_false_iff.2 fun hdefined => ?_
  have hfields := fields_of_wordDefined hdefined
  omega

theorem not_wordDefined_of_reserved_fn {w : Byte}
    (h : 1 ≤ unitField w ∧ unitField w ≤ 8 ∧ fnField w ≠ 0) : wordDefined w = false := by
  refine Bool.eq_false_iff.2 fun hdefined => ?_
  have hfields := fields_of_wordDefined hdefined
  omega

/-- Of the 256 byte values, those of the map are the 23 it lists, in its order. -/
theorem filter_wordDefined_range :
    ((List.range 256).filter fun n => wordDefined (BitVec.ofNat 8 n)) = definedWords.map BitVec.toNat := by
  decide +kernel

/-- The 256 byte values less the 23 of the map. -/
theorem reservedWords_length :
    ((List.range 256).filter fun n => !wordDefined (BitVec.ofNat 8 n)).length = 233 := by
  have hsplit := List.length_eq_length_filter_add (l := List.range 256)
    fun n => wordDefined (BitVec.ofNat 8 n)
  have hdefined : (definedWords.map BitVec.toNat).length = 23 := rfl
  rw [filter_wordDefined_range, hdefined, List.length_range] at hsplit
  omega

end Sys2Proof

namespace Sys2Proof.Machine

/-- A word that is no operation's, in front of a line, is refused by name. -/
theorem step_of_reserved {s : State} {w : Byte} (h : decode s.presented = .reserved w) :
    step s = .refused (.reservedWord w) := by
  simp only [step, h]

end Sys2Proof.Machine

open Sys2Proof Sys2Proof.Machine in
/-- Settles O1: the map is the set of encodings, each decodes back, and the rest is reserved (R103). -/
theorem everyWordDecodesAsTheMapSays : Obligations.EveryWordDecodesAsTheMapSays := by
  refine ⟨fun i => ⟨decode_encode i, decodeTableWord_of_op (decode_encode i)⟩, fun w hdefined => ?_,
    fun w hreserved => ?_⟩
  · obtain ⟨i, rfl⟩ := (wordDefined_iff w).1 hdefined
    exact ⟨i, decode_encode i, rfl⟩
  · have hdecode := decode_of_not_wordDefined w hreserved
    exact ⟨hdecode, decodeTableWord_of_reserved hdecode⟩

open Sys2Proof Sys2Proof.Machine in
/-- Settles O3: a reserved word reaches no operation, and the fields of the map's words shut out the reserved
units and functions (R104). -/
theorem reservedWordIsRefused : Obligations.ReservedWordIsRefused :=
  ⟨fun s hreserved => step_of_reserved (decode_of_not_wordDefined s.presented hreserved),
    fun _ => not_wordDefined_of_reserved_unit, fun _ => not_wordDefined_of_reserved_fn,
    reservedWords_length⟩
end

