-- ==== Sys2Proof/Proofs/ViterbiFrames.lean ====
section
/-! R205: the Viterbi decoder at a frame's start and the trellis states reached from there. A frame's first
pair overwrites the registers it starts from, and add-compare-select reaches state `n` just when it reaches
one of the predecessors `n / 2` and `n / 2 + 32`, so that each pair doubles the bound below which the metrics
are finite, up to all 64. -/

namespace Sys2Proof.Machine

/-! ## A frame's first pair -/

/-- The metrics at a frame's start as R205 writes them. -/
theorem startMetrics_eq_ofFn :
    startMetrics = Vector.ofFn fun n : Fin 64 => if n = 0 then .fin 0 else .inf := by
  simp only [startMetrics, Fin.val_eq_zero_iff]

theorem vitStart_of_first {r : RxPath} (h : r.vtCnt = 0) :
    vitStart r = { r with vtPm := startMetrics, vtSurv := [], vtAcc := [], vtNout := 0 } := if_pos h

theorem vitStart_of_inside {r : RxPath} (h : r.vtCnt ≠ 0) : vitStart r = r := if_neg h

@[simp] theorem vitStart_vitStart (r : RxPath) : vitStart (vitStart r) = vitStart r := by
  by_cases h : r.vtCnt = 0
  · rw [vitStart_of_first h]
    exact vitStart_of_first h
  · rw [vitStart_of_inside h, vitStart_of_inside h]

/-- Setting the decoder anew touches no stream and not the position in the frame. -/
theorem vitStart_frame (r : RxPath) :
    (vitStart r).qPay = r.qPay ∧ (vitStart r).qDec = r.qDec ∧ (vitStart r).vtCnt = r.vtCnt := by
  by_cases h : r.vtCnt = 0
  · rw [vitStart_of_first h]
    exact ⟨rfl, rfl, rfl⟩
  · rw [vitStart_of_inside h]
    exact ⟨rfl, rfl, rfl⟩

/-- A firing does not see what `vitStart` overwrites. -/
@[simp] theorem vitdFire_vitStart (c : Cfg) (r : RxPath) : vitdFire c (vitStart r) = vitdFire c r := by
  obtain ⟨hpay, _, _⟩ := vitStart_frame r
  simp only [vitdFire, vitStart_vitStart, hpay]

@[simp] theorem vitdEnabled_setRx_vitStart (s : State) :
    (s.setRx (vitStart s.rx)).vitdEnabled = s.vitdEnabled := by
  obtain ⟨hpay, hdec, hcnt⟩ := vitStart_frame s.rx
  simp only [State.vitdEnabled, vitdRoom, State.setRx_rxEn, State.setRx_rx, State.setRx_cfg, hpay, hdec, hcnt]

/-- An enabled `VITD` answers from a path set anew what it answers from the path itself. -/
theorem exec_vitd_setRx_vitStart {s : State} (h : s.vitdEnabled = true) :
    exec .vitd (s.setRx (vitStart s.rx)) = exec .vitd s := by
  simp only [exec_vitd, vitdEnabled_setRx_vitStart, h, State.complete_true, State.setRx_rx, State.setRx_cfg,
    vitdFire_vitStart]
  rfl

/-! ## Which metrics are finite -/

theorem Metric.add_eq_inf_iff (m : Metric) (x : Soft) : m.add x = .inf ↔ m = .inf := by
  cases m <;> simp [Metric.add]

/-- The lesser of two metrics is `+inf` just when both are (R136). -/
theorem Metric.select_eq_inf_iff (a b : Metric) :
    (if b.lt a then b else a) = .inf ↔ a = .inf ∧ b = .inf := by
  cases a with
  | inf => cases b <;> simp [Metric.lt]
  | fin v =>
    cases b with
    | inf => simp [Metric.lt]
    | fin w => split <;> simp

/-- Add-compare-select leaves a state unreached just when both its predecessors were (R203). -/
theorem acsMetrics_eq_inf_iff (c : Cfg) (pm : Vector Metric 64) (r1 r2 : Soft) (n : Fin 64) :
    (acsMetrics c pm r1 r2)[n] = .inf ↔ pm[n.val / 2] = .inf ∧ pm[n.val / 2 + 32] = .inf := by
  rw [acsMetrics_get, acsDecision, Metric.select_eq_inf_iff, acsMetric0, acsMetric1, Metric.add_eq_inf_iff,
    Metric.add_eq_inf_iff]

/-- Exactly the trellis states below `2^min(t,6)` have finite metrics: the metrics of R205 after `t` pairs. -/
def FiniteAfter (t : Nat) (pm : Vector Metric 64) : Prop :=
  ∀ n : Fin 64, pm[n] = .inf ↔ 2 ^ min t 6 ≤ n.val

theorem finiteStates_iff (s : State) :
    FiniteStates s ↔ (s.rx.vtCnt ≠ 0 → FiniteAfter s.rx.vtCnt s.rx.vtPm) := Iff.rfl

theorem finiteAfter_startMetrics : FiniteAfter 0 startMetrics := by
  intro n
  rw [Fin.getElem_fin, startMetrics_get]
  simp only [Nat.zero_min, pow_zero, Nat.one_le_iff_ne_zero]
  split <;> simp [*]

/-- Doubling the bound, below 64 states. -/
theorem two_pow_min_succ_le_iff (t : Nat) {n : Nat} (hn : n < 64) :
    2 ^ min (t + 1) 6 ≤ n ↔ 2 ^ min t 6 ≤ n / 2 := by
  rcases Nat.lt_or_ge t 6 with hlt | hge
  · rw [Nat.min_eq_left (by omega : t + 1 ≤ 6), Nat.min_eq_left (by omega : t ≤ 6), pow_succ]
    omega
  · rw [Nat.min_eq_right (by omega : 6 ≤ t + 1), Nat.min_eq_right hge]
    omega

/-- One pair doubles the states reached. The predecessor `n / 2` decides: where it is not reached, the one
32 above is not either. -/
theorem finiteAfter_acsMetrics {t : Nat} {pm : Vector Metric 64} (h : FiniteAfter t pm) (c : Cfg)
    (r1 r2 : Soft) : FiniteAfter (t + 1) (acsMetrics c pm r1 r2) := by
  intro n
  have hlow : pm[n.val / 2] = .inf ↔ 2 ^ min t 6 ≤ n.val / 2 := h ⟨n.val / 2, by omega⟩
  have hhigh : pm[n.val / 2 + 32] = .inf ↔ 2 ^ min t 6 ≤ n.val / 2 + 32 := h ⟨n.val / 2 + 32, by omega⟩
  rw [acsMetrics_eq_inf_iff, hlow, hhigh, two_pow_min_succ_le_iff t n.isLt]
  omega

/-! ## Every step keeps the finite states -/

/-- The metrics a firing starts from are those of its position in the frame. -/
theorem finiteAfter_vitStart {r : RxPath} (h : r.vtCnt ≠ 0 → FiniteAfter r.vtCnt r.vtPm) :
    FiniteAfter r.vtCnt (vitStart r).vtPm := by
  by_cases hcnt : r.vtCnt = 0
  · rw [vitStart_of_first hcnt, hcnt]
    exact finiteAfter_startMetrics
  · rw [vitStart_of_inside hcnt]
    exact h hcnt

theorem vitdFire_vtPm (c : Cfg) (r : RxPath) :
    (vitdFire c r).vtPm =
      acsMetrics c (vitStart r).vtPm ((popped r.qPay 2).getD 0 0) ((popped r.qPay 2).getD 1 0) := rfl

/-- A position counter that did not return to 0 went up by one. -/
theorem countTo_of_ne_zero {n len : Nat} (h : countTo n len ≠ 0) : countTo n len = n + 1 :=
  if_neg fun hlast => h (if_pos hlast)

theorem finiteAfter_vitdFire {c : Cfg} {r : RxPath} (h : r.vtCnt ≠ 0 → FiniteAfter r.vtCnt r.vtPm)
    (hcnt : (vitdFire c r).vtCnt ≠ 0) : FiniteAfter (vitdFire c r).vtCnt (vitdFire c r).vtPm := by
  rw [vitdFire_vtCnt] at hcnt
  rw [vitdFire_vtCnt, vitdFire_vtPm, countTo_of_ne_zero hcnt]
  exact finiteAfter_acsMetrics (finiteAfter_vitStart h) c _ _

/-- `VITD`, `RST` and the receive starts alone write the decoder's position and metrics (R23, R241). -/
theorem done_keeps_vtCnt_vtPm (s : State) {i : Instr} (h : i ∉ [Instr.vitd, .rst, .rxstart, .rxstarts]) :
    (done s i).rx.vtCnt = s.rx.vtCnt ∧ (done s i).rx.vtPm = s.rx.vtPm := by
  cases i
  case vitd | rst | rxstart | rxstarts => simp at h
  all_goals simp [done]

theorem done_keeps_finiteStates {s : State} (h : FiniteStates s) (i : Instr) : FiniteStates (done s i) := by
  by_cases hi : i ∈ [Instr.vitd, .rst, .rxstart, .rxstarts]
  · simp only [List.mem_cons, List.not_mem_nil, or_false] at hi
    obtain rfl | rfl | rfl | rfl := hi
    · exact finiteAfter_vitdFire h
    all_goals exact fun hcnt => absurd rfl hcnt
  · obtain ⟨hcnt, hpm⟩ := done_keeps_vtCnt_vtPm s hi
    rw [finiteStates_iff, hcnt, hpm]
    exact h

theorem step_keeps_finiteStates {s t : State} (h : FiniteStates s) (hstep : step s = .next t) :
    FiniteStates t := by
  obtain ⟨i, _, hexec⟩ := step_cases hstep
  obtain ⟨_, rfl⟩ | ⟨_, rfl⟩ := exec_cases hexec
  · exact done_keeps_finiteStates h i
  · exact h

end Sys2Proof.Machine

open Sys2Proof.Machine in
/-- Settles O48: a frame's first pair starts from `vitStart`, which reads none of the registers it sets, and
every step keeps the states below `2^min(t,6)` the reached ones (R205). -/
theorem viterbiStartsEveryFrameAfresh : Obligations.ViterbiStartsEveryFrameAfresh := by
  refine ⟨fun s hfirst henabled => ?_, fun _ _ => step_keeps_finiteStates⟩
  rw [← startMetrics_eq_ofFn, ← vitStart_of_first hfirst]
  exact (exec_vitd_setRx_vitStart henabled).symm
end

