-- ==== Sys2Proof/Proofs/ControlOps.lean ====
section
/-! The control operations (R235 to R243). Each is always enabled, so what it answers is its update with the
presented line dropped; what follows for the stages is read off their enabling conditions (R105). -/

namespace Sys2Proof.Machine

/-! ## Lines of `NOP` -/

theorem advance_of_ctl_cons {s : State} {x : Slot} {rest : List Slot} (h : s.ports.ctl = x :: rest) :
    s.advance = { s with ports := { s.ports with ctl := rest } } := by
  simp only [State.advance, h, List.drop_succ_cons, List.drop_zero]

theorem presented_of_ctl_cons {s : State} {x : Slot} {rest : List Slot} (h : s.ports.ctl = x :: rest) :
    s.presented = x.word := by
  simp only [State.presented, State.slot, h, List.headD_cons]

/-- A step at a line of `NOP` drops the line. -/
theorem step_of_presented_nop {s : State} (h : s.presented = encode .nop) : step s = .next s.advance := by
  have hdecode : decode s.presented = .op .nop := by rw [h, decode_encode]
  rw [step_of_decode hdecode, exec_nop, State.complete_true]

/-- Lines of `NOP` are dropped one by one, and nothing else changes. -/
theorem stepRun_nops (n : Nat) (rest : List Slot) {s : State}
    (h : s.ports.ctl = repeatWord (encode .nop) n ++ rest) :
    stepRun n s = .next { s with ports := { s.ports with ctl := rest } } := by
  induction n generalizing s with
  | zero =>
    rw [repeatWord_zero, List.nil_append] at h
    rw [stepRun_zero, ← h]
  | succ n ih =>
    rw [repeatWord_succ, List.cons_append] at h
    have hstep : step s = .next s.advance := step_of_presented_nop (presented_of_ctl_cons h)
    have hctl : s.advance.ports.ctl = repeatWord (encode .nop) n ++ rest := by rw [advance_of_ctl_cons h]
    rw [stepRun_succ hstep, ih hctl, advance_of_ctl_cons h]

/-! ## The enable bits -/

/-- `TXSTOP` masks bit 0 of `CTRL` (R242). -/
theorem exec_txstop_eq_mask (s : State) :
    exec .txstop s = .next { s.advance with ctrl := s.ctrl &&& ~~~0x01#8 } := rfl

/-- `RXSTOP` masks bit 1 of `CTRL` (R243). -/
theorem exec_rxstop_eq_mask (s : State) :
    exec .rxstop s = .next { s.advance with ctrl := s.ctrl &&& ~~~0x02#8 } := rfl

/-- With `TX_EN = 0` no transmit stage is enabled (R105). -/
theorem enabled_eq_false_of_txEn {s : State} {i : Instr} (hi : i ∈ [Instr.rsenc, .cvenc, .frmr, .rrci])
    (h : s.txEn = false) : s.enabled i = false := by
  simp only [List.mem_cons, List.not_mem_nil, or_false] at hi
  obtain rfl | rfl | rfl | rfl := hi
  · simp only [State.enabled, State.rsencEnabled, h, Bool.false_and]
  · simp only [State.enabled, State.cvencEnabled, h, Bool.false_and]
  · simp only [State.enabled, State.frmrEnabled, h, Bool.false_and]
  · simp only [State.enabled, State.rrciEnabled, h, Bool.false_and]

/-- With `RX_EN = 0` no receive stage is enabled (R105). -/
theorem enabled_eq_false_of_rxEn {s : State} {i : Instr} (hi : i ∈ [Instr.rrcd, .defr, .vitd, .rsdec])
    (h : s.rxEn = false) : s.enabled i = false := by
  simp only [List.mem_cons, List.not_mem_nil, or_false] at hi
  obtain rfl | rfl | rfl | rfl := hi
  · simp only [State.enabled, State.rrcdEnabled, h, Bool.false_and]
  · simp only [State.enabled, State.defrEnabled, h, Bool.false_and]
  · simp only [State.enabled, State.vitdEnabled, h, Bool.false_and]
  · simp only [State.enabled, State.rsdecEnabled, h, Bool.false_and]

/-- `TXSTOP` leaves `TX_EN = 0`. -/
theorem txEn_of_exec_txstop {s t : State} (h : exec .txstop s = .next t) : t.txEn = false := by
  rw [exec_txstop, State.complete_true] at h
  cases h
  rw [State.advance_txEn, State.txstop_txEn]

/-- `RXSTOP` leaves `RX_EN = 0`. -/
theorem rxEn_of_exec_rxstop {s t : State} (h : exec .rxstop s = .next t) : t.rxEn = false := by
  rw [exec_rxstop, State.complete_true] at h
  cases h
  rw [State.advance_rxEn, State.rxstop_rxEn]

/-- `RXSTOP` leaves the receive path, and with it the frame results waiting in `Q_RXOUT`. -/
theorem rx_of_exec_rxstop {s t : State} (h : exec .rxstop s = .next t) : t.rx = s.rx := by
  rw [exec_rxstop, State.complete_true] at h
  cases h
  rw [State.advance_rx, State.setCtrl_rx]

/-- Whether `RXGET` is enabled is a matter of the receive path alone, not of `CTRL` (R250). -/
theorem enabled_rxget_congr {s t : State} (h : t.rx = s.rx) : t.enabled .rxget = s.enabled .rxget := by
  simp only [State.enabled, State.rxgetEnabled, h]

/-! ## The transmit starts -/

/-- Both transmit starts put the transmit path into its reset state (R241). -/
theorem tx_of_exec_txstarts {s t : State} (h : exec .txstart s = .next t ∨ exec .txstartb s = .next t) :
    t.tx = .reset s.cfg.toCfg := by
  rw [exec_txstart, exec_txstartb, State.complete_true, State.complete_true] at h
  obtain h | h := h
  · cases h
    rw [State.advance_tx, State.startTx_tx]
  · cases h
    rw [State.advance_tx, State.startTx_tx]

end Sys2Proof.Machine

open Sys2Proof.Machine in
/-- Settles O7, by induction on the number of `NOP` lines (R235). -/
theorem nopChangesNothing : Obligations.NopChangesNothing :=
  ⟨rfl, exec_nop, fun _ n rest => stepRun_nops n rest⟩

open Sys2Proof.Machine in
/-- Settles O12: the stops clear their enable bit, which every stage of the path needs and `RXGET` does not
look at (R242, R243). -/
theorem stopsClearTheEnableBitOnly : Obligations.StopsClearTheEnableBitOnly := by
  refine ⟨rfl, rfl, fun s => ⟨exec_txstop_eq_mask s, exec_rxstop_eq_mask s, fun t hstop i hi => ?_,
    fun t hstop => ⟨fun i hi => ?_, ?_⟩⟩⟩
  · exact enabled_eq_false_of_txEn hi (txEn_of_exec_txstop hstop)
  · exact enabled_eq_false_of_rxEn hi (rxEn_of_exec_rxstop hstop)
  · exact enabled_rxget_congr (rx_of_exec_rxstop hstop)
end

