-- ==== Sys2Proof/Proofs/HostMoves.lean ====
section
/-! The host data moves. `TXPUT` looks at its operand's length and the room in `Q_TXIN`, and at no bit of
`CTRL` (R245); what it pushed stands in the transmit path, which a start operation resets (R241). -/

namespace Sys2Proof.Machine

theorem exec_txput_of_frame {s : State} (hframe : s.slot.txin.length = 223 * s.cfg.nb)
    (hroom : RoomFor s.cfg.qdepth.txin s.tx.qTxin.length s.slot.txin.length) :
    exec .txput s = .next { s.advance with tx := { s.tx with qTxin := s.tx.qTxin ++ s.slot.txin } } := by
  have henabled : s.enabled .txput = true := s.txputEnabled_iff.2 ⟨hframe, hroom⟩
  exact exec_of_enabled henabled

/-- A start operation discards what waits in `Q_TXIN`. -/
theorem qTxin_of_exec_txstarts {s t : State} (h : exec .txstart s = .next t ∨ exec .txstartb s = .next t) :
    t.tx.qTxin = [] := by
  rw [tx_of_exec_txstarts h, TxPath.reset]

end Sys2Proof.Machine

open Sys2Proof.Machine in
/-- Settles O23: a whole frame is pushed, any other operand refused, and a start empties the stream (R245). -/
theorem txputTakesWholeFramesOnly : Obligations.TxputTakesWholeFramesOnly :=
  ⟨rfl, fun _ => ⟨exec_txput_of_frame, exec_txput_of_ne, fun _ _ _ => qTxin_of_exec_txstarts⟩⟩
end

