-- ==== Sys2Proof/Proofs/ScramblerRegister.lean ====
section
/-! R163: the register of the scrambler never leaves its `SCR_LEN` bits. -/

namespace Sys2Proof.Machine

/-- One step keeps the register in `SCR_LEN` bits: the old bits move down, the new one enters below the top. -/
theorem scrNext_toNat_lt {c : Cfg} (hlen : 1 ≤ c.scrLen ∧ c.scrLen ≤ 32) {s : BitVec 32}
    (hs : s.toNat < 2 ^ c.scrLen) : (scrNext c s).toNat < 2 ^ c.scrLen := by
  have hshift : (s >>> 1).toNat < 2 ^ c.scrLen := by
    rw [BitVec.toNat_ushiftRight, Nat.shiftRight_eq_div_pow]
    omega
  have hnew : (if parity (s &&& c.scrTaps) then 1#32 <<< (c.scrLen - 1) else 0#32).toNat < 2 ^ c.scrLen := by
    split
    · rw [BitVec.toNat_shiftLeft, BitVec.toNat_ofNat, Nat.one_mod, Nat.one_shiftLeft]
      exact lt_of_le_of_lt (Nat.mod_le _ _) (Nat.pow_lt_pow_right (by omega) (by omega))
    · exact Nat.two_pow_pos _
  rw [scrNext, BitVec.toNat_or]
  exact Nat.or_lt_two_pow hshift hnew

theorem scrIterate_toNat_lt {c : Cfg} (hlen : 1 ≤ c.scrLen ∧ c.scrLen ≤ 32) (n : Nat) {s : BitVec 32}
    (hs : s.toNat < 2 ^ c.scrLen) : (scrIterate c n s).toNat < 2 ^ c.scrLen := by
  induction n generalizing s with
  | zero => exact hs
  | succ n ih => exact ih (scrNext_toNat_lt hlen hs)

/-- The same for a valid configuration. -/
theorem scrIterate_fits (c : Config) (n : Nat) {s : BitVec 32} (hs : s.toNat < 2 ^ c.scrLen) :
    (scrIterate c.toCfg n s).toNat < 2 ^ c.scrLen := by
  obtain ⟨hlow, hhigh⟩ := c.scrLen_bounds
  exact scrIterate_toNat_lt ⟨by omega, hhigh⟩ n hs

end Sys2Proof.Machine
end

