-- ==== Sys2Proof/Proofs/TxInvariant.lean ====
section
/-! R24, R31 to R35, R77: the transmit path stays in step with its frames. The invariant speaks of the
configuration, the transmit path and `TX_TAP` alone, so only the operations that write one of these have
anything to show; each stage takes from one side of an alignment what it gives to the other. -/

namespace Sys2Proof.Machine

theorem TxInv.congr {s t : State} (h : TxInv s) (hcfg : t.cfg = s.cfg) (htx : t.tx = s.tx)
    (htap : t.txTap = s.txTap) : TxInv t := by
  obtain ⟨hblocks, hcvRange, hfrRange, hcv, hfr, hwidth, hphase, hhist, hdry⟩ := h
  constructor <;> simp only [hcfg, htx, htap] <;> assumption

/-- A transmit path at reset is in step. -/
theorem TxInv.of_reset {s : State} (h : s.tx = .reset s.cfg.toCfg) : TxInv s := by
  have hbytes := s.cfg.frameRsBytes_pos
  have hcvBytes := s.cfg.frameCvBytes_eq
  obtain ⟨hseed, _⟩ := s.cfg.scrSeed_fits
  constructor
  case scrPhase => exact fun hcnt => absurd (by rw [h]; rfl) hcnt
  all_goals simp only [h, TxPath.reset, List.length_nil, List.length_replicate, Nat.zero_mod, Nat.zero_div,
    Nat.mul_zero, Nat.add_zero, implies_true]
  · omega
  · omega
  · exact hseed

/-! ## The stages -/

/-- `RSENC` turns 223 bytes of `Q_TXIN` into 255 of `Q_RSC`, which count alike. -/
theorem TxInv.rsenc {s : State} (h : TxInv s) (hen : s.rsencEnabled = true) :
    TxInv (s.setTx (rsencFire s.cfg.toCfg s.tx)) := by
  obtain ⟨_, hblock, _⟩ := s.rsencEnabled_iff.1 hen
  have hin : (rsencFire s.cfg.toCfg s.tx).qTxin.length = s.tx.qTxin.length - 223 := length_left _ _
  have hout : (rsencFire s.cfg.toCfg s.tx).qRsc.length = s.tx.qRsc.length + 255 := by
    simp only [rsencFire, length_push, List.length_append, length_popped, length_rsParity]
    omega
  have hwhole := h.wholeBlocks
  exact
    { h with
      wholeBlocks := by
        rw [State.setTx_tx, hin]
        omega
      cvAligned := by
        have hkept : 255 * ((s.tx.qTxin.length - 223) / 223) + (s.tx.qRsc.length + 255) + s.tx.cvCnt =
            255 * (s.tx.qTxin.length / 223) + s.tx.qRsc.length + s.tx.cvCnt := by omega
        rw [State.setTx_tx, hin, hout, rsencFire_cvCnt, hkept]
        exact h.cvAligned }

/-- Doubling a counter that wraps. -/
theorem two_mul_countTo {n len : Nat} (h : n < len) : 2 * countTo n len = (2 * n + 2) % (2 * len) := by
  rw [countTo_mod h, ← Nat.mul_mod_mul_left]
  rfl

theorem length_cvencFire_qCvc (c : Cfg) (t : TxPath) :
    (cvencFire c t).qCvc.length = t.qCvc.length + 2 := by
  simp only [cvencFire, length_push, length_packBytes_fst, length_convBits, length_bitsOfByte]

/-- `CVENC` turns a byte of `Q_RSC` into a count of `CV_CNT`, and that into two bytes of `Q_CVC`. -/
theorem TxInv.cvenc {s : State} (h : TxInv s) (hen : s.cvencEnabled = true) :
    TxInv (s.setTx (cvencFire s.cfg.toCfg s.tx)) := by
  obtain ⟨_, hbyte, _⟩ := s.cvencEnabled_iff.1 hen
  have hin : (cvencFire s.cfg.toCfg s.tx).qRsc.length = s.tx.qRsc.length - 1 := length_left _ _
  have hcnt : (cvencFire s.cfg.toCfg s.tx).cvCnt = countTo s.tx.cvCnt s.cfg.frameRsBytes := rfl
  exact
    { h with
      cvRange := countTo_lt h.cvRange
      cvAligned := by
        have hkept : 255 * (s.tx.qTxin.length / 223) + (s.tx.qRsc.length - 1) + (s.tx.cvCnt + 1) =
            255 * (s.tx.qTxin.length / 223) + s.tx.qRsc.length + s.tx.cvCnt := by omega
        rw [State.setTx_tx, State.setTx_cfg, cvencFire_qTxin, hin, hcnt, countTo_mod h.cvRange,
          Nat.add_mod_mod, hkept]
        exact h.cvAligned
      frAligned := by
        have hcv := s.cfg.frameCvBytes_eq
        rw [State.setTx_tx, State.setTx_cfg, length_cvencFire_qCvc, cvencFire_frCnt, hcnt,
          two_mul_countTo h.cvRange, ← hcv, ← h.frAligned, Nat.mod_add_mod, Nat.add_right_comm] }

/-- The register `FRMR` starts a byte from is in phase, at a frame's first byte and inside a frame. -/
theorem TxInv.frStart_eq {s : State} (h : TxInv s) :
    frStart s.cfg.toCfg s.tx = scrIterate s.cfg.toCfg (8 * s.tx.frCnt) s.cfg.scrSeed := by
  unfold frStart
  split
  · next hcnt => rw [hcnt, Nat.mul_zero, scrIterate_zero]
  · next hcnt => exact h.scrPhase hcnt

theorem frmrFire_frScr (c : Cfg) (t : TxPath) : (frmrFire c t).frScr = scrIterate c 8 (frStart c t) := by
  simp only [frmrFire, scramble_register, length_bitsOfByte]

/-- `FRMR` turns a byte of `Q_CVC` into a count of `FR_CNT` and eight steps of the scrambler. -/
theorem TxInv.frmr {s : State} (h : TxInv s) (hen : s.frmrEnabled = true) :
    TxInv (s.setTx (frmrFire s.cfg.toCfg s.tx)) := by
  obtain ⟨_, hbyte, _⟩ := s.frmrEnabled_iff.1 hen
  have hin : (frmrFire s.cfg.toCfg s.tx).qCvc.length = s.tx.qCvc.length - 1 := length_left _ _
  have hcnt : (frmrFire s.cfg.toCfg s.tx).frCnt = countTo s.tx.frCnt s.cfg.frameCvBytes := rfl
  have hscr : (frmrFire s.cfg.toCfg s.tx).frScr =
      scrIterate s.cfg.toCfg (8 * s.tx.frCnt + 8) s.cfg.scrSeed := by
    rw [frmrFire_frScr, h.frStart_eq, ← scrIterate_add]
  exact
    { h with
      frRange := countTo_lt h.frRange
      frAligned := by
        have hkept : s.tx.qCvc.length - 1 + (s.tx.frCnt + 1) = s.tx.qCvc.length + s.tx.frCnt := by omega
        rw [State.setTx_tx, State.setTx_cfg, hin, hcnt, countTo_mod h.frRange, Nat.add_mod_mod, hkept]
        exact h.frAligned
      scrWidth := by
        obtain ⟨hseed, _⟩ := s.cfg.scrSeed_fits
        rw [State.setTx_tx, State.setTx_cfg, hscr]
        exact scrIterate_fits s.cfg _ hseed
      scrPhase := by
        intro hne
        rw [State.setTx_tx, hcnt] at hne
        rw [State.setTx_tx, State.setTx_cfg, hscr, hcnt, countTo_of_ne_zero hne, Nat.mul_add] }

/-- `RRCI` shifts its history; in tap mode it does not fire. -/
theorem TxInv.rrci {s : State} (h : TxInv s) (hen : s.rrciEnabled = true) :
    TxInv (s.setTx (rrciFire s.cfg.toCfg s.tx)) := by
  obtain ⟨_, htap, _⟩ := s.rrciEnabled_iff.1 hen
  exact
    { h with
      histLength := length_riHistNext _ h.histLength
      tapDry := fun ht => absurd ht (by rw [State.setTx_txTap, htap]; exact Bool.false_ne_true) }

/-! ## The host moves -/

/-- `TXPUT` adds a frame's blocks. -/
theorem TxInv.txput {s : State} (h : TxInv s) (hen : s.txputEnabled = true) :
    TxInv (s.setTx { s.tx with qTxin := push s.tx.qTxin s.txinOperand }) := by
  obtain ⟨hframe, _⟩ := s.txputEnabled_iff.1 hen
  have hin : (push s.tx.qTxin s.txinOperand).length = s.tx.qTxin.length + 223 * s.cfg.nb := by
    rw [length_push, State.txinOperand, hframe]
  have hwhole := h.wholeBlocks
  exact
    { h with
      wholeBlocks := by
        rw [State.setTx_tx, hin]
        omega
      cvAligned := by
        have hadded : 255 * ((s.tx.qTxin.length + 223 * s.cfg.nb) / 223) + s.tx.qRsc.length + s.tx.cvCnt =
            255 * (s.tx.qTxin.length / 223) + s.tx.qRsc.length + s.tx.cvCnt + s.cfg.frameRsBytes := by
          rw [Cfg.frameRsBytes]
          omega
        rw [State.setTx_tx, State.setTx_cfg, hin, hadded, Nat.add_mod_right]
        exact h.cvAligned }

/-- Taking samples or bits from the end of the path disturbs no count. -/
theorem TxInv.drain {s : State} (h : TxInv s) :
    TxInv (s.setTx { s.tx with qTxout := [] }) ∧ TxInv (s.setTx { s.tx with qBits := [] }) :=
  ⟨{ h with tapDry := fun _ => rfl }, { h with }⟩

/-! ## Every step -/

/-- The operations that write the transmit path or `TX_TAP`. -/
def txWriters : List Instr :=
  [.rst, .txstart, .txstartb, .rsenc, .cvenc, .frmr, .rrci, .txput, .txget, .bitget]

theorem done_keeps_tx (s : State) {i : Instr} (h : i ∉ txWriters) :
    (done s i).tx = s.tx ∧ (done s i).txTap = s.txTap := by
  cases i
  case rst | txstart | txstartb | rsenc | cvenc | frmr | rrci | txput | txget | bitget => simp [txWriters] at h
  case rxget => exact ⟨s.returnFrame_tx, by rw [done, State.txTap, s.returnFrame_ctrl, State.txTap]⟩
  all_goals simp [done]

theorem done_keeps_txInv {s : State} (h : TxInv s) {i : Instr} (hen : s.enabled i = true) :
    TxInv (done s i) := by
  by_cases hi : i ∈ txWriters
  · simp only [txWriters, List.mem_cons, List.not_mem_nil, or_false] at hi
    obtain rfl | rfl | rfl | rfl | rfl | rfl | rfl | rfl | rfl | rfl := hi
    · exact .of_reset s.resetAll_tx
    · exact .of_reset (s.startTx_tx false)
    · exact .of_reset (s.startTx_tx true)
    · exact h.rsenc hen
    · exact h.cvenc hen
    · exact h.frmr hen
    · exact h.rrci hen
    · exact h.txput hen
    · exact h.drain.1.congr rfl rfl rfl
    · exact h.drain.2.congr rfl rfl rfl
  · obtain ⟨htx, htap⟩ := done_keeps_tx s hi
    exact h.congr (done_cfg s i) htx htap

theorem step_keeps_txInv {s t : State} (h : TxInv s) (hstep : step s = .next t) : TxInv t := by
  obtain ⟨i, _, hexec⟩ := step_cases hstep
  obtain ⟨hen, rfl⟩ | ⟨_, rfl⟩ := exec_cases hexec
  · exact (done_keeps_txInv h hen).congr rfl rfl rfl
  · exact h

end Sys2Proof.Machine

open Sys2Proof.Machine in
/-- Settles O50: the operations that write the transmit path each keep its alignments, the others do not
reach it. -/
theorem stepKeepsTheTxPathAligned : Obligations.StepKeepsTheTxPathAligned :=
  fun _ _ => step_keeps_txInv
end

