-- ==== Sys2Proof/Proofs/RxInvariant.lean ====
section
/-! R24, R36 to R47, R79: the receive path stays in step with the deframer's frames. As for the transmit path,
only the operations that write the receive path or `RX_SRC` have anything to show. -/

namespace Sys2Proof.Machine

theorem RxInv.congr {s t : State} (h : RxInv s) (hcfg : t.cfg = s.cfg) (hrx : t.rx = s.rx)
    (hsrc : t.rxSrc = s.rxSrc) : RxInv t := by
  obtain ⟨_, _, _, _, _, _, _, _, _, _, _, _, _, _, _, _, _, _, _⟩ := h
  constructor <;> simp only [hcfg, hrx, hsrc] <;> assumption

theorem Config.frameDecBits_pos (c : Config) : 2040 ≤ c.frameDecBits := by
  have hbytes := c.frameRsBytes_pos
  have hbits := c.frameDecBits_eq
  omega

theorem Config.frameCodedBits_pos (c : Config) : 4080 ≤ c.frameCodedBits := by
  have hdec := frameDecBits_pos c
  have hbits := c.frameCodedBits_eq
  omega

/-! ## No metric is negative -/

/-- No metric is negative (R202). -/
def NonnegMetrics (pm : Vector Metric 64) : Prop := ∀ n : Fin 64, pm[n].lt (.fin 0) = false

theorem Metric.lt_zero_eq_false_iff (m : Metric) : m.lt (.fin 0) = false ↔ ∀ v, m = .fin v → 0 ≤ v := by
  cases m <;> simp [Metric.lt]

theorem nonneg_startMetrics : NonnegMetrics startMetrics := by
  intro n
  rw [Fin.getElem_fin, startMetrics_get]
  split <;> rfl

/-- A branch adds to a metric, so no metric comes below 0. -/
theorem Metric.add_branch_nonneg {m : Metric} (h : m.lt (.fin 0) = false) (c : Cfg) (r1 r2 : Soft)
    (w : BitVec 7) : (m.add (branchMetric c r1 r2 w)).lt (.fin 0) = false := by
  rw [Metric.lt_zero_eq_false_iff] at *
  intro v hv
  cases m with
  | inf => cases hv
  | fin u =>
    cases hv
    exact add_nonneg (h u rfl) (branchMetric_nonneg c r1 r2 w)

theorem nonneg_acsMetrics {pm : Vector Metric 64} (h : NonnegMetrics pm) (c : Cfg) (r1 r2 : Soft) :
    NonnegMetrics (acsMetrics c pm r1 r2) := by
  intro n
  rw [acsMetrics_get]
  split
  · exact Metric.add_branch_nonneg (h ⟨n.val / 2 + 32, by omega⟩) c r1 r2 _
  · exact Metric.add_branch_nonneg (h ⟨n.val / 2, by omega⟩) c r1 r2 _

/-! ## The bits decided -/

theorem decidedAfter_of_full {c : Cfg} (h : c.vitTb = .full) (t : Nat) : decidedAfter c t = 0 := by
  simp only [decidedAfter, h]

theorem decidedAfter_of_window {c : Cfg} {d : Nat} (h : c.vitTb = .window d) (t : Nat) :
    decidedAfter c t = t + 1 - d := by
  simp only [decidedAfter, h]

theorem bitsDecided_of_last {c : Cfg} {t : Nat} (h : t + 1 = c.frameDecBits) (nout : Nat) :
    bitsDecided c t nout = c.frameDecBits := if_pos (by omega)

theorem bitsDecided_of_full {c : Cfg} {t : Nat} (h : c.vitTb = .full) (ht : t + 1 < c.frameDecBits) (nout : Nat) :
    bitsDecided c t nout = nout := by
  rw [bitsDecided, if_neg (by omega)]
  simp only [h]

theorem bitsDecided_of_window {c : Cfg} {t d : Nat} (h : c.vitTb = .window d) (ht : t + 1 < c.frameDecBits)
    (nout : Nat) : bitsDecided c t nout = if d ≤ t + 1 then t + 2 - d else nout := by
  rw [bitsDecided, if_neg (by omega)]
  simp only [h]

/-- Before the first pair no bit is decided (a window has at least 35 pairs). -/
theorem decidedAfter_zero (c : Config) : decidedAfter c.toCfg 0 = 0 := by
  cases hd : c.vitTb with
  | full => exact decidedAfter_of_full hd 0
  | window d =>
    have hwindow := c.vitTb_window hd
    rw [decidedAfter_of_window hd]
    omega

theorem decidedAfter_le (c : Config) (t : Nat) : decidedAfter c.toCfg t ≤ t := by
  cases hd : c.vitTb with
  | full =>
    rw [decidedAfter_of_full hd]
    exact Nat.zero_le t
  | window d =>
    have hwindow := c.vitTb_window hd
    rw [decidedAfter_of_window hd]
    omega

/-- What a firing at pair `t` has decided: all the frame's bits at the last pair, before it what
`decidedAfter` says. -/
theorem max_bitsDecided (c : Config) {t : Nat} (ht : t < c.frameDecBits) :
    max (decidedAfter c.toCfg t) (bitsDecided c.toCfg t (decidedAfter c.toCfg t)) =
      if t + 1 = c.frameDecBits then c.frameDecBits else decidedAfter c.toCfg (t + 1) := by
  by_cases hlast : t + 1 = c.frameDecBits
  · have hle := decidedAfter_le c t
    rw [bitsDecided_of_last hlast, if_pos hlast, max_eq_right (by omega)]
  · have hinside : t + 1 < c.frameDecBits := by omega
    rw [if_neg hlast]
    cases hd : c.vitTb with
    | full => rw [bitsDecided_of_full hd hinside, max_self, decidedAfter_of_full hd, decidedAfter_of_full hd]
    | window d =>
      have hwindow := c.vitTb_window hd
      rw [bitsDecided_of_window hd hinside, decidedAfter_of_window hd, decidedAfter_of_window hd]
      split <;> omega

/-! ## One pair through the decoder -/

/-- The bits decided once the pair of `r` is processed. -/
def decidedNext (c : Cfg) (r : RxPath) : Nat :=
  max (vitStart r).vtNout (bitsDecided c (vitStart r).vtCnt (vitStart r).vtNout)

/-- What one pair packs into bytes and bits. -/
def packedNext (c : Cfg) (r : RxPath) : List Byte × List Bit :=
  vitPack (vitdFire c r).vtPm (vitdFire c r).vtSurv (vitStart r).vtAcc (vitStart r).vtNout (decidedNext c r)

theorem vitdFire_vtNout (c : Cfg) (r : RxPath) : (vitdFire c r).vtNout = decidedNext c r := rfl
theorem vitdFire_vtAcc (c : Cfg) (r : RxPath) : (vitdFire c r).vtAcc = (packedNext c r).2 := rfl

theorem vitdFire_qDec (c : Cfg) (r : RxPath) : (vitdFire c r).qDec = r.qDec ++ (packedNext c r).1 := by
  obtain ⟨_, hdec, _⟩ := vitStart_frame r
  rw [← hdec]
  rfl

theorem length_vitdFire_vtSurv (c : Cfg) (r : RxPath) :
    (vitdFire c r).vtSurv.length = (vitStart r).vtSurv.length + 1 := by
  simp only [vitdFire, vitStep, List.length_append, List.length_singleton]

/-- The decoder's registers between two pairs of a frame, as a firing finds them. -/
structure PairStart (c : Cfg) (r : RxPath) : Prop where
  survLength : (vitStart r).vtSurv.length = r.vtCnt
  decided : (vitStart r).vtNout = decidedAfter c r.vtCnt
  accLength : (vitStart r).vtAcc.length = (vitStart r).vtNout % 8
  metrics : NonnegMetrics (vitStart r).vtPm
  decAligned : (255 * r.rsdBlk + r.qDec.length) % c.frameRsBytes = (vitStart r).vtNout / 8

theorem RxInv.pairStart {s : State} (h : RxInv s) : PairStart s.cfg.toCfg s.rx := by
  have haligned := h.decAligned
  by_cases hcnt : s.rx.vtCnt = 0
  · rw [if_pos hcnt] at haligned
    constructor <;> rw [vitStart_of_first hcnt]
    case survLength => exact hcnt.symm
    case decided => rw [hcnt, decidedAfter_zero]
    case accLength => rfl
    case metrics => exact nonneg_startMetrics
    case decAligned => exact haligned.trans (Nat.zero_div 8).symm
  · rw [if_neg hcnt] at haligned
    constructor <;> rw [vitStart_of_inside hcnt]
    case survLength => exact h.survLength hcnt
    case decided => exact h.decided hcnt
    case accLength => exact h.accLength
    case metrics => exact h.metrics
    case decAligned => exact haligned

theorem PairStart.decidedNext_eq {c : Config} {r : RxPath} (h : PairStart c.toCfg r)
    (ht : r.vtCnt < c.frameDecBits) : decidedNext c.toCfg r =
      if r.vtCnt + 1 = c.frameDecBits then c.frameDecBits else decidedAfter c.toCfg (r.vtCnt + 1) := by
  obtain ⟨_, _, hcnt⟩ := vitStart_frame r
  rw [decidedNext, h.decided, hcnt, max_bitsDecided c ht]

/-- No more bits are decided than pairs are processed. -/
theorem PairStart.decidedNext_le {c : Config} {r : RxPath} (h : PairStart c.toCfg r)
    (ht : r.vtCnt < c.frameDecBits) : decidedNext c.toCfg r ≤ r.vtCnt + 1 := by
  rw [h.decidedNext_eq ht]
  split
  · omega
  · exact decidedAfter_le c _

/-- The bytes a firing pushes and the bits it keeps. -/
theorem PairStart.packedNext_lengths {c : Config} {r : RxPath} (h : PairStart c.toCfg r)
    (ht : r.vtCnt < c.frameDecBits) :
    (packedNext c.toCfg r).1.length = decidedNext c.toCfg r / 8 - (vitStart r).vtNout / 8 ∧
      (packedNext c.toCfg r).2.length = decidedNext c.toCfg r % 8 := by
  refine vitPack_lengths (le_max_left _ _) ?_ h.accLength
  rw [length_vitdFire_vtSurv, h.survLength]
  exact h.decidedNext_le ht

/-! ## The stages -/

/-- A receive path at reset is in step. -/
theorem RxInv.of_reset {s : State} (h : s.rx = .reset s.cfg.toCfg) : RxInv s := by
  have hdec := Config.frameDecBits_pos s.cfg
  have hcoded := Config.frameCodedBits_pos s.cfg
  have hnb := s.cfg.nb_pos
  obtain ⟨hseed, _⟩ := s.cfg.scrSeed_fits
  constructor <;> rw [h]
  case histLength => exact List.length_replicate ..
  case dfRange => exact lt_of_lt_of_le (Nat.succ_pos _) hcoded
  case lockWindow => exact fun hlock => by cases hlock
  case scrWidth => exact hseed
  case scrPhase => exact fun hlock => by cases hlock
  case vtRange => exact lt_of_lt_of_le (Nat.succ_pos _) hdec
  case payAligned => exact Nat.zero_mod _
  case survLength => exact fun hcnt => absurd rfl hcnt
  case decided => exact fun hcnt => absurd rfl hcnt
  case noutRange => exact Nat.zero_le _
  case metrics => exact nonneg_startMetrics
  case decAligned => exact Nat.zero_mod _
  case blkRange => exact hnb
  case results => exact fun x hx => by cases hx
  all_goals first | exact fun _ => rfl | rfl

/-- `RRCD` shifts its history; with `RX_SRC = 1` it does not fire. -/
theorem RxInv.rrcd {s : State} (h : RxInv s) (hen : s.rrcdEnabled = true) :
    RxInv (s.setRx (rrcdFire s.cfg.toCfg s.rx)) := by
  obtain ⟨_, hsrc, _⟩ := s.rrcdEnabled_iff.1 hen
  exact
    { h with
      histLength := length_rdHistNext _ h.histLength
      srcDry := fun ht => absurd ht (by rw [State.setRx_rxSrc, hsrc]; exact Bool.false_ne_true) }

/-- `DEFR` hunting passes nothing on; a lock starts a frame's count and its scrambler. -/
theorem RxInv.huntStep {s : State} (h : RxInv s) (hunt : s.rx.dfState = .hunt) (q : List Soft) (x : Soft) :
    RxInv (s.setRx (huntStep s.cfg.toCfg { s.rx with qSym := q } x)) := by
  have hcnt := h.huntCount hunt
  have hcoded := Config.frameCodedBits_pos s.cfg
  obtain ⟨hseed, _⟩ := s.cfg.scrSeed_fits
  unfold Machine.huntStep
  simp only
  split
  · exact
      { h with
        dfRange := lt_of_lt_of_le (Nat.succ_pos _) hcoded
        huntCount := fun _ => rfl
        lockWindow := fun _ => rfl
        scrWidth := hseed
        scrPhase := fun _ => rfl
        payAligned := h.payAligned.trans hcnt }
  · exact { h with lockWindow := fun hlock => absurd (hunt.symm.trans hlock) (by decide) }

/-- `DEFR` in lock passes a symbol on for each count of `DF_CNT`. -/
theorem RxInv.lockStep {s : State} (h : RxInv s) (lock : s.rx.dfState = .lock) (q : List Soft) (x : Soft) :
    RxInv (s.setRx (lockStep s.cfg.toCfg { s.rx with qSym := q } x)) := by
  obtain ⟨hlow, hhigh⟩ := s.cfg.scrLen_bounds
  exact
    { h with
      dfRange := countTo_lt h.dfRange
      huntCount := by
        intro hhunt
        simp only [State.setRx_rx, Machine.lockStep] at hhunt ⊢
        split at hhunt
        · next hlast => exact if_pos hlast
        · cases hhunt
      lockWindow := fun _ => h.lockWindow lock
      scrWidth := scrNext_toNat_lt ⟨by omega, hhigh⟩ h.scrWidth
      scrPhase := by
        intro hlock
        simp only [State.setRx_rx, State.setRx_cfg, Machine.lockStep] at hlock ⊢
        split at hlock
        · cases hlock
        · next hinside =>
          rw [countTo, if_neg hinside, scrIterate_succ_last, h.scrPhase lock]
      payAligned := by
        simp only [State.setRx_rx, State.setRx_cfg, Machine.lockStep, length_push, List.length_singleton]
        rw [countTo_mod h.dfRange, ← h.payAligned, Nat.mod_add_mod, Nat.add_assoc] }

theorem RxInv.defr {s : State} (h : RxInv s) : RxInv (s.setRx (defrFire s.cfg.toCfg s.rx)) := by
  unfold defrFire
  simp only
  split
  · next hunt => exact h.huntStep hunt _ _
  · next lock => exact h.lockStep lock _ _

/-- `VITD` takes a pair of `Q_PAY` for each count of `VT_CNT`, and pushes the whole bytes of what it has
decided. -/
theorem RxInv.vitd {s : State} (h : RxInv s) (hen : s.vitdEnabled = true) :
    RxInv (s.setRx (vitdFire s.cfg.toCfg s.rx)) := by
  obtain ⟨_, hpair, _⟩ := s.vitdEnabled_iff.1 hen
  have hstart := h.pairStart
  have hrange := h.vtRange
  have hnext := hstart.decidedNext_eq hrange
  have hle := hstart.decidedNext_le hrange
  have hmono : (vitStart s.rx).vtNout ≤ decidedNext s.cfg.toCfg s.rx := le_max_left _ _
  have hdecBits := s.cfg.frameDecBits_eq
  obtain ⟨hbytes, hbits⟩ := hstart.packedNext_lengths hrange
  constructor <;> simp only [State.setRx_rx, State.setRx_cfg, State.setRx_rxSrc, vitdFire_qRxin,
    vitdFire_qRxout, vitdFire_rdHist, vitdFire_dfState, vitdFire_dfWin, vitdFire_dfCnt, vitdFire_dfScr,
    vitdFire_rsdBlk, vitdFire_rsdBad, vitdFire_rsdBuf, vitdFire_qPay, vitdFire_vtCnt, vitdFire_vtNout,
    vitdFire_vtAcc, vitdFire_qDec, length_left, List.length_append, length_vitdFire_vtSurv]
  case histLength => exact h.histLength
  case dfRange => exact h.dfRange
  case huntCount => exact h.huntCount
  case lockWindow => exact h.lockWindow
  case scrWidth => exact h.scrWidth
  case scrPhase => exact h.scrPhase
  case blkRange => exact h.blkRange
  case bufLength => exact h.bufLength
  case badClear => exact h.badClear
  case results => exact h.results
  case srcDry => exact h.srcDry
  case vtRange => exact countTo_lt hrange
  case payAligned =>
    have hkept : 2 * s.rx.vtCnt + 2 + (s.rx.qPay.length - 2) = 2 * s.rx.vtCnt + s.rx.qPay.length := by omega
    rw [two_mul_countTo hrange, ← s.cfg.frameCodedBits_eq, Nat.mod_add_mod, hkept]
    exact h.payAligned
  case survLength =>
    intro hcnt
    rw [countTo_of_ne_zero hcnt, hstart.survLength]
  case decided =>
    intro hcnt
    have hinside : s.rx.vtCnt + 1 ≠ s.cfg.frameDecBits := fun hlast => hcnt (if_pos hlast)
    rw [countTo_of_ne_zero hcnt, hnext, if_neg hinside]
  case noutRange => omega
  case accLength => exact hbits
  case metrics => exact nonneg_acsMetrics hstart.metrics s.cfg.toCfg _ _
  case decAligned =>
    have hsum : 255 * s.rx.rsdBlk + (s.rx.qDec.length + (packedNext s.cfg.toCfg s.rx).1.length) =
        255 * s.rx.rsdBlk + s.rx.qDec.length +
          (decidedNext s.cfg.toCfg s.rx / 8 - (vitStart s.rx).vtNout / 8) := by omega
    have hkept : (vitStart s.rx).vtNout / 8 +
        (decidedNext s.cfg.toCfg s.rx / 8 - (vitStart s.rx).vtNout / 8) =
          decidedNext s.cfg.toCfg s.rx / 8 := by omega
    rw [hsum, ← Nat.mod_add_mod, hstart.decAligned, hkept, countTo]
    split
    · next hlast =>
      have hall : decidedNext s.cfg.toCfg s.rx / 8 = s.cfg.frameRsBytes := by
        rw [hnext, if_pos hlast]
        omega
      rw [if_pos rfl, hall, Nat.mod_self]
    · rw [if_neg (Nat.succ_ne_zero _)]
      exact Nat.mod_eq_of_lt (by omega)

/-- `RSDEC` turns 255 bytes of `Q_DEC` into a count of `RSD_BLK`, and a frame's blocks into a result. -/
theorem RxInv.rsdec {s : State} (h : RxInv s) (hen : s.rsdecEnabled = true) :
    RxInv (s.setRx (rsdecFire s.cfg.toCfg s.rx)) := by
  obtain ⟨_, hblock, _⟩ := s.rsdecEnabled_iff.1 hen
  have hrange := h.blkRange
  have hbuf := h.bufLength
  have haligned := h.decAligned
  have hdata : (rsDecode s.cfg.toCfg (popped s.rx.qDec 255)).2.length = 223 :=
    length_rsDecode (length_popped_of_has hblock)
  unfold rsdecFire
  simp only [rsdAccept_eq]
  split
  · next hlast =>
    exact
      { h with
        decAligned := by
          have hframe : 255 * s.rx.rsdBlk + s.rx.qDec.length =
              255 * 0 + (left s.rx.qDec 255).length + s.cfg.frameRsBytes := by
            rw [length_left, Cfg.frameRsBytes]
            omega
          rw [hframe, Nat.add_mod_right] at haligned
          exact haligned
        blkRange := s.cfg.nb_pos
        bufLength := rfl
        badClear := fun _ => rfl
        results := by
          intro x hx
          obtain hx | hx := List.mem_append.1 hx
          · exact h.results x hx
          · rw [List.mem_singleton.1 hx]
            show (s.rx.rsdBuf ++ _).length = 223 * s.cfg.nb
            rw [List.length_append, hdata]
            omega }
  · next hmore =>
    exact
      { h with
        decAligned := by
          have hkept : 255 * s.rx.rsdBlk + s.rx.qDec.length =
              255 * (s.rx.rsdBlk + 1) + (left s.rx.qDec 255).length := by
            rw [length_left]
            omega
          rw [hkept] at haligned
          exact haligned
        blkRange := by
          show s.rx.rsdBlk + 1 < s.cfg.nb
          omega
        bufLength := by
          show (s.rx.rsdBuf ++ _).length = 223 * (s.rx.rsdBlk + 1)
          rw [List.length_append, hdata]
          omega
        badClear := fun hzero => absurd hzero (Nat.succ_ne_zero _) }

/-! ## The host moves -/

theorem RxInv.rxput {s : State} (h : RxInv s) (hen : s.rxputEnabled = true) :
    RxInv (s.setRx { s.rx with qRxin := push s.rx.qRxin s.rxinOperand }) := by
  obtain ⟨hsrc, _⟩ := s.rxputEnabled_iff.1 hen
  exact { h with srcDry := fun ht => absurd ht (by rw [State.setRx_rxSrc, hsrc]; exact Bool.false_ne_true) }

theorem RxInv.symput {s : State} (h : RxInv s) :
    RxInv (s.setRx { s.rx with qSym := push s.rx.qSym s.symOperand }) := { h with }

theorem RxInv.rxget {s : State} (h : RxInv s) :
    RxInv (s.setRx { s.rx with qRxout := left s.rx.qRxout 1 }) :=
  { h with results := fun x hx => h.results x (List.mem_of_mem_drop hx) }

/-! ## Every step -/

/-- The operations that write the receive path or `RX_SRC`. -/
def rxWriters : List Instr :=
  [.rst, .rxstart, .rxstarts, .rrcd, .defr, .vitd, .rsdec, .rxput, .symput, .rxget]

theorem done_keeps_rx (s : State) {i : Instr} (h : i ∉ rxWriters) :
    (done s i).rx = s.rx ∧ (done s i).rxSrc = s.rxSrc := by
  cases i
  case rst | rxstart | rxstarts | rrcd | defr | vitd | rsdec | rxput | symput | rxget => simp [rxWriters] at h
  all_goals simp [done]

theorem done_keeps_rxInv {s : State} (h : RxInv s) {i : Instr} (hen : s.enabled i = true) :
    RxInv (done s i) := by
  by_cases hi : i ∈ rxWriters
  · simp only [rxWriters, List.mem_cons, List.not_mem_nil, or_false] at hi
    obtain rfl | rfl | rfl | rfl | rfl | rfl | rfl | rfl | rfl | rfl := hi
    · exact .of_reset s.resetAll_rx
    · exact .of_reset (s.startRx_rx false)
    · exact .of_reset (s.startRx_rx true)
    · exact h.rrcd hen
    · exact h.defr
    · exact h.vitd hen
    · exact h.rsdec hen
    · exact h.rxput hen
    · exact h.symput
    · refine h.rxget.congr s.returnFrame_cfg s.returnFrame_rx ?_
      rw [done, State.rxSrc, s.returnFrame_ctrl]
      rfl
  · obtain ⟨hrx, hsrc⟩ := done_keeps_rx s hi
    exact h.congr (done_cfg s i) hrx hsrc

theorem step_keeps_rxInv {s t : State} (h : RxInv s) (hstep : step s = .next t) : RxInv t := by
  obtain ⟨i, _, hexec⟩ := step_cases hstep
  obtain ⟨hen, rfl⟩ | ⟨_, rfl⟩ := exec_cases hexec
  · exact (done_keeps_rxInv h hen).congr rfl rfl rfl
  · exact h

end Sys2Proof.Machine

open Sys2Proof.Machine in
/-- Settles O51: the operations that write the receive path each keep its alignments, the others do not
reach it. -/
theorem stepKeepsTheRxPathAligned : Obligations.StepKeepsTheRxPathAligned :=
  fun _ _ => step_keeps_rxInv
end

