-- ==== Sys2Proof/Proofs/InvariantUses.lean ====
section
/-! What follows from the invariants: they hold at reset, `VITD` with `VIT_TB = FULL` pushes at a frame's end
alone (R206, R314), and no step fills a stream beyond its capacity (R63, R288). -/

namespace Sys2Proof.Machine

/-! ## `VIT_TB = FULL` -/

/-- With `FULL` a frame's last pair packs all its bytes and leaves no bit; an earlier one packs nothing. -/
theorem PairStart.packedNext_of_full {c : Config} {r : RxPath} (h : PairStart c.toCfg r)
    (ht : r.vtCnt < c.frameDecBits) (hfull : c.vitTb = .full) :
    if r.vtCnt + 1 = c.frameDecBits then
      (packedNext c.toCfg r).1.length = c.frameRsBytes ∧ (packedNext c.toCfg r).2 = []
    else (packedNext c.toCfg r).1 = [] := by
  obtain ⟨hbytes, hbits⟩ := h.packedNext_lengths ht
  have hnout : (vitStart r).vtNout = 0 := by rw [h.decided, decidedAfter_of_full hfull]
  have hsize := c.frameDecBits_eq
  rw [h.decidedNext_eq ht, decidedAfter_of_full hfull, hnout] at hbytes
  rw [h.decidedNext_eq ht, decidedAfter_of_full hfull] at hbits
  split
  · next hlast =>
    rw [if_pos hlast] at hbytes hbits
    exact ⟨by omega, List.eq_nil_of_length_eq_zero (by omega)⟩
  · next hinside =>
    rw [if_neg hinside] at hbytes
    exact List.eq_nil_of_length_eq_zero hbytes

/-! ## Capacities -/

theorem RoomFor.pushed {cap : Option Nat} {len n len' : Nat} (h : RoomFor cap len n) (hle : len' ≤ len + n) :
    RoomFor cap len' 0 := h.mono hle

theorem RoomFor.zero (cap : Option Nat) : RoomFor cap 0 0 := fun d _ => Nat.zero_le d

theorem RoomFor.left {α : Type} {cap : Option Nat} {q : List α} (h : RoomFor cap q.length 0) (n : Nat) :
    RoomFor cap (left q n).length 0 :=
  h.mono (by rw [length_left]; omega)

theorem Capacities.congr {s t : State} (h : Capacities s) (hcfg : t.cfg = s.cfg) (htx : t.tx = s.tx)
    (hrx : t.rx = s.rx) : Capacities t := by
  obtain ⟨_, _, _, _, _, _, _, _, _, _⟩ := h
  constructor <;> simp only [hcfg, htx, hrx] <;> assumption

/-- Emptying the streams of a path. -/
theorem Capacities.reset {s : State} (h : Capacities s) :
    Capacities s.resetTx ∧ Capacities s.resetRx ∧ Capacities s.resetAll :=
  ⟨{ h with txin := .zero _, rsc := .zero _, cvc := .zero _, bits := .zero _, txout := .zero _ },
    { h with rxin := .zero _, sym := .zero _, pay := .zero _, dec := .zero _, rxout := .zero _ },
    { txin := .zero _, rsc := .zero _, cvc := .zero _, bits := .zero _, txout := .zero _,
      rxin := .zero _, sym := .zero _, pay := .zero _, dec := .zero _, rxout := .zero _ }⟩

theorem Capacities.rsenc {s : State} (h : Capacities s) (hen : s.rsencEnabled = true) :
    Capacities (s.setTx (rsencFire s.cfg.toCfg s.tx)) := by
  obtain ⟨_, hblock, hroom⟩ := s.rsencEnabled_iff.1 hen
  refine { h with txin := h.txin.left 223, rsc := hroom.pushed ?_ }
  simp only [State.setTx_tx, rsencFire, length_push, List.length_append, length_popped, length_rsParity]
  omega

theorem Capacities.cvenc {s : State} (h : Capacities s) (hen : s.cvencEnabled = true) :
    Capacities (s.setTx (cvencFire s.cfg.toCfg s.tx)) := by
  obtain ⟨_, _, hroom⟩ := s.cvencEnabled_iff.1 hen
  exact { h with rsc := h.rsc.left 1, cvc := hroom.pushed (length_cvencFire_qCvc _ _).le }

theorem length_frHeader_le (c : Cfg) (t : TxPath) : (frHeader c t).length ≤ 32 := by
  unfold frHeader
  split <;> simp

theorem Capacities.frmr {s : State} (h : Capacities s) (hen : s.frmrEnabled = true) :
    Capacities (s.setTx (frmrFire s.cfg.toCfg s.tx)) := by
  obtain ⟨_, _, hroom⟩ := s.frmrEnabled_iff.1 hen
  have hheader := length_frHeader_le s.cfg.toCfg s.tx
  refine { h with cvc := h.cvc.left 1, bits := hroom.pushed ?_ }
  simp only [State.setTx_tx, frmrFire, length_push, List.length_append, length_scramble, length_bitsOfByte]
  omega

theorem Capacities.rrci {s : State} (h : Capacities s) (hen : s.rrciEnabled = true) :
    Capacities (s.setTx (rrciFire s.cfg.toCfg s.tx)) := by
  obtain ⟨_, _, _, hroom⟩ := s.rrciEnabled_iff.1 hen
  refine { h with bits := h.bits.left 1, txout := hroom.pushed ?_ }
  simp only [State.setTx_tx, rrciFire, length_push, length_interpolateAll, le_refl]

theorem Capacities.rrcd {s : State} (h : Capacities s) (hen : s.rrcdEnabled = true) :
    Capacities (s.setRx (rrcdFire s.cfg.toCfg s.rx)) := by
  obtain ⟨_, _, _, hroom⟩ := s.rrcdEnabled_iff.1 hen
  refine { h with rxin := h.rxin.left _, sym := hroom.pushed ?_ }
  simp only [State.setRx_rx, rrcdFire, length_push, List.length_singleton, le_refl]

/-- `DEFR` passes at most one symbol on. -/
theorem length_defrFire_qPay_le (c : Cfg) (r : RxPath) : (defrFire c r).qPay.length ≤ r.qPay.length + 1 := by
  unfold defrFire
  simp only
  split
  · unfold huntStep
    simp only
    split <;> exact Nat.le_succ _
  · simp only [lockStep, length_push, List.length_singleton, le_refl]

theorem Capacities.defr {s : State} (h : Capacities s) (hen : s.defrEnabled = true) :
    Capacities (s.setRx (defrFire s.cfg.toCfg s.rx)) := by
  obtain ⟨_, _, hroom⟩ := s.defrEnabled_iff.1 hen
  have hpay := hroom.pushed (length_defrFire_qPay_le s.cfg.toCfg s.rx)
  have hsym := h.sym.left 1
  rw [← defrFire_qSym s.cfg.toCfg s.rx] at hsym
  rw [defrFire_frame] at hpay hsym ⊢
  exact { h with sym := hsym, pay := hpay }

/-- `VITD` pushes no more bytes than it waited to have room for. -/
theorem PairStart.length_packedNext_le {c : Config} {r : RxPath} (h : PairStart c.toCfg r)
    (ht : r.vtCnt < c.frameDecBits) : (packedNext c.toCfg r).1.length ≤ vitdRoom c.toCfg r := by
  obtain ⟨hbytes, _⟩ := h.packedNext_lengths ht
  have hsize := c.frameDecBits_eq
  rw [h.decidedNext_eq ht, h.decided] at hbytes
  by_cases hlast : r.vtCnt + 1 = c.frameDecBits
  · rw [if_pos hlast] at hbytes
    rw [vitdRoom_last (by omega)]
    omega
  · rw [if_neg hlast] at hbytes
    rw [vitdRoom_inside (by omega)]
    cases hd : c.vitTb with
    | full =>
      rw [decidedAfter_of_full hd, decidedAfter_of_full hd] at hbytes
      rw [if_pos rfl]
      exact hbytes.le
    | window d =>
      rw [decidedAfter_of_window hd, decidedAfter_of_window hd] at hbytes
      rw [if_neg nofun]
      omega

theorem Capacities.vitd {s : State} (h : Capacities s) (hinv : RxInv s) (hen : s.vitdEnabled = true) :
    Capacities (s.setRx (vitdFire s.cfg.toCfg s.rx)) := by
  obtain ⟨_, _, hroom⟩ := s.vitdEnabled_iff.1 hen
  have hle := hinv.pairStart.length_packedNext_le hinv.vtRange
  have hdec : RoomFor s.cfg.qdepth.dec (vitdFire s.cfg.toCfg s.rx).qDec.length 0 := by
    refine hroom.pushed ?_
    rw [vitdFire_qDec, List.length_append]
    omega
  have hpay := h.pay.left 2
  rw [vitdFire_frame] at hdec ⊢
  exact { h with pay := hpay, dec := hdec }

/-- `RSDEC` pushes a result at a frame's last block alone. -/
theorem rsdecFire_qRxout (c : Cfg) (r : RxPath) :
    (r.rsdBlk + 1 ≠ c.nb ∧ (rsdecFire c r).qRxout = r.qRxout) ∨
      (r.rsdBlk + 1 = c.nb ∧ (rsdecFire c r).qRxout.length = r.qRxout.length + 1) := by
  unfold rsdecFire
  simp only [rsdAccept_eq]
  split
  · next hlast => exact .inr ⟨hlast, length_push _ _⟩
  · next hmore => exact .inl ⟨hmore, rfl⟩

theorem Capacities.rsdec {s : State} (h : Capacities s) (hen : s.rsdecEnabled = true) :
    Capacities (s.setRx (rsdecFire s.cfg.toCfg s.rx)) := by
  obtain ⟨_, _, hroom⟩ := s.rsdecEnabled_iff.1 hen
  have hout : RoomFor s.cfg.qdepth.rxout (rsdecFire s.cfg.toCfg s.rx).qRxout.length 0 := by
    obtain ⟨_, hsame⟩ | ⟨hlast, hlen⟩ := rsdecFire_qRxout s.cfg.toCfg s.rx
    · rw [hsame]
      exact h.rxout
    · exact (hroom hlast).pushed hlen.le
  have hdec := h.dec.left 255
  rw [rsdecFire_frame] at hout ⊢
  exact { h with dec := hdec, rxout := hout }

theorem Capacities.txput {s : State} (h : Capacities s) (hen : s.txputEnabled = true) :
    Capacities (s.setTx { s.tx with qTxin := push s.tx.qTxin s.txinOperand }) := by
  obtain ⟨_, hroom⟩ := s.txputEnabled_iff.1 hen
  exact { h with txin := hroom.pushed (length_push _ _).le }

theorem Capacities.rxput {s : State} (h : Capacities s) (hen : s.rxputEnabled = true) :
    Capacities (s.setRx { s.rx with qRxin := push s.rx.qRxin s.rxinOperand }) := by
  obtain ⟨_, hroom⟩ := s.rxputEnabled_iff.1 hen
  exact { h with rxin := hroom.pushed (length_push _ _).le }

theorem Capacities.symput {s : State} (h : Capacities s) (hen : s.symputEnabled = true) :
    Capacities (s.setRx { s.rx with qSym := push s.rx.qSym s.symOperand }) := by
  obtain ⟨_, hroom⟩ := s.symputEnabled_iff.1 hen
  exact { h with sym := hroom.pushed (length_push _ _).le }

/-- Every operation carried out leaves the streams within their capacities: its room is the room it
waited for. -/
theorem done_keeps_capacities {s : State} (h : Capacities s) (hinv : RxInv s) {i : Instr}
    (hen : s.enabled i = true) : Capacities (done s i) := by
  obtain ⟨htx, hrx, hall⟩ := h.reset
  cases i
  case nop | txstop | rxstop | rdstat => exact h.congr rfl rfl rfl
  case rst => exact hall
  case txstart | txstartb => exact htx.congr rfl rfl rfl
  case rxstart | rxstarts => exact hrx.congr rfl rfl rfl
  case rsenc => exact h.rsenc hen
  case cvenc => exact h.cvenc hen
  case frmr => exact h.frmr hen
  case rrci => exact h.rrci hen
  case rrcd => exact h.rrcd hen
  case defr => exact h.defr hen
  case vitd => exact h.vitd hinv hen
  case rsdec => exact h.rsdec hen
  case txput => exact h.txput hen
  case txget => exact { h with txout := .zero _ }
  case bitget => exact { h with bits := .zero _ }
  case rxput => exact h.rxput hen
  case symput => exact h.symput hen
  case rxget =>
    have htaken : Capacities (s.setRx { s.rx with qRxout := left s.rx.qRxout 1 }) :=
      { h with rxout := h.rxout.left 1 }
    exact htaken.congr s.returnFrame_cfg s.returnFrame_tx s.returnFrame_rx

theorem step_keeps_capacities {s t : State} (hinv : RxInv s) (h : Capacities s) (hstep : step s = .next t) :
    Capacities t := by
  obtain ⟨i, _, hexec⟩ := step_cases hstep
  obtain ⟨hen, rfl⟩ | ⟨_, rfl⟩ := exec_cases hexec
  · exact (done_keeps_capacities h hinv hen).congr rfl rfl rfl
  · exact h

end Sys2Proof.Machine

open Sys2Proof.Machine in
/-- Settles O55: each operation's room is the room it waited for, for `VITD` by the invariant. -/
theorem stepKeepsStreamsWithinCapacity : Obligations.StepKeepsStreamsWithinCapacity :=
  fun _ _ => step_keeps_capacities

open Sys2Proof Sys2Proof.Machine in
/-- Settles O47: with `FULL` no bit is decided before a frame's last pair, and all are at it. -/
theorem fullTracebackDecidesAtTheFrameEnd : Obligations.FullTracebackDecidesAtTheFrameEnd := by
  intro s t hfull hinv hen hexec
  rw [exec_of_enabled hen] at hexec
  cases hexec
  have hpacked := hinv.pairStart.packedNext_of_full hinv.vtRange hfull
  simp only [State.advance_rx, done, State.setRx_rx, vitdFire_qDec, vitdFire_vtAcc, vitdFire_vtCnt]
  rw [← Cfg.frameDecBits]
  split at hpacked
  · next hlast =>
    obtain ⟨hbytes, hbits⟩ := hpacked
    rw [if_pos hlast, List.length_append, hbytes]
    exact ⟨rfl, hbits, if_pos hlast⟩
  · next hinside =>
    rw [if_neg hinside, hpacked, List.append_nil]
    exact ⟨rfl, if_neg hinside⟩

open Sys2Proof.Machine in
/-- Settles O52: the paths at reset are in step, every stream is empty, and no frame is under way. -/
theorem invariantsHoldAtReset : Obligations.InvariantsHoldAtReset :=
  ⟨.of_reset rfl, .of_reset rfl, rfl, by constructor <;> exact RoomFor.zero _, fun hcnt => absurd rfl hcnt⟩
end

