-- ==== Sys2Proof/Proofs/StepOutcomes.lean ====
section
/-! What a step can answer (R100, R104, R105, R280): a refusal for a reserved word or a part frame, the state
unchanged for an operation that is not enabled, and otherwise the operation with its line dropped. -/

namespace Sys2Proof.Machine

/-- No operation touches the lines behind the presented one. -/
@[simp] theorem done_ctl (s : State) (i : Instr) : (done s i).ports.ctl = s.ports.ctl := by
  cases i
  case rxget =>
    rw [done, State.returnFrame]
    split <;> rfl
  all_goals rfl

/-- An operation that answers a next state has dropped its line, or waits. -/
theorem ctl_of_exec {i : Instr} {s t : State} (h : exec i s = .next t) :
    t.ports.ctl = s.ports.ctl.drop 1 ∨ t = s := by
  obtain ⟨_, rfl⟩ | ⟨_, rfl⟩ := exec_cases h
  · exact .inl (by rw [State.advance_ctl, done_ctl])
  · exact .inr rfl

/-- An idle port presents `NOP`, and dropping a line from it changes nothing. -/
theorem step_of_idle {s : State} (h : s.ports.ctl = []) : step s = exec .nop s ∧ step s = .next s := by
  have hpresented : s.presented = encode .nop := by rw [State.presented, State.slot, h]; rfl
  have hexec : step s = exec .nop s := step_of_decode (by rw [hpresented, decode_encode])
  have hadvance : s.advance = s := by
    rw [State.advance, h, List.drop_nil, ← h]
  exact ⟨hexec, by rw [step_of_presented_nop hpresented, hadvance]⟩

/-- Every operation but a `TXPUT` of a part frame answers a next state. -/
theorem exec_next {i : Instr} {s : State} (h : i = .txput → s.slot.txin.length = 223 * s.cfg.nb) :
    ∃ t, exec i s = .next t := by
  cases i
  case txput =>
    rw [exec_txput_of_length (h rfl)]
    exact State.complete_next _ _ _
  all_goals simp [State.complete_next]

/-- An operation that is not enabled leaves the state as it is; for a `TXPUT` of a whole frame too. -/
theorem exec_of_not_enabled {i : Instr} {s : State} (hen : s.enabled i ≠ true)
    (hframe : i = .txput → s.slot.txin.length = 223 * s.cfg.nb) : exec i s = .next s := by
  obtain ⟨t, ht⟩ := exec_next hframe
  obtain ⟨hen', _⟩ | ⟨_, rfl⟩ := exec_cases ht
  · exact absurd hen' hen
  · exact ht

end Sys2Proof.Machine

open Sys2Proof.Machine in
/-- Settles O2: the rows of the map evaluated. -/
theorem mapRowsDecode : Obligations.MapRowsDecode := ⟨rfl, rfl, rfl⟩

open Sys2Proof.Machine in
/-- Settles O4: the presented word decides the operation, and `done_ctl` what the port shows afterwards. -/
theorem stepRunsThePresentedOperation : Obligations.StepRunsThePresentedOperation := by
  refine ⟨fun s x rest i hctl hdecode => ⟨step_of_decode ?_, fun t hexec => ?_⟩, fun s => step_of_idle⟩
  · rw [presented_of_ctl_cons hctl, hdecode]
  · have hdrop := ctl_of_exec hexec
    rwa [hctl, List.drop_succ_cons, List.drop_zero] at hdrop

open Sys2Proof Sys2Proof.Machine in
/-- Settles O5: a word of the map is an operation's, and `TXPUT` alone can refuse. -/
theorem onlyReservedWordsAndPartFramesAreRefused :
    Obligations.OnlyReservedWordsAndPartFramesAreRefused := by
  intro s
  split
  · next hreserved => exact step_of_reserved (decode_of_not_wordDefined _ hreserved)
  · next hdefined =>
    obtain ⟨i, hi⟩ := (wordDefined_iff _).1 (Bool.not_eq_false _ ▸ hdefined)
    have hstep : step s = exec i s := step_of_decode (by rw [← hi, decode_encode])
    rw [hstep]
    split
    · next hpart =>
      obtain ⟨hword, hlen⟩ := hpart
      have htxput : i = .txput := by
        have hdecode := decode_encode i
        rw [hi, hword] at hdecode
        cases hdecode
        rfl
      rw [htxput, exec_txput_of_ne hlen]
    · next hwhole =>
      refine exec_next fun htxput => ?_
      by_contra hlen
      exact hwhole ⟨by rw [← hi, htxput]; rfl, hlen⟩

open Sys2Proof Sys2Proof.Machine in
/-- Settles O6: each condition is the enabling condition of its operation. -/
theorem operationNotEnabledWaits : Obligations.OperationNotEnabledWaits := by
  have hwait : ∀ {s : State} {i : Instr}, i ≠ .txput → ¬s.enabled i = true → exec i s = .next s :=
    fun hi hen => exec_of_not_enabled hen fun h => absurd h hi
  refine fun s => ⟨fun h => hwait (by decide) (mt s.rsencEnabled_iff.1 h),
    fun h => hwait (by decide) (mt s.cvencEnabled_iff.1 h),
    fun h => hwait (by decide) (mt s.frmrEnabled_iff.1 h),
    fun h => hwait (by decide) (mt s.rrciEnabled_iff.1 h),
    fun h => hwait (by decide) (mt s.rrcdEnabled_iff.1 h),
    fun h => hwait (by decide) (mt s.defrEnabled_iff.1 h),
    fun h => hwait (by decide) (mt s.vitdEnabled_iff.1 h),
    fun h => hwait (by decide) (mt s.rsdecEnabled_iff.1 h),
    fun hlen h => exec_of_not_enabled (fun hen => h (s.txputEnabled_iff.1 hen).2) fun _ => hlen,
    fun h => hwait (by decide) (Bool.eq_false_iff.1 h),
    fun h => hwait (by decide) (mt s.rxputEnabled_iff.1 h),
    fun h => hwait (by decide) (mt s.symputEnabled_iff.1 h),
    fun h => hwait (by decide) (mt s.rxgetEnabled_iff.1 (not_not_intro h))⟩
end

