-- ==== Sys2Proof/Proofs/ResetAndStatus.lean ====
section
/-! Reset, the starts and `RDSTAT` (R236 to R241, R244): the reset values of R55 row by row, and `STATUS` bit by
bit (R26). -/

namespace Sys2Proof.Machine

/-! ## The table of R55 -/

theorem txAtReset_reset (c : Cfg) : TxAtReset c (.reset c) := ⟨rfl, rfl, rfl, rfl, rfl, rfl, rfl, rfl, rfl, rfl⟩

theorem rxAtReset_reset (c : Cfg) : RxAtReset c (.reset c) := by
  constructor
  case dfWin => exact fun j => zeroWindow_get j.val j.isLt
  case vtPm0 => exact startMetrics_get 0 (by decide)
  case vtPm =>
    intro n hn
    refine (startMetrics_get n.val n.isLt).trans (if_neg fun hzero => hn (Fin.ext hzero))
  all_goals rfl

/-! ## `STATUS` -/

/-- Bit `i` of `STATUS` (R26). -/
theorem getLsbD_statusByte (s : State) :
    s.statusByte.getLsbD 0 = s.locked ∧ s.statusByte.getLsbD 1 = s.inverted ∧
      s.statusByte.getLsbD 2 = s.frameBad ∧ s.statusByte.getLsbD 3 = s.txIdle ∧
      s.statusByte.getLsbD 4 = s.rxIdle ∧ s.statusByte.getLsbD 5 = s.rxAvail ∧
      s.statusByte.getLsbD 6 = false ∧ s.statusByte.getLsbD 7 = false := by
  refine ⟨?_, ?_, ?_, ?_, ?_, ?_, ?_, ?_⟩ <;> simp [State.statusByte]

/-- With empty streams no transmit stage is enabled, whatever `CTRL` says. -/
theorem txIdle_of_reset {s : State} (h : s.tx = .reset s.cfg.toCfg) : s.txIdle = true := by
  simp [State.txIdle, State.rsencEnabled, State.cvencEnabled, State.frmrEnabled, State.rrciEnabled, h,
    TxPath.reset, has]

/-- With empty streams no receive stage is enabled; a unit of `RRCD` is at least one sample. -/
theorem rxIdle_of_reset {s : State} (h : s.rx = .reset s.cfg.toCfg) : s.rxIdle = true := by
  have hsps : s.cfg.rrcSps ≠ 0 := Nat.one_le_iff_ne_zero.1 s.cfg.rrcSps_pos
  simp [State.rxIdle, State.rrcdEnabled, State.defrEnabled, State.vitdEnabled, State.rsdecEnabled, h,
    RxPath.reset, has, hsps]

/-- Both paths at reset: idle, and nothing else to tell. -/
theorem statusByte_of_reset {s : State} (htx : s.tx = .reset s.cfg.toCfg) (hrx : s.rx = .reset s.cfg.toCfg) :
    s.statusByte = 0x18#8 := by
  have hlocked : s.locked = false := by rw [State.locked, hrx]; rfl
  have hinverted : s.inverted = false := by rw [State.inverted, hrx]; rfl
  have hbad : s.frameBad = false := by rw [State.frameBad, hrx]; rfl
  have havail : s.rxAvail = false := by rw [State.rxAvail, hrx]; rfl
  rw [State.statusByte, hlocked, hinverted, hbad, havail, txIdle_of_reset htx, rxIdle_of_reset hrx]
  rfl

/-- `RDSTAT` appends its pair to the status port and changes nothing else (R244). -/
theorem exec_rdstat_eq (s : State) :
    exec .rdstat s =
      .next { s.advance with
        ports := { s.advance.ports with status := s.ports.status ++ [(s.ctrlRead, s.statusByte)] } } := rfl

/-! ## The starts -/

theorem startTx_ctrl_eq_mask (s : State) :
    (s.startTx false).ctrl = (s.ctrl ||| 0x01#8) &&& ~~~0x04#8 ∧ (s.startTx true).ctrl = s.ctrl ||| 0x05#8 :=
  ⟨rfl, BitVec.or_assoc s.ctrl 0x01#8 0x04#8⟩

theorem startRx_ctrl_eq_mask (s : State) :
    (s.startRx false).ctrl = (s.ctrl ||| 0x02#8) &&& ~~~0x08#8 ∧ (s.startRx true).ctrl = s.ctrl ||| 0x0A#8 :=
  ⟨rfl, BitVec.or_assoc s.ctrl 0x02#8 0x08#8⟩

/-- What `RDSTAT` returns where both paths are at reset. -/
theorem status_of_exec_rdstat {s t u : State} {ctrl : Byte} (h : exec .rdstat t = .next u)
    (hstatus : t.ports.status = s.ports.status) (htx : t.tx = .reset t.cfg.toCfg)
    (hrx : t.rx = .reset t.cfg.toCfg) (hctrl : t.ctrlRead = ctrl) : u.ports.status = s.ports.status ++ [(ctrl, 0x18#8)] := by
  rw [exec_rdstat_eq] at h
  cases h
  rw [← hstatus, ← statusByte_of_reset htx hrx, ← hctrl]

/-- `CTRL` as it is read after `RST` and a start. -/
theorem ctrlRead_of_start_of_rst (s : State) :
    (s.resetAll.advance.startTx false).advance.ctrlRead = 0x01#8 ∧
      (s.resetAll.advance.startTx true).advance.ctrlRead = 0x05#8 ∧
      (s.resetAll.advance.startRx false).advance.ctrlRead = 0x02#8 ∧
      (s.resetAll.advance.startRx true).advance.ctrlRead = 0x0A#8 := by
  simp only [State.ctrlRead, State.advance_ctrl, State.startTx_ctrl, State.startRx_ctrl, State.resetAll_ctrl]
  decide

end Sys2Proof.Machine

open Sys2Proof.Machine in
/-- Settles O8: `RST` puts both paths into the reset table, from which `STATUS` reads 0x18. -/
theorem rstRestoresTheResetTable : Obligations.RstRestoresTheResetTable := by
  refine ⟨rfl, fun s => ⟨s.resetAll.advance, rfl, rfl, txAtReset_reset _, rxAtReset_reset _, rfl, rfl, ?_⟩⟩
  have hstatus : s.resetAll.advance.statusByte = 0x18#8 := statusByte_of_reset rfl rfl
  have hctrl : s.resetAll.advance.ctrlRead = 0x00#8 := by
    rw [State.ctrlRead, State.advance_ctrl, State.resetAll_ctrl]
    decide
  rw [exec_rdstat_eq, hstatus, hctrl]

open Sys2Proof.Machine in
/-- Settles O9, row by row (R55). -/
theorem resetStateHoldsTheTable : Obligations.ResetStateHoldsTheTable :=
  ⟨rfl, txAtReset_reset _, rxAtReset_reset _, rfl, rfl⟩

open Sys2Proof.Machine in
/-- Settles O10: the transmit path at reset, two bits of `CTRL` written, and `RDSTAT` from there. -/
theorem txStartsResetAndEnableTheTxPath : Obligations.TxStartsResetAndEnableTheTxPath := by
  refine ⟨rfl, rfl, fun s => ⟨?_, ?_⟩, fun s htap => ?_, fun s r t u hrst => ?_⟩
  · exact ⟨_, rfl, txAtReset_reset _, (startTx_ctrl_eq_mask s).1, rfl, rfl, rfl⟩
  · exact ⟨_, rfl, txAtReset_reset _, (startTx_ctrl_eq_mask s).2, rfl, rfl, rfl⟩
  · refine Bool.eq_false_iff.2 fun hen => ?_
    obtain ⟨_, hoff, _⟩ := s.rrciEnabled_iff.1 hen
    exact Bool.false_ne_true (hoff.symm.trans htap)
  · cases hrst
    obtain ⟨htx, htxb, _, _⟩ := ctrlRead_of_start_of_rst s
    refine ⟨fun hstart hread => ?_, fun hstart hread => ?_⟩ <;> cases hstart
    · exact status_of_exec_rdstat hread rfl rfl rfl htx
    · exact status_of_exec_rdstat hread rfl rfl rfl htxb

open Sys2Proof.Machine in
/-- Settles O11: the receive path at reset, two bits of `CTRL` written, and `RDSTAT` from there. -/
theorem rxStartsResetAndEnableTheRxPath : Obligations.RxStartsResetAndEnableTheRxPath := by
  refine ⟨rfl, rfl, fun s => ⟨?_, ?_⟩, fun s hsrc => ?_, fun s r t u hrst => ?_⟩
  · exact ⟨_, rfl, rxAtReset_reset _, (startRx_ctrl_eq_mask s).1, rfl, rfl, rfl⟩
  · exact ⟨_, rfl, rxAtReset_reset _, (startRx_ctrl_eq_mask s).2, rfl, rfl, rfl⟩
  · refine Bool.eq_false_iff.2 fun hen => ?_
    obtain ⟨_, hoff, _⟩ := s.rrcdEnabled_iff.1 hen
    exact Bool.false_ne_true (hoff.symm.trans hsrc)
  · cases hrst
    obtain ⟨_, _, hrx, hrxs⟩ := ctrlRead_of_start_of_rst s
    refine ⟨fun hstart hread => ?_, fun hstart hread => ?_⟩ <;> cases hstart
    · exact status_of_exec_rdstat hread rfl rfl rfl hrx
    · exact status_of_exec_rdstat hread rfl rfl rfl hrxs

open Sys2Proof Sys2Proof.Machine in
/-- Settles O13, bit by bit (R26). -/
theorem rdstatReturnsCtrlAndStatus : Obligations.RdstatReturnsCtrlAndStatus := by
  refine ⟨rfl, fun s => ⟨s.statusByte, exec_rdstat_eq s, ?_⟩⟩
  obtain ⟨h0, h1, h2, h3, h4, h5, h6, h7⟩ := getLsbD_statusByte s
  refine ⟨?_, h1, h2, ?_, ?_, ?_, h6, h7⟩
  · rw [h0, State.locked, decide_eq_true_iff]
  · rw [h3, State.txIdle]
    simp [State.enabled, and_assoc]
  · rw [h4, State.rxIdle]
    simp [State.enabled, and_assoc]
  · rw [h5]
    exact s.rxgetEnabled_iff
end

