-- ==== Sys2Proof/Proofs/TransmitStages.lean ====
section
/-! One firing of each transmit stage (R144, R153, R164, R173), on a stream whose head is given. -/

namespace Sys2Proof.Machine

/-! ## Streams with a known head -/

theorem popped_append {α : Type} (d rest : List α) : popped (d ++ rest) d.length = d := List.take_left

theorem left_append {α : Type} (d rest : List α) : left (d ++ rest) d.length = rest := List.drop_left

theorem popped_one_cons {α : Type} (x : α) (rest : List α) : popped (x :: rest) 1 = [x] := rfl

theorem left_one_cons {α : Type} (x : α) (rest : List α) : left (x :: rest) 1 = rest := rfl

/-- An enabled operation that writes the transmit path alone. -/
theorem exec_of_setTx {i : Instr} {s : State} {t : TxPath} (hen : s.enabled i = true)
    (h : done s i = s.setTx t) : exec i s = .next { s.advance with tx := t } := by
  rw [exec_of_enabled hen, h]
  rfl

/-- An enabled operation that writes the receive path alone. -/
theorem exec_of_setRx {i : Instr} {s : State} {r : RxPath} (hen : s.enabled i = true)
    (h : done s i = s.setRx r) : exec i s = .next { s.advance with rx := r } := by
  rw [exec_of_enabled hen, h]
  rfl

/-! ## RSENC -/

theorem rsencFire_of_append (c : Cfg) {t : TxPath} {d rest : List Byte} (hq : t.qTxin = d ++ rest)
    (hlen : d.length = 223) :
    rsencFire c t = { t with qTxin := rest, qRsc := t.qRsc ++ (d ++ rsParity c d) } := by
  have hpop : popped t.qTxin 223 = d := by rw [hq, ← hlen, popped_append]
  have hleft : left t.qTxin 223 = rest := by rw [hq, ← hlen, left_append]
  rw [rsencFire, hpop, hleft]
  rfl

/-! ## Bits and bytes -/

/-- Eight bits packed and unpacked are the bits: R71 and R70 are inverse. -/
theorem bitsOfByte_byteOfBits : ∀ b7 b6 b5 b4 b3 b2 b1 b0 : Bit,
    bitsOfByte (byteOfBits [b7, b6, b5, b4, b3, b2, b1, b0]) = [b7, b6, b5, b4, b3, b2, b1, b0] := by
  decide +kernel

/-- Packing loses no bit. -/
theorem flatMap_bitsOfByte_packBytes (l : List Bit) :
    (packBytes l).1.flatMap bitsOfByte ++ (packBytes l).2 = l := by
  induction l using packBytes.induct with
  | case1 b7 b6 b5 b4 b3 b2 b1 b0 rest ih =>
    simp only [packBytes, List.flatMap_cons, bitsOfByte_byteOfBits, List.append_assoc, ih]
    rfl
  | case2 short h =>
    unfold packBytes
    split
    · exact absurd rfl (h _ _ _ _ _ _ _ _ _)
    · rfl

theorem getElem_bitsOfByte (x : Byte) (k : Nat) (hk : k < (bitsOfByte x).length) :
    (bitsOfByte x)[k] = x.getMsbD k := by
  simp only [bitsOfByte, List.getElem_map, List.getElem_range]

/-- The bits of two bytes, one behind the other, are those of the sixteen-bit word. -/
theorem getMsbD_append_bytes (hi lo : Byte) (k : Nat) (hk : k < 16) :
    (hi ++ lo).getMsbD k = (bitsOfByte hi ++ bitsOfByte lo).getD k false := by
  have hlen : k < (bitsOfByte hi ++ bitsOfByte lo).length := by simpa using hk
  rw [BitVec.getMsbD_append, List.getD_eq_getElem _ _ hlen, List.getElem_append]
  by_cases h8 : k < 8
  · rw [dif_pos (by simpa using h8), getElem_bitsOfByte, if_neg (by omega)]
  · rw [dif_neg (by simpa using h8), getElem_bitsOfByte, if_pos (by omega), length_bitsOfByte]

/-! ## CVENC -/

/-- The register and the bits of the byte behind it (R151). -/
def convLine (sr : BitVec 6) (x : Byte) : BitVec 14 := sr ++ x

/-- The window at bit `j` of the byte: the seven newest bits of the line. -/
def lineWindow (sr : BitVec 6) (x : Byte) (j : Nat) : BitVec 7 := (convLine sr x >>> (7 - j)).setWidth 7

/-- The register after `j` bits of the byte. -/
def lineRegister (sr : BitVec 6) (x : Byte) (j : Nat) : BitVec 6 := (convLine sr x >>> (8 - j)).setWidth 6

/-- The bits of a window: the input bit in front of the register (R151). -/
theorem getLsbD_convWindow (sr : BitVec 6) (b : Bit) (i : Nat) :
    (convWindow sr b).getLsbD i = if i = 0 then b else decide (i < 7) && sr.getLsbD (i - 1) := by
  cases i with
  | zero => cases b <;> simp [convWindow]
  | succ i =>
    rw [Nat.add_sub_cancel, if_neg (Nat.succ_ne_zero i)]
    by_cases hi : i + 1 < 7
    · cases b <;> simp [convWindow, hi]
    · cases b <;> simp [convWindow, hi]

theorem getLsbD_convLine (sr : BitVec 6) (x : Byte) (i : Nat) :
    (convLine sr x).getLsbD i = if i < 8 then x.getLsbD i else sr.getLsbD (i - 8) :=
  BitVec.getLsbD_append

theorem convWindow_lineRegister (sr : BitVec 6) (x : Byte) {j : Nat} (hj : j < 8) :
    convWindow (lineRegister sr x j) (x.getMsbD j) = lineWindow sr x j := by
  refine BitVec.eq_of_getLsbD_eq fun i hi => ?_
  rw [getLsbD_convWindow, lineWindow, lineRegister, BitVec.getLsbD_setWidth, BitVec.getLsbD_setWidth,
    BitVec.getLsbD_ushiftRight, BitVec.getLsbD_ushiftRight]
  split
  · next hzero =>
    rw [hzero, getLsbD_convLine, if_pos (by omega), BitVec.getMsbD_eq_getLsbD]
    simp [hj]
  · next hpos =>
    have hsame : 8 - j + (i - 1) = 7 - j + i := by omega
    have hlow : i - 1 < 6 := by omega
    simp only [hsame, hlow, hi, decide_true, Bool.true_and]

theorem convNext_lineWindow (sr : BitVec 6) (x : Byte) {j : Nat} (hj : j < 8) :
    convNext (lineWindow sr x j) = lineRegister sr x (j + 1) := by
  rw [convNext, lineWindow, lineRegister, BitVec.setWidth_setWidth_of_le _ (by decide)]
  congr 2
  omega

theorem lineRegister_zero (sr : BitVec 6) (x : Byte) : lineRegister sr x 0 = sr := by
  refine BitVec.eq_of_getLsbD_eq fun i hi => ?_
  rw [lineRegister, BitVec.getLsbD_setWidth, BitVec.getLsbD_ushiftRight, getLsbD_convLine,
    if_neg (by omega)]
  simp [hi]

theorem lineRegister_eight (sr : BitVec 6) (x : Byte) : lineRegister sr x 8 = x.setWidth 6 := by
  refine BitVec.eq_of_getLsbD_eq fun i hi => ?_
  rw [lineRegister, BitVec.getLsbD_setWidth, BitVec.getLsbD_ushiftRight, getLsbD_convLine,
    if_pos (by omega), BitVec.getLsbD_setWidth]
  simp

/-- The coded pair at bit `j` of the byte (R152). -/
def linePair (c : Cfg) (sr : BitVec 6) (x : Byte) (j : Nat) : List Bit :=
  [convOut1 c (lineWindow sr x j), convOut2 c (lineWindow sr x j)]

/-- Coding the first `n` bits of a byte. -/
theorem convBits_take_byte (c : Cfg) (sr : BitVec 6) (x : Byte) {n : Nat} (hn : n ≤ 8) :
    convBits c sr ((List.range n).map fun i => x.getMsbD i) =
      ((List.range n).flatMap (linePair c sr x), lineRegister sr x n) := by
  induction n with
  | zero => rw [lineRegister_zero]; rfl
  | succ n ih =>
    rw [List.range_succ, List.map_append, convBits_append, ih (by omega), List.flatMap_append]
    simp only [List.map_cons, List.map_nil, convBits_cons, convBits_nil, List.flatMap_cons,
      List.flatMap_nil, List.append_nil, convWindow_lineRegister sr x hn, convNext_lineWindow sr x hn, linePair]

theorem convBits_byte (c : Cfg) (sr : BitVec 6) (x : Byte) :
    convBits c sr (bitsOfByte x) = ((List.range 8).flatMap (linePair c sr x), x.setWidth 6) := by
  rw [bitsOfByte, convBits_take_byte c sr x le_rfl, lineRegister_eight]

/-- The pairs stand at the even positions. -/
theorem getD_flatMap_linePair (c : Cfg) (sr : BitVec 6) (x : Byte) (j : Fin 8) :
    ((List.range 8).flatMap (linePair c sr x)).getD (2 * j.val) false = convOut1 c (lineWindow sr x j) ∧
      ((List.range 8).flatMap (linePair c sr x)).getD (2 * j.val + 1) false =
        convOut2 c (lineWindow sr x j) := by
  fin_cases j <;> exact ⟨rfl, rfl⟩

/-- Two bytes make sixteen coded bits. -/
theorem packBytes_of_length_sixteen {l : List Bit} (h : l.length = 16) :
    ∃ hi lo : Byte, (packBytes l).1 = [hi, lo] ∧ bitsOfByte hi ++ bitsOfByte lo = l := by
  obtain ⟨hi, lo, hbytes⟩ := List.length_eq_two.1
    (show (packBytes l).1.length = 2 by rw [length_packBytes_fst, h])
  have hrest : (packBytes l).2 = [] :=
    List.eq_nil_of_length_eq_zero (by rw [length_packBytes_snd, h])
  have hall := flatMap_bitsOfByte_packBytes l
  rw [hbytes, hrest] at hall
  exact ⟨hi, lo, hbytes, by simpa using hall⟩

theorem cvencFire_of_cons (c : Cfg) {t : TxPath} {x : Byte} {rest : List Byte} (hq : t.qRsc = x :: rest) :
    cvencFire c t = { t with
      qRsc := rest
      qCvc := t.qCvc ++ (packBytes ((List.range 8).flatMap (linePair c (cvStart t) x))).1
      cvSr := x.setWidth 6
      cvCnt := countTo t.cvCnt c.frameRsBytes } := by
  rw [cvencFire, hq, popped_one_cons, left_one_cons, List.headD_cons, convBits_byte]
  rfl

/-! ## FRMR -/

theorem syncBits_eq_map_getLsbD (c : Cfg) :
    syncBits c = (List.range 32).map fun k => c.syncWord.getLsbD (31 - k) := by
  refine List.map_congr_left fun k hk => ?_
  rw [BitVec.getMsbD_eq_getLsbD]
  simp [List.mem_range.1 hk]

/-- The bits of a byte XORed with the key stream, position by position (R163, R164). -/
theorem scramble_bitsOfByte (c : Cfg) (start : BitVec 32) (x : Byte) :
    (scramble c start (bitsOfByte x)).1 =
      (List.range 8).map fun j => x.getLsbD (7 - j) ^^ (scrIterate c j start).getLsbD 0 := by
  refine List.ext_getElem (by simp) fun j hj _ => ?_
  have hj8 : j < 8 := by simpa using hj
  have hbit := scramble_getD c start (bitsOfByte x) j (by simpa using hj8)
  rw [List.getD_eq_getElem _ _ hj, List.getD_eq_getElem _ _ (by simpa using hj8), getElem_bitsOfByte,
    BitVec.getMsbD_eq_getLsbD] at hbit
  rw [hbit, List.getElem_map, List.getElem_range, scrOut]
  simp [hj8]

theorem frmrFire_of_cons (c : Cfg) {t : TxPath} {x : Byte} {rest : List Byte} (hq : t.qCvc = x :: rest) :
    frmrFire c t = { t with
      qCvc := rest
      qBits := t.qBits ++ (frHeader c t ++ (scramble c (frStart c t) (bitsOfByte x)).1)
      frScr := scrIterate c 8 (frStart c t)
      frCnt := countTo t.frCnt c.frameCvBytes } := by
  have hscr := scramble_register c (frStart c t) (bitsOfByte x)
  rw [length_bitsOfByte] at hscr
  rw [frmrFire, hq, popped_one_cons, left_one_cons, List.headD_cons, hscr]
  rfl

/-! ## RRCI -/

/-- A sum along a list of numbers, as a finite sum. -/
theorem sum_map_range (n : Nat) (f : Nat → Soft) :
    ((List.range n).map f).sum = ∑ k ∈ Finset.range n, f k := rfl

/-- The polyphase sum with the new symbol at the head of the history; beyond the table the taps are 0
(R173). -/
theorem interpolate_eq_sum (c : Config) (hist : List Soft) (a0 : Soft) (p : Nat) :
    interpolate c.toCfg hist a0 p =
      ∑ k ∈ Finset.range (c.rrcH + 1), c.tap (k * c.rrcSps + p) * (a0 :: hist).getD k 0 := by
  rw [Finset.sum_range_succ', interpolate, sum_map_range, add_comm, Nat.zero_mul, Nat.zero_add,
    List.getD_cons_zero]
  refine congrArg (· + _) (Finset.sum_congr rfl fun k _ => ?_)
  rw [List.getD_cons_succ]
  split
  · rfl
  · next hbeyond => rw [c.tap_of_ge (by omega), zero_mul]

theorem rrciFire_of_cons (c : Cfg) {t : TxPath} {b : Bit} {rest : List Bit} (hq : t.qBits = b :: rest) :
    rrciFire c t = { t with
      qBits := rest
      qTxout := t.qTxout ++ interpolateAll c t.riHist (sym b)
      riHist := (sym b :: t.riHist).take c.rrcH } := by
  rw [rrciFire, hq]
  rfl

end Sys2Proof.Machine

open Sys2Proof Sys2Proof.Machine in
/-- Settles O14. -/
theorem rsencAppendsParity : Obligations.RsencAppendsParity := by
  intro s d rest hen hq hlen hroom
  have henabled : s.enabled .rsenc = true :=
    s.rsencEnabled_iff.2 ⟨hen, by rw [hq, List.length_append]; omega, hroom⟩
  exact exec_of_setTx henabled (congrArg s.setTx (rsencFire_of_append s.cfg.toCfg hq hlen))

open Sys2Proof Sys2Proof.Machine in
/-- Settles O15: the windows along the byte are those of the line of register and byte. -/
theorem cvencCodesAByte : Obligations.CvencCodesAByte := by
  intro s x rest hen hq hroom
  have henabled : s.enabled .cvenc = true :=
    s.cvencEnabled_iff.2 ⟨hen, by rw [hq]; exact Nat.succ_pos _, hroom⟩
  have hcoded : ((List.range 8).flatMap (linePair s.cfg.toCfg (cvStart s.tx) x)).length = 16 := rfl
  obtain ⟨hi, lo, hbytes, hbits⟩ := packBytes_of_length_sixteen hcoded
  refine ⟨hi, lo, exec_of_setTx henabled (congrArg s.setTx ?_), fun j => ?_⟩
  · rw [cvencFire_of_cons s.cfg.toCfg hq, hbytes]
    rfl
  · obtain ⟨heven, hodd⟩ := getD_flatMap_linePair s.cfg.toCfg (cvStart s.tx) x j
    have hj := j.isLt
    refine ⟨?_, ?_⟩
    · rw [getMsbD_append_bytes _ _ _ (by omega), hbits, heven]
      rfl
    · rw [getMsbD_append_bytes _ _ _ (by omega), hbits, hodd]
      rfl

open Sys2Proof Sys2Proof.Machine in
/-- Settles O16. -/
theorem frmrScramblesAByte : Obligations.FrmrScramblesAByte := by
  intro s x rest hen hq hroom
  have henabled : s.enabled .frmr = true :=
    s.frmrEnabled_iff.2 ⟨hen, by rw [hq]; exact Nat.succ_pos _, hroom⟩
  refine exec_of_setTx henabled (congrArg s.setTx ?_)
  rw [frmrFire_of_cons s.cfg.toCfg hq, scramble_bitsOfByte, frHeader, syncBits_eq_map_getLsbD]
  rfl

open Sys2Proof Sys2Proof.Machine in
/-- Settles O17. -/
theorem rrciShapesASymbol : Obligations.RrciShapesASymbol := by
  intro s b rest hen htap hq hroom
  have henabled : s.enabled .rrci = true :=
    s.rrciEnabled_iff.2 ⟨hen, htap, by rw [hq]; exact Nat.succ_pos _, hroom⟩
  refine exec_of_setTx henabled (congrArg s.setTx ?_)
  rw [rrciFire_of_cons s.cfg.toCfg hq, interpolateAll]
  simp only [interpolate_eq_sum]
  rfl
end

