-- ==== Sys2Proof/Proofs/ReceiveStages.lean ====
section
/-! One firing of each receive stage (R176, R189, R204, R220) on a stream whose head is given, and the host moves
(R246 to R250). -/

namespace Sys2Proof.Machine

/-! ## RRCD -/

theorem decimate_eq_sum (c : Cfg) (hist : List Soft) (z : List Sample) :
    decimate c hist z = ∑ j ∈ Finset.range c.rrcNt, c.tap j * (decimatorLine c hist z).getD j 0 := rfl

theorem rrcdFire_of_append (c : Cfg) {r : RxPath} {z rest : List Sample} (hq : r.qRxin = z ++ rest)
    (hlen : z.length = c.rrcSps) :
    rrcdFire c r = { r with
      qRxin := rest
      qSym := r.qSym ++ [decimate c r.rdHist z]
      rdHist := rdHistNext c r.rdHist z } := by
  have hpop : popped r.qRxin c.rrcSps = z := by rw [hq, ← hlen, popped_append]
  have hleft : left r.qRxin c.rrcSps = rest := by rw [hq, ← hlen, left_append]
  rw [rrcdFire, hpop, hleft]
  rfl

/-! ## DEFR -/

theorem softAbs_eq_abs (x : Soft) : softAbs x = |x| := by
  unfold softAbs
  split
  · next hneg => exact (abs_of_neg hneg).symm
  · next hpos => exact (abs_of_nonneg (not_lt.1 hpos)).symm

theorem locks_iff (c : Cfg) (corr : Soft) : locks c corr = true ↔ c.dfThreshold ≤ |corr| := by
  rw [locks, decide_eq_true_iff, softAbs_eq_abs]

/-- The correlation as R188 writes it. -/
theorem correlation_ofFn (c : Cfg) (win : Fin 32 → Soft) :
    correlation c (Vector.ofFn win) =
      ∑ j : Fin 32, win j * (if c.syncWord.getLsbD (31 - j.val) then 1 else -1) := by
  rw [correlation, List.sum_ofFn]
  refine Finset.sum_congr rfl fun j _ => ?_
  rw [Fin.getElem_fin, Vector.getElem_ofFn]
  rfl

/-- A lock from the window `w` on (R189). -/
def lockedRx (c : Cfg) (r : RxPath) (corr : Soft) : RxPath :=
  { r with
    dfInv := decide (corr < 0)
    dfState := .lock
    dfCnt := 0
    dfScr := c.scrSeed
    dfWin := zeroWindow }

theorem defrFire_of_hunt (c : Cfg) {r : RxPath} {x : Soft} {rest : List Soft} (hunt : r.dfState = .hunt)
    (hq : r.qSym = x :: rest) :
    defrFire c r =
      if c.dfThreshold ≤ |correlation c (windowPush r.dfWin x)| then
        lockedRx c { r with qSym := rest } (correlation c (windowPush r.dfWin x))
      else { r with qSym := rest, dfWin := windowPush r.dfWin x } := by
  simp only [defrFire, hunt, hq, popped_one_cons, left_one_cons, List.headD_cons, huntStep, locks_iff]
  rfl

/-- The sign repaired for `DF_INV` and for the key bit: two negations cancel. -/
theorem flipIf_flipIf (key inv : Bool) (x : Soft) :
    flipIf key (flipIf inv x) = if inv = key then x else -x := by
  cases key <;> cases inv <;> simp [flipIf]

theorem defrFire_of_lock (c : Cfg) {r : RxPath} {x : Soft} {rest : List Soft} (lock : r.dfState = .lock)
    (hq : r.qSym = x :: rest) :
    defrFire c r = { r with
      qSym := rest
      qPay := r.qPay ++ [if r.dfInv = r.dfScr.getLsbD 0 then x else -x]
      dfScr := scrNext c r.dfScr
      dfState := if r.dfCnt + 1 = c.frameCodedBits then .hunt else .lock
      dfCnt := countTo r.dfCnt c.frameCodedBits } := by
  simp only [defrFire, lock, hq, popped_one_cons, left_one_cons, List.headD_cons, lockStep, flipIf_flipIf]
  rfl

/-! ## VITD -/

theorem vitdFire_of_cons (c : Cfg) {r : RxPath} {r1 r2 : Soft} {rest : List Soft}
    (hq : r.qPay = r1 :: r2 :: rest) :
    vitdFire c r = { r with
      qPay := rest
      qDec := r.qDec ++ (packedNext c r).1
      vtPm := acsMetrics c (vitStart r).vtPm r1 r2
      vtSurv := (vitStart r).vtSurv ++ [acsDecisions c (vitStart r).vtPm r1 r2]
      vtAcc := (packedNext c r).2
      vtNout := decidedNext c r
      vtCnt := countTo r.vtCnt c.frameDecBits } := by
  have hpm : (vitdFire c r).vtPm = acsMetrics c (vitStart r).vtPm r1 r2 := by
    rw [vitdFire_vtPm, hq]
    rfl
  have hsurv : (vitdFire c r).vtSurv =
      (vitStart r).vtSurv ++ [acsDecisions c (vitStart r).vtPm r1 r2] := by
    simp only [vitdFire, vitStep, hq]
    rfl
  have hleft : left r.qPay 2 = rest := by rw [hq]; rfl
  rw [vitdFire_frame, hpm, hsurv, hleft, vitdFire_qDec, vitdFire_vtNout, vitdFire_vtAcc]

/-- No new bit decided: nothing is packed. -/
theorem packedNext_of_le {c : Cfg} {r : RxPath}
    (h : bitsDecided c (vitStart r).vtCnt (vitStart r).vtNout ≤ (vitStart r).vtNout) :
    packedNext c r = ([], (vitStart r).vtAcc) := by
  rw [packedNext, decidedNext, max_eq_left h, vitPack, if_neg (lt_irrefl _)]

/-- New bits decided: they are packed behind those that waited. -/
theorem packedNext_of_lt {c : Cfg} {r : RxPath}
    (h : (vitStart r).vtNout < bitsDecided c (vitStart r).vtCnt (vitStart r).vtNout) :
    packedNext c r = packBytes ((vitStart r).vtAcc ++
      vitDecide (vitdFire c r).vtPm (vitdFire c r).vtSurv (vitStart r).vtNout
        (bitsDecided c (vitStart r).vtCnt (vitStart r).vtNout)) := by
  rw [packedNext, decidedNext, max_eq_right h.le, vitPack, if_pos h]

/-- A branch metric as R201 and R202 write it. -/
theorem branchMetric_eq_sq (c : Cfg) (r1 r2 : Soft) (w : BitVec 7) :
    branchMetric c r1 r2 w =
      (r1 - (if parity (w &&& c.convG1) then 1 else -1)) ^ 2 +
        (r2 - (if parity (w &&& c.convG2) then 1 else -1)) ^ 2 := by
  rw [pow_two, pow_two]
  rfl

/-- `e` of R204 with the last pair written as the statements write it. -/
theorem bitsDecided_eq (c : Config) (t nout : Nat) :
    bitsDecided c.toCfg t nout = if t + 1 = 2040 * c.nb then 2040 * c.nb
      else match c.vitTb with
        | .full => nout
        | .window d => if d ≤ t + 1 then t + 2 - d else nout := by
  have hpos := Config.frameDecBits_pos c
  have hlast : t = c.frameDecBits - 1 ↔ t + 1 = 2040 * c.nb := by
    rw [Cfg.frameDecBits] at *
    omega
  simp only [bitsDecided, hlast]
  rfl

/-! ## RSDEC -/

theorem rsdecFire_of_append (c : Cfg) {r : RxPath} {block rest : List Byte} (hq : r.qDec = block ++ rest)
    (hlen : block.length = 255) :
    rsdecFire c r =
      if r.rsdBlk + 1 = c.nb then
        { r with
          qDec := rest
          qRxout := r.qRxout ++
            [⟨frameStatus (r.rsdBad || decide ((rsDecode c block).1 = .uncorrectable)),
              r.rsdBuf ++ (rsDecode c block).2⟩]
          rsdBlk := 0
          rsdBad := false
          rsdBuf := [] }
      else
        { r with
          qDec := rest
          rsdBlk := r.rsdBlk + 1
          rsdBad := r.rsdBad || decide ((rsDecode c block).1 = .uncorrectable)
          rsdBuf := r.rsdBuf ++ (rsDecode c block).2 } := by
  have hpop : popped r.qDec 255 = block := by rw [hq, ← hlen, popped_append]
  have hleft : left r.qDec 255 = rest := by rw [hq, ← hlen, left_append]
  simp only [rsdecFire, hpop, hleft, rsdAccept_eq]
  rfl

end Sys2Proof.Machine

open Sys2Proof Sys2Proof.Machine in
/-- Settles O18. -/
theorem rrcdFiltersSamples : Obligations.RrcdFiltersSamples := by
  intro s z rest hen hsrc hq hlen hroom
  have henabled : s.enabled .rrcd = true :=
    s.rrcdEnabled_iff.2 ⟨hen, hsrc, by rw [hq, List.length_append]; omega, hroom⟩
  exact exec_of_setRx henabled (congrArg s.setRx (rrcdFire_of_append s.cfg.toCfg hq hlen))

open Sys2Proof Sys2Proof.Machine in
/-- Settles O19: `huntStep` with the correlation and the threshold as R188 and R192 write them. -/
theorem defrHunts : Obligations.DefrHunts := by
  intro s x rest hen hunt hq hroom
  have henabled : s.enabled .defr = true :=
    s.defrEnabled_iff.2 ⟨hen, by rw [hq]; exact Nat.succ_pos _, hroom⟩
  refine exec_of_setRx henabled (congrArg s.setRx ?_)
  rw [defrFire_of_hunt s.cfg.toCfg hunt hq, windowPush, correlation_ofFn]
  rfl

open Sys2Proof Sys2Proof.Machine in
/-- Settles O20. -/
theorem defrPassesAPayloadSymbol : Obligations.DefrPassesAPayloadSymbol := by
  intro s x rest hen lock hq hroom
  have henabled : s.enabled .defr = true :=
    s.defrEnabled_iff.2 ⟨hen, by rw [hq]; exact Nat.succ_pos _, hroom⟩
  exact exec_of_setRx henabled (congrArg s.setRx (defrFire_of_lock s.cfg.toCfg lock hq))

open Sys2Proof Sys2Proof.Machine in
/-- Settles O21: the registers a pair starts from are those of `vitStart`, and packing loses no bit. -/
theorem vitdProcessesAPair : Obligations.VitdProcessesAPair := by
  intro s r1 r2 rest hen hq hroom c first pm surv acc nout bm m0 m1 e
  have henabled : s.enabled .vitd = true :=
    s.vitdEnabled_iff.2 ⟨hen, by rw [hq, List.length_cons, List.length_cons]; omega, hroom⟩
  obtain ⟨_, _, hcnt⟩ := vitStart_frame s.rx
  have hregisters : (∀ n : Fin 64, (vitStart s.rx).vtPm[n] = pm n) ∧ (vitStart s.rx).vtSurv = surv ∧
      (vitStart s.rx).vtAcc = acc ∧ (vitStart s.rx).vtNout = nout := by
    by_cases hfirst : s.rx.vtCnt = 0
    · simp only [vitStart_of_first hfirst, pm, surv, acc, nout, first, hfirst, if_true, and_self, and_true]
      intro n
      rw [Fin.getElem_fin, startMetrics_get]
      simp only [Fin.ext_iff, Fin.val_zero]
    · simp only [vitStart_of_inside hfirst, pm, surv, acc, nout, first, hfirst, if_false, and_self,
        implies_true]
  obtain ⟨hpm, hsurv, hacc, hnout⟩ := hregisters
  have hbits : bitsDecided c s.rx.vtCnt nout = e := bitsDecided_eq s.cfg s.rx.vtCnt nout
  have hbm : ∀ w, branchMetric c r1 r2 w = bm w := branchMetric_eq_sq c r1 r2
  have hm0 : ∀ n, acsMetric0 c (vitStart s.rx).vtPm r1 r2 n = m0 n := fun n => by
    rw [acsMetric0, hbm]
    exact congrArg (Metric.add · _) (hpm ⟨n.val / 2, by omega⟩)
  have hm1 : ∀ n, acsMetric1 c (vitStart s.rx).vtPm r1 r2 n = m1 n := fun n => by
    rw [acsMetric1, hbm]
    exact congrArg (Metric.add · _) (hpm ⟨n.val / 2 + 32, by omega⟩)
  have hfire := vitdFire_of_cons c hq
  refine ⟨acsMetrics c (vitStart s.rx).vtPm r1 r2, acsDecisions c (vitStart s.rx).vtPm r1 r2,
    (packedNext c s.rx).1, (packedNext c s.rx).2, ?_, fun n => ?_, fun hle => ?_, fun hlt => ?_⟩
  · refine exec_of_setRx henabled (congrArg s.setRx ?_)
    rw [hfire, hsurv, decidedNext, hcnt, hnout, hbits]
    rfl
  · rw [acsDecisions_get, acsMetrics_get, acsDecision, hm0, hm1]
    exact ⟨rfl, rfl⟩
  · rw [packedNext_of_le (by rw [hcnt, hnout, hbits]; exact hle), hacc]
    exact ⟨rfl, rfl⟩
  · rw [packedNext_of_lt (by rw [hcnt, hnout, hbits]; exact hlt), flatMap_bitsOfByte_packBytes,
      length_packBytes_snd, hfire, hcnt, hnout, hbits, hacc, hsurv]
    exact ⟨Nat.mod_lt _ (by decide), rfl⟩

open Sys2Proof Sys2Proof.Machine in
/-- Settles O22. -/
theorem rsdecDecodesABlock : Obligations.RsdecDecodesABlock := by
  intro s block rest hen hq hlen hroom
  have henabled : s.enabled .rsdec = true :=
    s.rsdecEnabled_iff.2 ⟨hen, by rw [hq, List.length_append]; omega, hroom⟩
  exact exec_of_setRx henabled (congrArg s.setRx (rsdecFire_of_append s.cfg.toCfg hq hlen))

open Sys2Proof Sys2Proof.Machine in
/-- Settles O24. -/
theorem txgetAndBitgetDrainTheirStream : Obligations.TxgetAndBitgetDrainTheirStream :=
  ⟨rfl, rfl, fun s => ⟨rfl, fun htap => exec_of_enabled (i := .bitget) (s := s) htap⟩⟩

open Sys2Proof Sys2Proof.Machine in
/-- Settles O25. -/
theorem rxputAndSymputFeedTheirStream : Obligations.RxputAndSymputFeedTheirStream :=
  ⟨rfl, rfl, fun s => ⟨fun hsrc hroom => exec_of_setRx (i := .rxput) (s.rxputEnabled_iff.2 ⟨hsrc, hroom⟩) rfl,
    fun hsrc hroom => exec_of_setRx (i := .symput) (s.symputEnabled_iff.2 ⟨hsrc, hroom⟩) rfl⟩⟩

open Sys2Proof Sys2Proof.Machine in
/-- Settles O26. -/
theorem rxgetPopsTheOldestResult : Obligations.RxgetPopsTheOldestResult := by
  refine ⟨rfl, fun s r rest hq => ?_⟩
  have henabled : s.enabled .rxget = true := s.rxgetEnabled_iff.2 (by rw [hq]; exact List.cons_ne_nil _ _)
  rw [exec_of_enabled henabled, done, State.returnFrame_cons hq]
  rfl
end

