-- ==== Sys2Proof/Proofs/Ownership.lean ====
section
/-! Who writes what (R22, R25, R28, R60): each bit of `CTRL`, each stream and each flag has its own writers, read off
what each operation does when it is carried out. -/

namespace Sys2Proof.Machine

/-! ## `CTRL` -/

/-- No operation sets a reserved bit of `CTRL`. -/
theorem done_keeps_ctrlInv {s : State} (h : CtrlInv s) (i : Instr) : CtrlInv (done s i) := by
  cases i
  case rst => exact (by decide : 0x00#8 &&& 0xF0#8 = 0#8)
  case txstart | txstartb =>
    exact ctrlWith_reserved _ (by decide) (ctrlWith_reserved _ (by decide) h)
  case rxstart | rxstarts =>
    exact ctrlWith_reserved _ (by decide) (ctrlWith_reserved _ (by decide) h)
  case txstop | rxstop => exact ctrlWith_reserved _ (by decide) h
  case rxget => exact (congrArg (· &&& 0xF0#8) s.returnFrame_ctrl).trans h
  all_goals exact h

theorem step_keeps_ctrlInv {s t : State} (h : CtrlInv s) (hstep : step s = .next t) : CtrlInv t := by
  obtain ⟨i, _, hexec⟩ := step_cases hstep
  obtain ⟨_, rfl⟩ | ⟨_, rfl⟩ := exec_cases hexec
  · exact done_keeps_ctrlInv h i
  · exact h

theorem returnFrame_ctrl_bits (s : State) : s.returnFrame.txEn = s.txEn ∧ s.returnFrame.rxEn = s.rxEn ∧
    s.returnFrame.txTap = s.txTap ∧ s.returnFrame.rxSrc = s.rxSrc := by
  simp only [State.txEn, State.rxEn, State.txTap, State.rxSrc, s.returnFrame_ctrl, and_self]

theorem done_keeps_txEn (s : State) {i : Instr} (h : i ∉ [Instr.txstart, .txstartb, .txstop, .rst]) :
    (done s i).txEn = s.txEn := by
  cases i
  case txstart | txstartb | txstop | rst => simp at h
  case rxget => exact (returnFrame_ctrl_bits s).1
  all_goals simp [done]

theorem done_keeps_rxEn (s : State) {i : Instr} (h : i ∉ [Instr.rxstart, .rxstarts, .rxstop, .rst]) :
    (done s i).rxEn = s.rxEn := by
  cases i
  case rxstart | rxstarts | rxstop | rst => simp at h
  case rxget => exact (returnFrame_ctrl_bits s).2.1
  all_goals simp [done]

theorem done_keeps_txTap (s : State) {i : Instr} (h : i ∉ [Instr.txstart, .txstartb, .rst]) :
    (done s i).txTap = s.txTap := by
  cases i
  case txstart | txstartb | rst => simp at h
  case rxget => exact (returnFrame_ctrl_bits s).2.2.1
  all_goals simp [done]

theorem done_keeps_rxSrc (s : State) {i : Instr} (h : i ∉ [Instr.rxstart, .rxstarts, .rst]) :
    (done s i).rxSrc = s.rxSrc := by
  cases i
  case rxstart | rxstarts | rst => simp at h
  case rxget => exact (returnFrame_ctrl_bits s).2.2.2
  all_goals simp [done]

/-- What an operation keeps when it is carried out, `exec` keeps. -/
theorem exec_keeps {α : Type} (f : State → α) (hadvance : ∀ s, f s.advance = f s) {i : Instr} {s t : State}
    (hexec : exec i s = .next t) (hdone : f (done s i) = f s) : f t = f s := by
  obtain ⟨_, rfl⟩ | ⟨_, rfl⟩ := exec_cases hexec
  · exact (hadvance _).trans hdone
  · rfl

/-! ## The flags -/

/-- All that a firing of `DEFR` can do to its flags and to `Q_PAY` (R189): lock, stay in `HUNT`, or pass a
symbol on. -/
theorem defrFire_cases (c : Cfg) (r : RxPath) :
    (r.dfState = .hunt ∧ (defrFire c r).dfState = .lock ∧ (defrFire c r).qPay = r.qPay) ∨
    (r.dfState = .hunt ∧ (defrFire c r).dfState = .hunt ∧ (defrFire c r).dfInv = r.dfInv ∧
      (defrFire c r).qPay = r.qPay) ∨
    (r.dfState = .lock ∧ (defrFire c r).dfInv = r.dfInv ∧
      (defrFire c r).dfState = (if r.dfCnt + 1 = c.frameCodedBits then .hunt else .lock) ∧
      ∃ y, (defrFire c r).qPay = r.qPay ++ [y]) := by
  unfold defrFire
  simp only
  split
  · next hunt =>
    unfold huntStep
    simp only
    split
    · exact .inl ⟨hunt, rfl, rfl⟩
    · exact .inr (.inl ⟨hunt, hunt, rfl, rfl⟩)
  · next lock => exact .inr (.inr ⟨lock, rfl, rfl, _, rfl⟩)

/-- `RSD_BAD` is cleared at a frame's last block only. -/
theorem rsdecFire_rsdBad_of_more {c : Cfg} {r : RxPath} (h : r.rsdBlk + 1 ≠ c.nb) (hbad : r.rsdBad = true) :
    (rsdecFire c r).rsdBad = true := by
  simp only [rsdecFire, rsdAccept_eq, if_neg h, hbad, Bool.true_or]

theorem done_keeps_dfFlags (s : State) {i : Instr} (hreset : i ∉ [Instr.rst, .rxstart, .rxstarts])
    (h : i ≠ .defr) : (done s i).rx.dfState = s.rx.dfState ∧ (done s i).rx.dfInv = s.rx.dfInv := by
  cases i
  case rst | rxstart | rxstarts => simp at hreset
  case defr => exact absurd rfl h
  all_goals simp [done]

theorem done_keeps_rsdBad (s : State) {i : Instr} (hreset : i ∉ [Instr.rst, .rxstart, .rxstarts])
    (h : i ≠ .rsdec) : (done s i).rx.rsdBad = s.rx.rsdBad := by
  cases i
  case rst | rxstart | rxstarts => simp at hreset
  case rsdec => exact absurd rfl h
  all_goals simp [done]

/-! ## The streams -/

/-- The operations that reset a path or the block. -/
def resetOps : List Instr := [.rst, .txstart, .txstartb, .rxstart, .rxstarts]

section
variable (s : State) {i : Instr}

theorem done_qTxin (h : i ∉ resetOps) :
    (done s i).tx.qTxin = if i = .rsenc then s.tx.qTxin.drop 223
      else if i = .txput then s.tx.qTxin ++ s.slot.txin else s.tx.qTxin := by
  cases i
  case rst | txstart | txstartb | rxstart | rxstarts => simp [resetOps] at h
  case rsenc | txput => rfl
  all_goals simp [done]

theorem done_qRsc (h : i ∉ resetOps) :
    ∃ new, (done s i).tx.qRsc = (if i = .cvenc then s.tx.qRsc.drop 1 else s.tx.qRsc) ++ new ∧
      (new ≠ [] → i = .rsenc) := by
  cases i
  case rst | txstart | txstartb | rxstart | rxstarts => simp [resetOps] at h
  case rsenc => exact ⟨_, rfl, fun _ => rfl⟩
  case cvenc => exact ⟨[], (List.append_nil _).symm, fun hnew => absurd rfl hnew⟩
  all_goals exact ⟨[], by simp [done], fun hnew => absurd rfl hnew⟩

theorem done_qCvc (h : i ∉ resetOps) :
    ∃ new, (done s i).tx.qCvc = (if i = .frmr then s.tx.qCvc.drop 1 else s.tx.qCvc) ++ new ∧
      (new ≠ [] → i = .cvenc) := by
  cases i
  case rst | txstart | txstartb | rxstart | rxstarts => simp [resetOps] at h
  case cvenc => exact ⟨_, rfl, fun _ => rfl⟩
  case frmr => exact ⟨[], (List.append_nil _).symm, fun hnew => absurd rfl hnew⟩
  all_goals exact ⟨[], by simp [done], fun hnew => absurd rfl hnew⟩

theorem done_qBits (h : i ∉ resetOps) :
    ∃ new, (done s i).tx.qBits = (if i = .rrci then s.tx.qBits.drop 1
        else if i = .bitget then [] else s.tx.qBits) ++ new ∧
      (new ≠ [] → i = .frmr) := by
  cases i
  case rst | txstart | txstartb | rxstart | rxstarts => simp [resetOps] at h
  case frmr => exact ⟨_, rfl, fun _ => rfl⟩
  case rrci | bitget => exact ⟨[], (List.append_nil _).symm, fun hnew => absurd rfl hnew⟩
  all_goals exact ⟨[], by simp [done], fun hnew => absurd rfl hnew⟩

theorem done_qTxout (h : i ∉ resetOps) :
    ∃ new, (done s i).tx.qTxout = (if i = .txget then [] else s.tx.qTxout) ++ new ∧
      (new ≠ [] → i = .rrci) := by
  cases i
  case rst | txstart | txstartb | rxstart | rxstarts => simp [resetOps] at h
  case rrci => exact ⟨_, rfl, fun _ => rfl⟩
  case txget => exact ⟨[], (List.append_nil _).symm, fun hnew => absurd rfl hnew⟩
  all_goals exact ⟨[], by simp [done], fun hnew => absurd rfl hnew⟩

theorem done_qRxin (h : i ∉ resetOps) :
    (done s i).rx.qRxin = if i = .rrcd then s.rx.qRxin.drop s.cfg.rrcSps
      else if i = .rxput then s.rx.qRxin ++ s.slot.rxin else s.rx.qRxin := by
  cases i
  case rst | txstart | txstartb | rxstart | rxstarts => simp [resetOps] at h
  case rrcd | rxput => rfl
  all_goals simp [done]

theorem done_qSym (h : i ∉ resetOps) :
    ∃ new, (done s i).rx.qSym = (if i = .defr then s.rx.qSym.drop 1 else s.rx.qSym) ++ new ∧
      (new ≠ [] → i = .rrcd ∨ i = .symput) := by
  cases i
  case rst | txstart | txstartb | rxstart | rxstarts => simp [resetOps] at h
  case rrcd => exact ⟨_, rfl, fun _ => .inl rfl⟩
  case symput => exact ⟨_, rfl, fun _ => .inr rfl⟩
  case defr =>
    exact ⟨[], (defrFire_qSym _ _).trans (List.append_nil _).symm, fun hnew => absurd rfl hnew⟩
  all_goals exact ⟨[], by simp [done], fun hnew => absurd rfl hnew⟩

theorem done_qPay (h : i ∉ resetOps) :
    ∃ new, (done s i).rx.qPay = (if i = .vitd then s.rx.qPay.drop 2 else s.rx.qPay) ++ new ∧
      (new ≠ [] → i = .defr) := by
  cases i
  case rst | txstart | txstartb | rxstart | rxstarts => simp [resetOps] at h
  case defr =>
    obtain ⟨_, _, hpay⟩ | ⟨_, _, _, hpay⟩ | ⟨_, _, _, y, hpay⟩ := defrFire_cases s.cfg.toCfg s.rx
    · exact ⟨[], hpay.trans (List.append_nil _).symm, fun hnew => absurd rfl hnew⟩
    · exact ⟨[], hpay.trans (List.append_nil _).symm, fun hnew => absurd rfl hnew⟩
    · exact ⟨[y], hpay, fun _ => rfl⟩
  case vitd =>
    exact ⟨[], (vitdFire_qPay _ _).trans (List.append_nil _).symm, fun hnew => absurd rfl hnew⟩
  all_goals exact ⟨[], by simp [done], fun hnew => absurd rfl hnew⟩

theorem done_qDec (h : i ∉ resetOps) :
    ∃ new, (done s i).rx.qDec = (if i = .rsdec then s.rx.qDec.drop 255 else s.rx.qDec) ++ new ∧
      (new ≠ [] → i = .vitd) := by
  cases i
  case rst | txstart | txstartb | rxstart | rxstarts => simp [resetOps] at h
  case vitd => exact ⟨_, vitdFire_qDec _ _, fun _ => rfl⟩
  case rsdec =>
    exact ⟨[], (rsdecFire_qDec _ _).trans (List.append_nil _).symm, fun hnew => absurd rfl hnew⟩
  all_goals exact ⟨[], by simp [done], fun hnew => absurd rfl hnew⟩

theorem rsdecFire_qRxout_append (c : Cfg) (r : RxPath) : ∃ new, (rsdecFire c r).qRxout = r.qRxout ++ new := by
  unfold rsdecFire
  simp only [rsdAccept_eq]
  split
  · exact ⟨_, rfl⟩
  · exact ⟨[], (List.append_nil _).symm⟩

theorem done_qRxout (h : i ∉ resetOps) :
    ∃ new, (done s i).rx.qRxout = (if i = .rxget then s.rx.qRxout.drop 1 else s.rx.qRxout) ++ new ∧
      (new ≠ [] → i = .rsdec) := by
  cases i
  case rst | txstart | txstartb | rxstart | rxstarts => simp [resetOps] at h
  case rsdec =>
    obtain ⟨new, hnew⟩ := rsdecFire_qRxout_append s.cfg.toCfg s.rx
    exact ⟨new, hnew, fun _ => rfl⟩
  case rxget =>
    exact ⟨[], (congrArg RxPath.qRxout s.returnFrame_rx).trans (List.append_nil _).symm,
      fun hnew => absurd rfl hnew⟩
  all_goals exact ⟨[], by simp [done], fun hnew => absurd rfl hnew⟩

end

end Sys2Proof.Machine

open Sys2Proof Sys2Proof.Machine in
/-- Settles O53: an operation that is not in a bit's row keeps the bit. -/
theorem onlyControlOperationsWriteCtrl : Obligations.OnlyControlOperationsWriteCtrl := by
  refine ⟨rfl, fun _ _ => step_keeps_ctrlInv, fun i s t hexec => ⟨?_, ?_, ?_, ?_⟩⟩
  · exact not_imp_comm.1 fun hi => exec_keeps State.txEn (fun _ => rfl) hexec (done_keeps_txEn s hi)
  · exact not_imp_comm.1 fun hi => exec_keeps State.rxEn (fun _ => rfl) hexec (done_keeps_rxEn s hi)
  · exact not_imp_comm.1 fun hi => exec_keeps State.txTap (fun _ => rfl) hexec (done_keeps_txTap s hi)
  · exact not_imp_comm.1 fun hi => exec_keeps State.rxSrc (fun _ => rfl) hexec (done_keeps_rxSrc s hi)

open Sys2Proof Sys2Proof.Machine in
/-- Settles O58: carried out, an operation takes from one stream and appends to one; waiting, it does neither. -/
theorem eachStreamHasOneProducerAndOneConsumer : Obligations.EachStreamHasOneProducerAndOneConsumer := by
  intro i s t hexec hi
  obtain ⟨hen, rfl⟩ | ⟨hen, rfl⟩ := exec_cases hexec
  · simp only [hen, and_true]
    exact ⟨done_qTxin s hi, done_qRsc s hi, done_qCvc s hi, done_qBits s hi, done_qTxout s hi,
      done_qRxin s hi, done_qSym s hi, done_qPay s hi, done_qDec s hi, done_qRxout s hi⟩
  · have htxget : i ≠ .txget := fun h => by
      rw [h] at hen
      cases hen
    simp only [hen, Bool.false_eq_true, and_false, if_false, if_neg htxget]
    have hsame : ∀ {α : Type} (q : List α) (p : Prop), ∃ new, q = q ++ new ∧ (new ≠ [] → p) :=
      fun q _ => ⟨[], (List.append_nil q).symm, fun hnew => absurd rfl hnew⟩
    exact ⟨trivial, hsame _ _, hsame _ _, hsame _ _, hsame _ _, trivial, hsame _ _, hsame _ _, hsame _ _, hsame _ _⟩

open Sys2Proof Sys2Proof.Machine in
/-- Settles O59: `defrFire_cases` says what `DEFR` does to its flags, and the other operations keep them. -/
theorem flagsAreWrittenByTheirStageAlone : Obligations.FlagsAreWrittenByTheirStageAlone := by
  intro i s t hexec hi
  obtain ⟨_, rfl⟩ | ⟨_, rfl⟩ := exec_cases hexec
  · simp only [State.advance_rx]
    refine ⟨done_keeps_dfFlags s hi, fun hinv => ?_, fun hlock hhunt => ?_, done_keeps_rsdBad s hi,
      fun hbad hclear => ?_⟩
    · by_cases hdefr : i = .defr
      · rw [hdefr, done, State.setRx_rx] at hinv ⊢
        obtain ⟨hunt, lock, _⟩ | ⟨_, _, hsame, _⟩ | ⟨_, hsame, _⟩ := defrFire_cases s.cfg.toCfg s.rx
        · exact ⟨hunt, lock⟩
        · exact absurd hsame hinv
        · exact absurd hsame hinv
      · exact absurd (done_keeps_dfFlags s hi hdefr).2 hinv
    · by_cases hdefr : i = .defr
      · rw [hdefr, done, State.setRx_rx] at hhunt
        obtain ⟨hunt, _⟩ | ⟨hunt, _⟩ | ⟨_, _, hstate, _⟩ := defrFire_cases s.cfg.toCfg s.rx
        · cases hunt.symm.trans hlock
        · cases hunt.symm.trans hlock
        · by_contra hinside
          have hlocked := hhunt.symm.trans (hstate.trans (if_neg hinside))
          cases hlocked
      · rw [(done_keeps_dfFlags s hi hdefr).1, hlock] at hhunt
        cases hhunt
    · by_cases hrsdec : i = .rsdec
      · rw [hrsdec, done, State.setRx_rx] at hclear
        by_contra hmore
        rw [rsdecFire_rsdBad_of_more hmore hbad] at hclear
        cases hclear
      · rw [done_keeps_rsdBad s hi hrsdec, hbad] at hclear
        cases hclear
  · exact ⟨fun _ => ⟨rfl, rfl⟩, fun hinv => absurd rfl hinv,
      fun hlock hhunt => absurd (hlock.symm.trans hhunt) (by decide), fun _ => rfl,
      fun hbad hclear => absurd (hbad.symm.trans hclear) (by decide)⟩
end

