-- ==== Sys2Proof/Proofs/Independence.lean ====
section
/-! R21: what an operation does to one path depends on that path alone. An operation either writes the path, and then
reads nothing else for it, or leaves the path alone whether it is enabled or not. -/

namespace Sys2Proof.Machine

/-! ## The transmit half -/

/-- The operations that write the transmit path or its bits of `CTRL`. -/
def txHalfOps : List Instr := .txstop :: txWriters

theorem SameTx.enabled {s s' : State} (h : SameTx s s') {i : Instr} (hi : i ∈ txHalfOps) :
    s'.enabled i = s.enabled i := by
  obtain ⟨hcfg, hline, hpath, hen, htap⟩ := h
  cases i
  case rsenc => simp only [State.enabled, State.rsencEnabled, hcfg, hpath, hen]
  case cvenc => simp only [State.enabled, State.cvencEnabled, hcfg, hpath, hen]
  case frmr => simp only [State.enabled, State.frmrEnabled, hcfg, hpath, hen]
  case rrci => simp only [State.enabled, State.rrciEnabled, hcfg, hpath, hen, htap]
  case txput =>
    simp only [State.enabled, State.txputEnabled, State.txputLengthOk, State.txinOperand, hcfg, hline, hpath]
  case bitget => exact htap
  case rst | txstart | txstartb | txstop | txget => rfl
  all_goals simp [txHalfOps, txWriters] at hi

/-- Two states whose transmit half, and what it has returned, are those of two others where they were. -/
def TxAgree (s s' t t' : State) : Prop :=
  t'.tx = t.tx ∧ t'.txEn = t.txEn ∧ t'.txTap = t.txTap ∧
    (s'.ports.txout = s.ports.txout → t'.ports.txout = t.ports.txout) ∧
    (s'.ports.bits = s.ports.bits → t'.ports.bits = t.ports.bits)

/-- Carried out on the same transmit half, a writer of it leaves the same. -/
theorem SameTx.done {s s' : State} (h : SameTx s s') {i : Instr} (hi : i ∈ txHalfOps) :
    TxAgree s s' (Machine.done s i) (Machine.done s' i) := by
  obtain ⟨hcfg, hline, hpath, hen, htap⟩ := h
  cases i
  case rst => exact ⟨by simp [Machine.done, hcfg], by simp [Machine.done], by simp [Machine.done], id, id⟩
  case txstart | txstartb =>
    exact ⟨by simp [Machine.done, hcfg], by simp [Machine.done], by simp [Machine.done], id, id⟩
  case txstop => exact ⟨hpath, by simp [Machine.done], by simp [Machine.done, htap], id, id⟩
  case rsenc | cvenc | frmr | rrci => exact ⟨by simp [Machine.done, hcfg, hpath], hen, htap, id, id⟩
  case txput => exact ⟨by simp [Machine.done, hpath, State.txinOperand, hline], hen, htap, id, id⟩
  case txget =>
    exact ⟨by simp [Machine.done, hpath], hen, htap, fun hout => by simp [Machine.done, hpath, hout], id⟩
  case bitget =>
    exact ⟨by simp [Machine.done, hpath], hen, htap, id, fun hout => by simp [Machine.done, hpath, hout]⟩
  all_goals simp [txHalfOps, txWriters] at hi

theorem done_keeps_tx_ports (s : State) {i : Instr} (hi : i ∉ txHalfOps) :
    (done s i).ports.txout = s.ports.txout ∧ (done s i).ports.bits = s.ports.bits := by
  cases i
  case txstop | rst | txstart | txstartb | rsenc | cvenc | frmr | rrci | txput | txget | bitget =>
    simp [txHalfOps, txWriters] at hi
  case rxget =>
    rw [done, State.returnFrame]
    split <;> exact ⟨rfl, rfl⟩
  all_goals exact ⟨rfl, rfl⟩

/-- An operation that is none of its writers leaves the transmit half alone, enabled or not. -/
theorem exec_keeps_tx_half {i : Instr} {s t : State} (hexec : exec i s = .next t) (hi : i ∉ txHalfOps) :
    t.tx = s.tx ∧ t.txEn = s.txEn ∧ t.txTap = s.txTap ∧ t.ports.txout = s.ports.txout ∧
      t.ports.bits = s.ports.bits := by
  have hwriters : i ∉ txWriters := fun hmem => hi (List.mem_cons_of_mem _ hmem)
  obtain ⟨htx, htap⟩ := done_keeps_tx s hwriters
  obtain ⟨hout, hbits⟩ := done_keeps_tx_ports s hi
  have hen : (done s i).txEn = s.txEn := by
    refine done_keeps_txEn s fun hmem => hi ?_
    revert hmem
    cases i <;> decide
  exact ⟨exec_keeps State.tx (fun _ => rfl) hexec htx, exec_keeps State.txEn (fun _ => rfl) hexec hen,
    exec_keeps State.txTap (fun _ => rfl) hexec htap,
    exec_keeps (fun u => u.ports.txout) (fun _ => rfl) hexec hout,
    exec_keeps (fun u => u.ports.bits) (fun _ => rfl) hexec hbits⟩

theorem SameTx.exec {s s' t t' : State} (h : SameTx s s') {i : Instr} (hexec : exec i s = .next t)
    (hexec' : Machine.exec i s' = .next t') : TxAgree s s' t t' := by
  by_cases hi : i ∈ txHalfOps
  · have hsame := h.enabled hi
    obtain ⟨hen, rfl⟩ | ⟨hen, rfl⟩ := exec_cases hexec <;>
      obtain ⟨hen', rfl⟩ | ⟨hen', rfl⟩ := exec_cases hexec'
    · exact h.done hi
    · exact absurd (hen'.symm.trans (hsame.trans hen)) (by decide)
    · exact absurd (hen'.symm.trans (hsame.trans hen)) (by decide)
    · exact ⟨h.path, h.enable, h.tap, id, id⟩
  · obtain ⟨htx, hen, htap, hout, hbits⟩ := exec_keeps_tx_half hexec hi
    obtain ⟨htx', hen', htap', hout', hbits'⟩ := exec_keeps_tx_half hexec' hi
    rw [TxAgree, htx, hen, htap, hout, hbits, htx', hen', htap', hout', hbits']
    exact ⟨h.path, h.enable, h.tap, id, id⟩

/-! ## The receive half -/

/-- The operations that write the receive path or its bits of `CTRL`. -/
def rxHalfOps : List Instr := .rxstop :: rxWriters

theorem SameRx.enabled {s s' : State} (h : SameRx s s') {i : Instr} (hi : i ∈ rxHalfOps) :
    s'.enabled i = s.enabled i := by
  obtain ⟨hcfg, hline, hpath, hen, hsrc⟩ := h
  cases i
  case rrcd => simp only [State.enabled, State.rrcdEnabled, hcfg, hpath, hen, hsrc]
  case defr => simp only [State.enabled, State.defrEnabled, hcfg, hpath, hen]
  case vitd => simp only [State.enabled, State.vitdEnabled, hcfg, hpath, hen]
  case rsdec => simp only [State.enabled, State.rsdecEnabled, hcfg, hpath, hen]
  case rxput => simp only [State.enabled, State.rxputEnabled, State.rxinOperand, hcfg, hline, hpath, hsrc]
  case symput => simp only [State.enabled, State.symputEnabled, State.symOperand, hcfg, hline, hpath, hsrc]
  case rxget => simp only [State.enabled, State.rxgetEnabled, hpath]
  case rst | rxstart | rxstarts | rxstop => rfl
  all_goals simp [rxHalfOps, rxWriters] at hi

/-- Two states whose receive half, and what it has returned, are those of two others where they were. -/
def RxAgree (s s' t t' : State) : Prop :=
  t'.rx = t.rx ∧ t'.rxEn = t.rxEn ∧ t'.rxSrc = t.rxSrc ∧
    (s'.ports.rxout = s.ports.rxout → t'.ports.rxout = t.ports.rxout)

theorem returnFrame_rxout (s : State) :
    s.returnFrame.ports.rxout = s.ports.rxout ++ s.rx.qRxout.take 1 := by
  cases h : s.rx.qRxout with
  | nil => simp [State.returnFrame, popped, h]
  | cons r rest => rw [State.returnFrame_cons h]; rfl

/-- Carried out on the same receive half, a writer of it leaves the same. -/
theorem SameRx.done {s s' : State} (h : SameRx s s') {i : Instr} (hi : i ∈ rxHalfOps) :
    RxAgree s s' (Machine.done s i) (Machine.done s' i) := by
  obtain ⟨hcfg, hline, hpath, hen, hsrc⟩ := h
  cases i
  case rst => exact ⟨by simp [Machine.done, hcfg], by simp [Machine.done], by simp [Machine.done], id⟩
  case rxstart | rxstarts =>
    exact ⟨by simp [Machine.done, hcfg], by simp [Machine.done], by simp [Machine.done], id⟩
  case rxstop => exact ⟨hpath, by simp [Machine.done], by simp [Machine.done, hsrc], id⟩
  case rrcd | defr | vitd | rsdec => exact ⟨by simp [Machine.done, hcfg, hpath], hen, hsrc, id⟩
  case rxput => exact ⟨by simp [Machine.done, hpath, State.rxinOperand, hline], hen, hsrc, id⟩
  case symput => exact ⟨by simp [Machine.done, hpath, State.symOperand, hline], hen, hsrc, id⟩
  case rxget =>
    obtain ⟨_, hframe, _, hframeSrc⟩ := returnFrame_ctrl_bits s
    obtain ⟨_, hframe', _, hframeSrc'⟩ := returnFrame_ctrl_bits s'
    refine ⟨by simp [Machine.done, hpath], ?_, ?_, fun hout => ?_⟩
    · exact hframe'.trans (hen.trans hframe.symm)
    · exact hframeSrc'.trans (hsrc.trans hframeSrc.symm)
    · simp only [Machine.done, returnFrame_rxout, hpath, hout]
  all_goals simp [rxHalfOps, rxWriters] at hi

/-- An operation that is none of its writers leaves the receive half alone, enabled or not. -/
theorem exec_keeps_rx_half {i : Instr} {s t : State} (hexec : exec i s = .next t) (hi : i ∉ rxHalfOps) :
    t.rx = s.rx ∧ t.rxEn = s.rxEn ∧ t.rxSrc = s.rxSrc ∧ t.ports.rxout = s.ports.rxout := by
  have hwriters : i ∉ rxWriters := fun hmem => hi (List.mem_cons_of_mem _ hmem)
  obtain ⟨hrx, hsrc⟩ := done_keeps_rx s hwriters
  have hen : (done s i).rxEn = s.rxEn := by
    refine done_keeps_rxEn s fun hmem => hi ?_
    revert hmem
    cases i <;> decide
  have hout : (done s i).ports.rxout = s.ports.rxout := by
    cases i
    case rxget => simp [rxWriters] at hwriters
    all_goals rfl
  exact ⟨exec_keeps State.rx (fun _ => rfl) hexec hrx, exec_keeps State.rxEn (fun _ => rfl) hexec hen,
    exec_keeps State.rxSrc (fun _ => rfl) hexec hsrc,
    exec_keeps (fun u => u.ports.rxout) (fun _ => rfl) hexec hout⟩

theorem SameRx.exec {s s' t t' : State} (h : SameRx s s') {i : Instr} (hexec : exec i s = .next t)
    (hexec' : Machine.exec i s' = .next t') : RxAgree s s' t t' := by
  by_cases hi : i ∈ rxHalfOps
  · have hsame := h.enabled hi
    obtain ⟨hen, rfl⟩ | ⟨hen, rfl⟩ := exec_cases hexec <;>
      obtain ⟨hen', rfl⟩ | ⟨hen', rfl⟩ := exec_cases hexec'
    · exact h.done hi
    · exact absurd (hen'.symm.trans (hsame.trans hen)) (by decide)
    · exact absurd (hen'.symm.trans (hsame.trans hen)) (by decide)
    · exact ⟨h.path, h.enable, h.source, id⟩
  · obtain ⟨hrx, hen, hsrc, hout⟩ := exec_keeps_rx_half hexec hi
    obtain ⟨hrx', hen', hsrc', hout'⟩ := exec_keeps_rx_half hexec' hi
    rw [RxAgree, hrx, hen, hsrc, hout, hrx', hen', hsrc', hout']
    exact ⟨h.path, h.enable, h.source, id⟩

end Sys2Proof.Machine

open Sys2Proof Sys2Proof.Machine in
/-- Settles O57, for each half by its writers and the operations that leave it alone. -/
theorem pathsAreIndependent : Obligations.PathsAreIndependent :=
  fun _ _ _ _ _ hexec hexec' => ⟨fun h => h.exec hexec hexec', fun h => h.exec hexec hexec'⟩
end

