-- ==== Sys2Proof/Proofs/StagesCommute.lean ====
section
/-! R17, R64: two stages touch different registers and opposite ends of the streams between them, so they may fire in
either order. -/

namespace Sys2Proof.Machine

/-! ## Firings of one path -/

theorem rsenc_cvenc_comm (c : Cfg) {t : TxPath} (h : 1 ≤ t.qRsc.length) :
    cvencFire c (rsencFire c t) = rsencFire c (cvencFire c t) := by
  simp only [cvencFire, rsencFire, popped_push _ h, left_push _ h]
  rfl

theorem frStart_congr (c : Cfg) {t t' : TxPath} (hcnt : t'.frCnt = t.frCnt) (hscr : t'.frScr = t.frScr) :
    frStart c t' = frStart c t ∧ frHeader c t' = frHeader c t := by
  simp only [frStart, frHeader, hcnt, hscr, and_self]

theorem rsenc_frmr_comm (c : Cfg) (t : TxPath) : frmrFire c (rsencFire c t) = rsencFire c (frmrFire c t) := by
  obtain ⟨hstart, hheader⟩ := frStart_congr c (rsencFire_frCnt c t) (rsencFire_frScr c t)
  simp only [frmrFire, hstart, hheader, rsencFire_qCvc]
  rfl

theorem rsenc_rrci_comm (c : Cfg) (t : TxPath) : rrciFire c (rsencFire c t) = rsencFire c (rrciFire c t) := by
  simp only [rrciFire, rsencFire]

theorem cvenc_rrci_comm (c : Cfg) (t : TxPath) : rrciFire c (cvencFire c t) = cvencFire c (rrciFire c t) := by
  simp only [rrciFire, cvencFire]
  rfl

theorem cvenc_frmr_comm (c : Cfg) {t : TxPath} (h : 1 ≤ t.qCvc.length) :
    frmrFire c (cvencFire c t) = cvencFire c (frmrFire c t) := by
  simp only [frmrFire, cvencFire, popped_push _ h, left_push _ h]
  rfl

theorem frmr_rrci_comm (c : Cfg) {t : TxPath} (h : 1 ≤ t.qBits.length) :
    rrciFire c (frmrFire c t) = frmrFire c (rrciFire c t) := by
  simp only [rrciFire, frmrFire, popped_push _ h, left_push _ h]
  rfl

/-- A firing of `DEFR` in `HUNT`, the lock decided. -/
theorem defrFire_hunt_of_locks {c : Cfg} {r : RxPath} (hstate : r.dfState = .hunt) {b : Bool}
    (hlock : locks c (correlation c (windowPush r.dfWin ((popped r.qSym 1).headD 0))) = b) :
    defrFire c r =
      if b then
        lockedRx c { r with qSym := left r.qSym 1 }
          (correlation c (windowPush r.dfWin ((popped r.qSym 1).headD 0)))
      else { r with qSym := left r.qSym 1, dfWin := windowPush r.dfWin ((popped r.qSym 1).headD 0) } := by
  simp only [defrFire, hstate, huntStep, hlock]
  rfl

theorem defrFire_of_lock_eq {c : Cfg} {r : RxPath} (hstate : r.dfState = .lock) :
    defrFire c r = lockStep c { r with qSym := left r.qSym 1 } ((popped r.qSym 1).headD 0) := by
  simp only [defrFire, hstate]

/-- A change of the path that `DEFR` does not see commutes with it, if it does with each of its three outcomes. -/
theorem defrFire_comm {c : Cfg} {r : RxPath} (f : RxPath → RxPath) (hstate : (f r).dfState = r.dfState)
    (hwin : (f r).dfWin = r.dfWin) (hsym : popped (f r).qSym 1 = popped r.qSym 1)
    (hlocked : ∀ corr, f (lockedRx c { r with qSym := left r.qSym 1 } corr) =
      lockedRx c { f r with qSym := left (f r).qSym 1 } corr)
    (hhunt : ∀ win, f { r with qSym := left r.qSym 1, dfWin := win } =
      { f r with qSym := left (f r).qSym 1, dfWin := win })
    (hlock : ∀ x, f (lockStep c { r with qSym := left r.qSym 1 } x) =
      lockStep c { f r with qSym := left (f r).qSym 1 } x) :
    f (defrFire c r) = defrFire c (f r) := by
  cases hr : r.dfState with
  | hunt =>
    rw [defrFire_hunt_of_locks hr rfl, defrFire_hunt_of_locks (hstate.trans hr) rfl, hwin, hsym]
    split
    · exact hlocked _
    · exact hhunt _
  | lock =>
    rw [defrFire_of_lock_eq hr, defrFire_of_lock_eq (hstate.trans hr), hsym]
    exact hlock _

theorem rrcd_defr_comm (c : Cfg) {r : RxPath} (h : 1 ≤ r.qSym.length) :
    rrcdFire c (defrFire c r) = defrFire c (rrcdFire c r) := by
  refine defrFire_comm _ rfl rfl (popped_push _ h) (fun corr => ?_) (fun win => ?_) fun x => ?_
  · simp only [rrcdFire, lockedRx, left_push _ h]
  · simp only [rrcdFire, left_push _ h]
  · simp only [rrcdFire, lockStep, left_push _ h]
    rfl

theorem defr_vitd_comm (c : Cfg) {r : RxPath} (h : 2 ≤ r.qPay.length) :
    vitdFire c (defrFire c r) = defrFire c (vitdFire c r) := by
  refine defrFire_comm _ (vitdFire_dfState c r) (vitdFire_dfWin c r) (by rw [vitdFire_qSym]) (fun corr => ?_)
    (fun win => ?_) fun x => ?_
  all_goals by_cases hfirst : r.vtCnt = 0
  · simp [vitdFire, vitStart, lockedRx, vitStep, hfirst]
  · simp [vitdFire, vitStart, lockedRx, vitStep, hfirst]
  · simp [vitdFire, vitStart, vitStep, hfirst]
  · simp [vitdFire, vitStart, vitStep, hfirst]
  · simp [vitdFire, vitStart, lockStep, vitStep, hfirst, popped_push _ h, left_push _ h]
  · simp [vitdFire, vitStart, lockStep, vitStep, hfirst, popped_push _ h, left_push _ h]

theorem defr_rsdec_comm (c : Cfg) (r : RxPath) : rsdecFire c (defrFire c r) = defrFire c (rsdecFire c r) := by
  refine defrFire_comm _ (rsdecFire_dfState c r) (rsdecFire_dfWin c r) (by rw [rsdecFire_qSym]) (fun corr => ?_)
    (fun win => ?_) fun x => ?_
  all_goals by_cases hlast : r.rsdBlk + 1 = c.nb
  · simp [rsdecFire, rsdAccept_eq, rsdDeliver, lockedRx, hlast]
  · simp [rsdecFire, rsdAccept_eq, lockedRx, hlast]
  · simp [rsdecFire, rsdAccept_eq, rsdDeliver, hlast]
  · simp [rsdecFire, rsdAccept_eq, hlast]
  · simp [rsdecFire, rsdAccept_eq, rsdDeliver, lockStep, hlast]
  · simp [rsdecFire, rsdAccept_eq, lockStep, hlast]

theorem rrcd_vitd_comm (c : Cfg) (r : RxPath) : vitdFire c (rrcdFire c r) = rrcdFire c (vitdFire c r) := by
  by_cases hfirst : r.vtCnt = 0
  · simp [vitdFire, vitStart, rrcdFire, vitStep, hfirst]
  · simp [vitdFire, vitStart, rrcdFire, vitStep, hfirst]

theorem rrcd_rsdec_comm (c : Cfg) (r : RxPath) : rsdecFire c (rrcdFire c r) = rrcdFire c (rsdecFire c r) := by
  by_cases hlast : r.rsdBlk + 1 = c.nb
  · simp [rsdecFire, rrcdFire, rsdAccept_eq, rsdDeliver, hlast]
  · simp [rsdecFire, rrcdFire, rsdAccept_eq, hlast]

theorem vitd_rsdec_comm (c : Cfg) {r : RxPath} (h : 255 ≤ r.qDec.length) :
    rsdecFire c (vitdFire c r) = vitdFire c (rsdecFire c r) := by
  by_cases hfirst : r.vtCnt = 0 <;> by_cases hlast : r.rsdBlk + 1 = c.nb
  all_goals simp [rsdecFire, rsdAccept_eq, rsdDeliver, vitdFire, vitStart, vitStep, hfirst, hlast,
    popped_push _ h, left_push _ h]

/-! ## A stage as a function of its path -/

/-- The stages of the transmit path. -/
def txStages : List Instr := [.rsenc, .cvenc, .frmr, .rrci]

/-- The stages of the receive path. -/
def rxStages : List Instr := [.rrcd, .defr, .vitd, .rsdec]

/-- One firing of a transmit stage. -/
def txFire (c : Cfg) : Instr → TxPath → TxPath
  | .rsenc => rsencFire c
  | .cvenc => cvencFire c
  | .frmr => frmrFire c
  | .rrci => rrciFire c
  | _ => id

/-- One firing of a receive stage. -/
def rxFire (c : Cfg) : Instr → RxPath → RxPath
  | .rrcd => rrcdFire c
  | .defr => defrFire c
  | .vitd => vitdFire c
  | .rsdec => rsdecFire c
  | _ => id

theorem done_of_txStage (s : State) {i : Instr} (hi : i ∈ txStages) :
    done s i = s.setTx (txFire s.cfg.toCfg i s.tx) := by
  simp only [txStages, List.mem_cons, List.not_mem_nil, or_false] at hi
  obtain rfl | rfl | rfl | rfl := hi <;> rfl

theorem done_of_rxStage (s : State) {i : Instr} (hi : i ∈ rxStages) :
    done s i = s.setRx (rxFire s.cfg.toCfg i s.rx) := by
  simp only [rxStages, List.mem_cons, List.not_mem_nil, or_false] at hi
  obtain rfl | rfl | rfl | rfl := hi <;> rfl

theorem mem_stageOps {i : Instr} (hi : i ∈ stageOps) : i ∈ txStages ∨ i ∈ rxStages := by
  revert hi
  cases i <;> decide

/-- Two different stages of the transmit path, the earlier first. -/
def txPairs : List (Instr × Instr) :=
  [(.rsenc, .cvenc), (.rsenc, .frmr), (.rsenc, .rrci), (.cvenc, .frmr), (.cvenc, .rrci), (.frmr, .rrci)]

/-- Two different stages of the receive path, the earlier first. -/
def rxPairs : List (Instr × Instr) :=
  [(.rrcd, .defr), (.rrcd, .vitd), (.rrcd, .rsdec), (.defr, .vitd), (.defr, .rsdec), (.vitd, .rsdec)]

theorem mem_txPairs {i j : Instr} (hi : i ∈ txStages) (hj : j ∈ txStages) (hij : i ≠ j) :
    (i, j) ∈ txPairs ∨ (j, i) ∈ txPairs := by
  have hall : ∀ i ∈ txStages, ∀ j ∈ txStages, i ≠ j → (i, j) ∈ txPairs ∨ (j, i) ∈ txPairs := by decide
  exact hall i hi j hj hij

theorem mem_rxPairs {i j : Instr} (hi : i ∈ rxStages) (hj : j ∈ rxStages) (hij : i ≠ j) :
    (i, j) ∈ rxPairs ∨ (j, i) ∈ rxPairs := by
  have hall : ∀ i ∈ rxStages, ∀ j ∈ rxStages, i ≠ j → (i, j) ∈ rxPairs ∨ (j, i) ∈ rxPairs := by decide
  exact hall i hi j hj hij

theorem txFire_comm_of_pair {s : State} {i j : Instr} (h : (i, j) ∈ txPairs) (hen : s.enabled j = true) :
    txFire s.cfg.toCfg j (txFire s.cfg.toCfg i s.tx) = txFire s.cfg.toCfg i (txFire s.cfg.toCfg j s.tx) := by
  simp only [txPairs, List.mem_cons, Prod.mk.injEq, List.not_mem_nil, or_false] at h
  obtain ⟨rfl, rfl⟩ | ⟨rfl, rfl⟩ | ⟨rfl, rfl⟩ | ⟨rfl, rfl⟩ | ⟨rfl, rfl⟩ | ⟨rfl, rfl⟩ := h
  · exact rsenc_cvenc_comm _ (s.cvencEnabled_iff.1 hen).2.1
  · exact rsenc_frmr_comm _ _
  · exact rsenc_rrci_comm _ _
  · exact cvenc_frmr_comm _ (s.frmrEnabled_iff.1 hen).2.1
  · exact cvenc_rrci_comm _ _
  · exact frmr_rrci_comm _ (s.rrciEnabled_iff.1 hen).2.2.1

theorem rxFire_comm_of_pair {s : State} {i j : Instr} (h : (i, j) ∈ rxPairs) (hen : s.enabled j = true) :
    rxFire s.cfg.toCfg j (rxFire s.cfg.toCfg i s.rx) = rxFire s.cfg.toCfg i (rxFire s.cfg.toCfg j s.rx) := by
  simp only [rxPairs, List.mem_cons, Prod.mk.injEq, List.not_mem_nil, or_false] at h
  obtain ⟨rfl, rfl⟩ | ⟨rfl, rfl⟩ | ⟨rfl, rfl⟩ | ⟨rfl, rfl⟩ | ⟨rfl, rfl⟩ | ⟨rfl, rfl⟩ := h
  · exact (rrcd_defr_comm _ (s.defrEnabled_iff.1 hen).2.1).symm
  · exact rrcd_vitd_comm _ _
  · exact rrcd_rsdec_comm _ _
  · exact defr_vitd_comm _ (s.vitdEnabled_iff.1 hen).2.1
  · exact defr_rsdec_comm _ _
  · exact vitd_rsdec_comm _ (s.rsdecEnabled_iff.1 hen).2.1

/-- Two enabled stages carried out in either order, whatever their paths. -/
theorem done_done_comm {s : State} {i j : Instr} (hi : i ∈ stageOps) (hj : j ∈ stageOps) (hij : i ≠ j)
    (heni : s.enabled i = true) (henj : s.enabled j = true) : done (done s i) j = done (done s j) i := by
  obtain hi | hi := mem_stageOps hi <;> obtain hj | hj := mem_stageOps hj
  · have hcomm : txFire s.cfg.toCfg j (txFire s.cfg.toCfg i s.tx) =
        txFire s.cfg.toCfg i (txFire s.cfg.toCfg j s.tx) := by
      obtain hpair | hpair := mem_txPairs hi hj hij
      · exact txFire_comm_of_pair hpair henj
      · exact (txFire_comm_of_pair hpair heni).symm
    rw [done_of_txStage _ hj, done_of_txStage _ hi, done_of_txStage _ hi, done_of_txStage _ hj]
    exact congrArg s.setTx hcomm
  · rw [done_of_rxStage _ hj, done_of_txStage _ hi, done_of_txStage _ hi, done_of_rxStage _ hj]
    rfl
  · rw [done_of_txStage _ hj, done_of_rxStage _ hi, done_of_rxStage _ hi, done_of_txStage _ hj]
    rfl
  · have hcomm : rxFire s.cfg.toCfg j (rxFire s.cfg.toCfg i s.rx) =
        rxFire s.cfg.toCfg i (rxFire s.cfg.toCfg j s.rx) := by
      obtain hpair | hpair := mem_rxPairs hi hj hij
      · exact rxFire_comm_of_pair hpair henj
      · exact (rxFire_comm_of_pair hpair heni).symm
    rw [done_of_rxStage _ hj, done_of_rxStage _ hi, done_of_rxStage _ hi, done_of_rxStage _ hj]
    exact congrArg s.setRx hcomm

/-! ## A stage stays enabled when another fires -/

/-- A stream grows where only its producer may have acted. -/
theorem length_le_of_appended {α : Type} {p : Prop} [Decidable p] {q q' d new : List α}
    (h : q' = (if p then d else q) ++ new) (hp : ¬p) : q.length ≤ q'.length := by
  rw [h, if_neg hp, List.length_append]
  exact Nat.le_add_right _ _

/-- A stream does not grow where its producer has not acted. -/
theorem length_le_of_taken {α : Type} {p : Prop} [Decidable p] {q q' new : List α} {n : Nat}
    (h : q' = (if p then q.drop n else q) ++ new) (hnew : new = []) : q'.length ≤ q.length := by
  rw [h, hnew, List.append_nil]
  split
  · exact (List.length_drop).le.trans (Nat.sub_le _ _)
  · exact le_rfl

theorem stage_not_reset {i : Instr} (hi : i ∈ stageOps) : i ∉ resetOps := by
  revert hi
  cases i <;> decide

/-- A stage keeps all of `CTRL`. -/
theorem stage_keeps_ctrl (s : State) {i : Instr} (hi : i ∈ stageOps) :
    (done s i).txEn = s.txEn ∧ (done s i).rxEn = s.rxEn ∧ (done s i).txTap = s.txTap ∧
      (done s i).rxSrc = s.rxSrc := by
  obtain hi | hi := mem_stageOps hi
  · rw [done_of_txStage s hi]
    exact ⟨rfl, rfl, rfl, rfl⟩
  · rw [done_of_rxStage s hi]
    exact ⟨rfl, rfl, rfl, rfl⟩

/-- The counters that `VITD` and `RSDEC` look at are theirs alone. -/
theorem stage_keeps_counts (s : State) {i : Instr} (hi : i ∈ stageOps) :
    (i ≠ .vitd → (done s i).rx.vtCnt = s.rx.vtCnt) ∧ (i ≠ .rsdec → (done s i).rx.rsdBlk = s.rx.rsdBlk) := by
  simp only [stageOps, List.mem_cons, List.not_mem_nil, or_false] at hi
  obtain rfl | rfl | rfl | rfl | rfl | rfl | rfl | rfl := hi <;> simp [done]

theorem stage_stays_enabled {s : State} {i j : Instr} (hi : i ∈ stageOps) (hj : j ∈ stageOps) (hij : i ≠ j)
    (hen : s.enabled j = true) : (done s i).enabled j = true := by
  have hreset := stage_not_reset hi
  obtain ⟨htxEn, hrxEn, htap, hsrc⟩ := stage_keeps_ctrl s hi
  obtain ⟨hcnt, hblk⟩ := stage_keeps_counts s hi
  have hcfg := done_cfg s i
  have hshrinks : ∀ {α : Type} {cap : Option Nat} {q q' : List α} {n : Nat}, q'.length ≤ q.length →
      RoomFor cap q.length n → RoomFor cap q'.length n := fun hle hroom =>
    hroom.mono (Nat.add_le_add_right hle _)
  obtain ⟨_, hrsc, hrscNew⟩ := done_qRsc s hreset
  obtain ⟨_, hcvc, hcvcNew⟩ := done_qCvc s hreset
  obtain ⟨_, hbits, hbitsNew⟩ := done_qBits s hreset
  obtain ⟨_, htxout, htxoutNew⟩ := done_qTxout s hreset
  obtain ⟨_, hsym, hsymNew⟩ := done_qSym s hreset
  obtain ⟨_, hpay, hpayNew⟩ := done_qPay s hreset
  obtain ⟨_, hdec, hdecNew⟩ := done_qDec s hreset
  obtain ⟨_, hrxout, hrxoutNew⟩ := done_qRxout s hreset
  have hhost : i ≠ .txget ∧ i ≠ .bitget ∧ i ≠ .txput ∧ i ≠ .rxput ∧ i ≠ .symput ∧ i ≠ .rxget := by
    revert hi
    cases i <;> decide
  obtain ⟨htxget, hbitget, htxput, hrxput, hsymput, hrxget⟩ := hhost
  rw [if_neg hbitget] at hbits
  rw [if_neg htxget] at htxout
  rw [if_neg hrxget] at hrxout
  simp only [stageOps, List.mem_cons, List.not_mem_nil, or_false] at hj
  obtain rfl | rfl | rfl | rfl | rfl | rfl | rfl | rfl := hj
  · obtain ⟨hon, hin, hroom⟩ := s.rsencEnabled_iff.1 hen
    refine (State.rsencEnabled_iff _).2 ⟨htxEn.trans hon, ?_, ?_⟩
    · rwa [done_qTxin s hreset, if_neg hij, if_neg htxput]
    · rw [hcfg]
      exact hshrinks (length_le_of_taken hrsc (not_imp_comm.1 hrscNew hij)) hroom
  · obtain ⟨hon, hin, hroom⟩ := s.cvencEnabled_iff.1 hen
    refine (State.cvencEnabled_iff _).2 ⟨htxEn.trans hon, hin.trans (length_le_of_appended hrsc hij), ?_⟩
    rw [hcfg]
    exact hshrinks (length_le_of_taken hcvc (not_imp_comm.1 hcvcNew hij)) hroom
  · obtain ⟨hon, hin, hroom⟩ := s.frmrEnabled_iff.1 hen
    refine (State.frmrEnabled_iff _).2 ⟨htxEn.trans hon, hin.trans (length_le_of_appended hcvc hij), ?_⟩
    rw [hcfg]
    exact hshrinks (length_le_of_taken hbits (not_imp_comm.1 hbitsNew hij)) hroom
  · obtain ⟨hon, hoff, hin, hroom⟩ := s.rrciEnabled_iff.1 hen
    refine (State.rrciEnabled_iff _).2 ⟨htxEn.trans hon, htap.trans hoff,
      hin.trans (length_le_of_appended hbits hij), ?_⟩
    rw [hcfg, htxout, not_imp_comm.1 htxoutNew hij, List.append_nil]
    exact hroom
  · obtain ⟨hon, hoff, hin, hroom⟩ := s.rrcdEnabled_iff.1 hen
    refine (State.rrcdEnabled_iff _).2 ⟨hrxEn.trans hon, hsrc.trans hoff, ?_, ?_⟩
    · rwa [hcfg, done_qRxin s hreset, if_neg hij, if_neg hrxput]
    · rw [hcfg]
      have hnone : ¬(i = .rrcd ∨ i = .symput) := fun h => h.elim hij hsymput
      exact hshrinks (length_le_of_taken hsym (not_imp_comm.1 hsymNew hnone)) hroom
  · obtain ⟨hon, hin, hroom⟩ := s.defrEnabled_iff.1 hen
    refine (State.defrEnabled_iff _).2 ⟨hrxEn.trans hon, hin.trans (length_le_of_appended hsym hij), ?_⟩
    rw [hcfg]
    exact hshrinks (length_le_of_taken hpay (not_imp_comm.1 hpayNew hij)) hroom
  · obtain ⟨hon, hin, hroom⟩ := s.vitdEnabled_iff.1 hen
    refine (State.vitdEnabled_iff _).2 ⟨hrxEn.trans hon, hin.trans (length_le_of_appended hpay hij), ?_⟩
    rw [hcfg, vitdRoom, hcnt hij]
    exact hshrinks (length_le_of_taken hdec (not_imp_comm.1 hdecNew hij)) hroom
  · obtain ⟨hon, hin, hroom⟩ := s.rsdecEnabled_iff.1 hen
    refine (State.rsdecEnabled_iff _).2 ⟨hrxEn.trans hon, hin.trans (length_le_of_appended hdec hij), ?_⟩
    rw [hcfg, hblk hij, hrxout, not_imp_comm.1 hrxoutNew hij, List.append_nil]
    exact hroom

/-- A stage does not look at the lines on the control port. -/
theorem advance_enabled (s : State) {i : Instr} (hi : i ∈ stageOps) : s.advance.enabled i = s.enabled i := by
  simp only [stageOps, List.mem_cons, List.not_mem_nil, or_false] at hi
  obtain rfl | rfl | rfl | rfl | rfl | rfl | rfl | rfl := hi <;> rfl

/-- Carrying a stage out and dropping a line are of different parts of the state. -/
theorem done_advance (s : State) {i : Instr} (hi : i ∈ stageOps) : done s.advance i = (done s i).advance := by
  obtain hi | hi := mem_stageOps hi
  · rw [done_of_txStage _ hi, done_of_txStage _ hi]
    rfl
  · rw [done_of_rxStage _ hi, done_of_rxStage _ hi]
    rfl

/-- One stage and then another: the second is still enabled, and the two lines are dropped. -/
theorem exec_then_exec {s : State} {i j : Instr} (hi : i ∈ stageOps) (hj : j ∈ stageOps) (hij : i ≠ j)
    (heni : s.enabled i = true) (henj : s.enabled j = true) :
    exec i s = .next (done s i).advance ∧ (done s i).advance.enabled j = true ∧
      exec j (done s i).advance = .next (done (done s i) j).advance.advance := by
  have hen : (done s i).advance.enabled j = true := by
    rw [advance_enabled _ hj]
    exact stage_stays_enabled hi hj hij henj
  exact ⟨exec_of_enabled heni, hen, by rw [exec_of_enabled hen, done_advance _ hj]⟩

end Sys2Proof.Machine

open Sys2Proof Sys2Proof.Machine in
/-- Settles O56: neither stage disables the other, and their firings commute. -/
theorem enabledStagesCommute : Obligations.EnabledStagesCommute := by
  intro s i j hi hj hij heni henj
  obtain ⟨hfirst, hstill, hsecond⟩ := exec_then_exec hi hj hij heni henj
  obtain ⟨hfirst', hstill', hsecond'⟩ := exec_then_exec hj hi hij.symm henj heni
  rw [← done_done_comm hi hj hij heni henj] at hsecond'
  exact ⟨_, _, _, hfirst, hstill, hsecond, hfirst', hstill', hsecond'⟩
end

