-- ==== Sys2Proof/Proofs/Polarity.lean ====
section
/-! R73, R190: two receive paths fed with opposite polarity. The correlations of mirrored windows are opposite, so both
lock at the same symbol, with opposite `DF_INV`, which then repairs the sign of every payload symbol. -/

namespace Sys2Proof.Machine

/-- A mirror image, as an update of the path it mirrors. -/
theorem mirror_iff (r r' : RxPath) : Mirror r r' ↔
    ∃ (win : Vector Soft 32) (inv : Bool),
      r' = { r with qSym := r.qSym.map (-·), dfWin := win, dfInv := inv } ∧
        (∀ j : Fin 32, win[j] = -r.dfWin[j]) ∧ (r.dfState = .lock → inv = !r.dfInv) := by
  constructor
  · rintro ⟨hsyms, _, hwin, hinv, hrest⟩
    refine ⟨r'.dfWin, r'.dfInv, ?_, hwin, hinv⟩
    rw [← hsyms, ← hrest]
  · rintro ⟨win, inv, rfl, hwin, hinv⟩
    exact ⟨rfl, rfl, hwin, hinv, rfl⟩

/-- Mirrored windows stay mirrored when mirrored symbols enter. -/
theorem windowPush_neg {w w' : Vector Soft 32} (h : ∀ j : Fin 32, w'[j] = -w[j]) (x : Soft) (j : Fin 32) :
    (windowPush w' (-x))[j] = -(windowPush w x)[j] := by
  simp only [Fin.getElem_fin, windowPush_get _ _ _ j.isLt]
  split
  · next hin => exact h ⟨j.val + 1, hin⟩
  · rfl

theorem correlation_neg (c : Cfg) {w w' : Vector Soft 32} (h : ∀ j : Fin 32, w'[j] = -w[j]) :
    correlation c w' = -correlation c w := by
  simp only [correlation, List.sum_ofFn, h, neg_mul, Finset.sum_neg_distrib]

/-- At a lock the correlation is not 0, so its sign and the opposite one differ. -/
theorem decide_neg_lt_zero {x : Soft} (h : x ≠ 0) : decide (-x < 0) = !decide (x < 0) := by
  obtain hlt | hgt := lt_or_gt_of_ne h
  · simp [hlt, hlt.le]
  · simp [hgt, hgt.le]

theorem DfState.hunt_or_lock (d : DfState) : d = .hunt ∨ d = .lock := by
  cases d <;> simp

theorem Mirror.defrFire (c : Config) {r r' : RxPath} (h : Mirror r r') {x : Soft} {rest : List Soft}
    (hq : r.qSym = x :: rest) :
    Mirror (defrFire c.toCfg r) (defrFire c.toCfg r') ∧
      (Machine.defrFire c.toCfg r').qPay = (Machine.defrFire c.toCfg r).qPay := by
  obtain ⟨win, inv, rfl, hwin, hinv⟩ := (mirror_iff r r').1 h
  have hq' : r.qSym.map (-·) = -x :: rest.map (-·) := by rw [hq, List.map_cons]
  obtain hstate | hstate := r.dfState.hunt_or_lock
  · have hcorr := correlation_neg c.toCfg (windowPush_neg hwin x)
    rw [defrFire_of_hunt c.toCfg hstate hq, defrFire_of_hunt c.toCfg
      (r := { r with qSym := r.qSym.map (-·), dfWin := win, dfInv := inv }) hstate hq', hcorr, abs_neg]
    split
    · next hlock =>
      have hne : correlation c.toCfg (windowPush r.dfWin x) ≠ 0 :=
        abs_pos.1 (lt_of_lt_of_le c.dfThreshold_pos hlock)
      refine ⟨(mirror_iff _ _).2 ⟨zeroWindow, _, rfl, fun j => ?_, fun _ => decide_neg_lt_zero hne⟩, rfl⟩
      exact (zeroWindow_get j.val j.isLt).trans
        (neg_zero.symm.trans (congrArg Neg.neg (zeroWindow_get j.val j.isLt).symm))
    · refine ⟨(mirror_iff _ _).2 ⟨_, inv, rfl, windowPush_neg hwin x, fun hlock => ?_⟩, rfl⟩
      exact absurd (hstate.symm.trans hlock) (by decide)
  · have hflip := hinv hstate
    rw [defrFire_of_lock c.toCfg hstate hq, defrFire_of_lock c.toCfg
      (r := { r with qSym := r.qSym.map (-·), dfWin := win, dfInv := inv }) hstate hq']
    have hsame : (if inv = r.dfScr.getLsbD 0 then -x else -(-x)) =
        if r.dfInv = r.dfScr.getLsbD 0 then x else -x := by
      rw [hflip]
      cases r.dfInv <;> cases r.dfScr.getLsbD 0 <;> simp
    simp only [hsame, and_true]
    exact (mirror_iff _ _).2 ⟨win, inv, rfl, hwin, fun _ => hflip⟩

/-- Mirror images are enabled alike. -/
theorem Mirror.defrEnabled {s s' : State} (hcfg : s'.cfg = s.cfg) (hctrl : s'.ctrl = s.ctrl)
    (h : Mirror s.rx s'.rx) : s'.enabled .defr = s.enabled .defr := by
  obtain ⟨win, inv, hrx, _, _⟩ := (mirror_iff s.rx s'.rx).1 h
  simp only [State.enabled, State.defrEnabled, State.rxEn, hctrl, hcfg, hrx, has, room, List.length_map]

end Sys2Proof.Machine

open Sys2Proof Sys2Proof.Machine in
/-- Settles O49: hunting the mirrored windows lock together with opposite `DF_INV`; locked, it repairs the sign. -/
theorem polarityIsRepaired : Obligations.PolarityIsRepaired := by
  intro s s' hcfg hctrl hmirror t t' hexec hexec'
  have hsame := hmirror.defrEnabled hcfg hctrl
  obtain ⟨hen, rfl⟩ | ⟨hen, rfl⟩ := exec_cases hexec <;>
    obtain ⟨hen', rfl⟩ | ⟨hen', rfl⟩ := exec_cases hexec'
  · obtain ⟨_, hsym, _⟩ := s.defrEnabled_iff.1 hen
    obtain ⟨x, rest, hq⟩ := List.exists_cons_of_length_pos hsym
    simp only [State.advance_rx, done, State.setRx_rx, hcfg]
    exact hmirror.defrFire s.cfg hq
  · exact absurd (hen'.symm.trans (hsame.trans hen)) (by decide)
  · exact absurd (hen'.symm.trans (hsame.trans hen)) (by decide)
  · obtain ⟨_, _, hrx, _, _⟩ := (mirror_iff _ _).1 hmirror
    exact ⟨hmirror, by rw [hrx]⟩
end

