-- ==== Sys2Proof/Proofs/Validity.lean ====
section
/-! R296: the Boolean checks of the validity list against the conditions as the rule writes them, group by group. -/

namespace Sys2Proof

/-- A `CFG` is some configuration just when the check passes. -/
theorem exists_config_iff (c : Cfg) : (∃ k : Config, k.toCfg = c) ↔ c.valid = true :=
  ⟨fun ⟨k, hk⟩ => hk ▸ k.ok, fun h => ⟨⟨c, h⟩, rfl⟩⟩

namespace Cfg

variable (c : Cfg)

theorem rsOk_iff : c.rsOk = true ↔ c.rsN = 255 ∧ c.rsK = 223 ∧ c.rsT = 16 ∧ c.rsNpar = 32 := by
  simp only [rsOk, Bool.and_eq_true, beq_iff_eq, and_assoc]
  rfl

theorem gfOk_iff : c.gfOk = true ↔ c.gfPrim = 0x11D#9 ∧ c.gfAlpha = 0x02#8 := by
  simp only [gfOk, Bool.and_eq_true, beq_iff_eq]
  rfl

theorem gapOk_iff : c.gapOk = true ↔ 1 ≤ c.rsGap ∧ c.rsGap ≤ 254 ∧ Nat.Coprime c.rsGap 255 := by
  simp only [gapOk, Bool.and_eq_true, decide_eq_true_eq, beq_iff_eq, Nat.coprime_iff_gcd_eq_one, and_assoc]

theorem convMasksOk_iff : c.convMasksOk = true ↔ c.convG1.getLsbD 0 = true ∧ c.convG1.getLsbD 6 = true ∧
    c.convG2.getLsbD 0 = true ∧ c.convG2.getLsbD 6 = true ∧ c.convG1 ≠ c.convG2 := by
  simp only [convMasksOk, Bool.and_eq_true, bne_iff_ne, and_assoc]

theorem scrTapsOk_iff : c.scrTapsOk = true ↔ c.scrTaps.toNat < 2 ^ c.scrLen ∧ c.scrTaps.getLsbD 0 = true := by
  simp only [scrTapsOk, Bool.and_eq_true, decide_eq_true_eq]

theorem scrSeedOk_iff : c.scrSeedOk = true ↔ c.scrSeed.toNat < 2 ^ c.scrLen ∧ c.scrSeed ≠ 0#32 := by
  simp only [scrSeedOk, Bool.and_eq_true, decide_eq_true_eq, bne_iff_ne]

theorem rrcLengthOk_iff : c.rrcLengthOk = true ↔ c.rrcNt % 2 = 1 ∧ c.rrcTaps.length = c.rrcNt := by
  simp only [rrcLengthOk, Bool.and_eq_true, beq_iff_eq]

/-- R172 (a), tap by tap. -/
theorem rrcSymmetric_iff (h : c.rrcTaps.length = c.rrcNt) : c.rrcSymmetric = true ↔
    ∀ j, j < c.rrcNt → c.rrcTaps.getD j 0 = c.rrcTaps.getD (c.rrcNt - 1 - j) 0 := by
  have hrev : ∀ j, j < c.rrcNt → c.rrcTaps.reverse.getD j 0 = c.rrcTaps.getD (c.rrcNt - 1 - j) 0 := by
    intro j hj
    rw [List.getD_eq_getElem _ _ (by rw [List.length_reverse]; omega), List.getElem_reverse,
      List.getD_eq_getElem _ _ (by omega)]
    congr 1
    omega
  rw [rrcSymmetric, beq_iff_eq]
  constructor
  · intro hsymm j hj
    rw [← hrev j hj, hsymm]
  · intro hall
    refine List.ext_getElem List.length_reverse fun j hj hj' => ?_
    have hlt : j < c.rrcNt := by omega
    rw [← List.getD_eq_getElem _ 0 hj, ← List.getD_eq_getElem _ 0 hj', hrev j hlt, hall j hlt]

/-- R172 (b) as a finite sum. -/
theorem rrcUnitEnergy_iff (h : c.rrcTaps.length = c.rrcNt) : c.rrcUnitEnergy = true ↔
    ∑ j ∈ Finset.range c.rrcNt, c.rrcTaps.getD j 0 ^ 2 = 1 := by
  have hsum : (c.rrcTaps.map fun t => t * t).sum = ∑ j ∈ Finset.range c.rrcNt, c.rrcTaps.getD j 0 ^ 2 := by
    have hlist : c.rrcTaps.map (fun t => t * t) =
        (List.range c.rrcNt).map fun j => c.rrcTaps.getD j 0 ^ 2 := by
      refine List.ext_getElem (by simp [h]) fun j hj _ => ?_
      rw [List.getElem_map, List.getElem_map, List.getElem_range, List.getD_eq_getElem _ _ (by simpa using hj),
        pow_two]
    rw [hlist]
    rfl
  rw [rrcUnitEnergy, beq_iff_eq, hsum]

theorem tracebackOk_iff : c.tracebackOk = true ↔ ∀ d, c.vitTb = .window d → 35 ≤ d := by
  unfold tracebackOk
  cases c.vitTb <;> simp

theorem holds_iff (cap : Option Nat) (n : Nat) : holds cap n = true ↔ Machine.RoomFor cap 0 n := by
  cases cap <;> simp [holds, Machine.RoomFor]

/-- The capacities; a frame's bytes are at least a block's, so with `FULL` the one number covers the other. -/
theorem queuesOk_iff (h : 1 ≤ c.nb) : c.queuesOk = true ↔
    Machine.RoomFor c.qdepth.txin 0 (223 * c.nb) ∧ Machine.RoomFor c.qdepth.rsc 0 255 ∧
      Machine.RoomFor c.qdepth.cvc 0 2 ∧ Machine.RoomFor c.qdepth.bits 0 40 ∧
      Machine.RoomFor c.qdepth.txout 0 c.rrcSps ∧ Machine.RoomFor c.qdepth.rxin 0 c.rrcSps ∧
      Machine.RoomFor c.qdepth.sym 0 1 ∧ Machine.RoomFor c.qdepth.pay 0 2 ∧
      Machine.RoomFor c.qdepth.dec 0 255 ∧ (c.vitTb = .full → Machine.RoomFor c.qdepth.dec 0 (255 * c.nb)) ∧
      Machine.RoomFor c.qdepth.rxout 0 1 := by
  have hdec : Machine.RoomFor c.qdepth.dec 0 (if c.vitTb = .full then c.frameRsBytes else 255) ↔
      Machine.RoomFor c.qdepth.dec 0 255 ∧
        (c.vitTb = .full → Machine.RoomFor c.qdepth.dec 0 (255 * c.nb)) := by
    by_cases hfull : c.vitTb = .full
    · rw [if_pos hfull]
      exact ⟨fun hroom => ⟨hroom.mono (by rw [frameRsBytes]; omega), fun _ => hroom⟩, fun hroom => hroom.2 hfull⟩
    · rw [if_neg hfull]
      exact ⟨fun hroom => ⟨hroom, fun hf => absurd hf hfull⟩, And.left⟩
  simp only [queuesOk, Bool.and_eq_true, holds_iff, hdec, and_assoc]
  rfl

end Cfg

end Sys2Proof

open Sys2Proof Sys2Proof.Machine in
/-- Settles O60, group by group. -/
theorem onlyValidConfigurationsHaveAnInstance : Obligations.OnlyValidConfigurationsHaveAnInstance := by
  intro c
  have hnb : c.nbOk = true ↔ 1 ≤ c.nb := decide_eq_true_iff
  have hlen : c.scrLenOk = true ↔ 2 ≤ c.scrLen ∧ c.scrLen ≤ 32 := by
    simp only [Cfg.scrLenOk, Bool.and_eq_true, decide_eq_true_eq]
  have hconvK : c.convKOk = true ↔ c.convK = 7 := beq_iff_eq
  have hphase : c.rrcPhaseOk = true ↔ c.rrcPhase = (c.rrcNt - 1) % c.rrcSps := beq_iff_eq
  rw [exists_config_iff, c.valid_iff, c.rsOk_iff, c.gfOk_iff, Cfg.fcrOk, decide_eq_true_iff, c.gapOk_iff, hnb,
    hconvK, c.convMasksOk_iff, hlen, c.scrTapsOk_iff, c.scrSeedOk_iff, Cfg.rrcSpsOk, decide_eq_true_iff,
    c.rrcLengthOk_iff, hphase, Cfg.thresholdOk, decide_eq_true_iff, c.tracebackOk_iff]
  constructor
  · rintro ⟨hrs, hgf, hfcr, hgap, hnb, hk, hmasks, hscr, htaps, hseed, hsps, hnt, hsymm, henergy, hph, hthr,
      htb, hq⟩
    exact ⟨hrs, hgf, hfcr, hgap, hnb, hk, hmasks, hscr, htaps, hseed, hsps, hnt,
      (c.rrcSymmetric_iff hnt.2).1 hsymm, (c.rrcUnitEnergy_iff hnt.2).1 henergy, hph, hthr, htb,
      (c.queuesOk_iff hnb).1 hq⟩
  · rintro ⟨hrs, hgf, hfcr, hgap, hnb, hk, hmasks, hscr, htaps, hseed, hsps, hnt, hsymm, henergy, hph, hthr,
      htb, hq⟩
    exact ⟨hrs, hgf, hfcr, hgap, hnb, hk, hmasks, hscr, htaps, hseed, hsps, hnt,
      (c.rrcSymmetric_iff hnt.2).2 hsymm, (c.rrcUnitEnergy_iff hnt.2).2 henergy, hph, hthr, htb,
      (c.queuesOk_iff hnb).2 hq⟩
end

