-- ==== Sys2Proof/Proofs/Field.lean ====
section
/-! R120 to R127: the field. `gmul` is additive in each argument, and an additive function of bytes is fixed by its
values at the eight bytes with one bit, so its laws are those of 64 or 512 products. -/

namespace Sys2Proof.Machine

/-! ## The product is additive in each argument -/

/-- The shift and reduction of one round of R122: times `x`. -/
def gmulX (r : Byte) : Byte := if r.getLsbD 7 then (r <<< 1) ^^^ gfPrim.setWidth 8 else r <<< 1

theorem gmulRound_eq (a b r : Byte) (i : Nat) :
    gmulRound a b r i = gmulX r ^^^ (if b.getLsbD i then a else 0#8) := by
  rw [gmulRound]
  cases hbit : b.getLsbD i
  · exact (BitVec.xor_zero).symm
  · rfl

theorem gmulX_xor (r r' : Byte) : gmulX (r ^^^ r') = gmulX r ^^^ gmulX r' := by
  simp only [gmulX, BitVec.getLsbD_xor, BitVec.shiftLeft_xor_distrib]
  cases r.getLsbD 7 <;> cases r'.getLsbD 7
  · rfl
  · exact BitVec.xor_assoc _ _ _
  · simp only [Bool.xor_false, if_true, Bool.false_eq_true, if_false]
    ac_rfl
  · simp only [Bool.xor_self, Bool.false_eq_true, if_true, if_false]
    rw [show ∀ x y z : Byte, x ^^^ z ^^^ (y ^^^ z) = x ^^^ y ^^^ (z ^^^ z) from fun _ _ _ => by ac_rfl,
      BitVec.xor_self, BitVec.xor_zero]

theorem foldl_gmulRound_xor_left (a a' b : Byte) (is : List Nat) (r r' : Byte) :
    is.foldl (gmulRound (a ^^^ a') b) (r ^^^ r') =
      is.foldl (gmulRound a b) r ^^^ is.foldl (gmulRound a' b) r' := by
  induction is generalizing r r' with
  | nil => rfl
  | cons i is ih =>
    have hround : gmulRound (a ^^^ a') b (r ^^^ r') i = gmulRound a b r i ^^^ gmulRound a' b r' i := by
      simp only [gmulRound_eq, gmulX_xor]
      split
      · ac_rfl
      · simp only [BitVec.xor_zero]
    rw [List.foldl_cons, hround, ih]
    rfl

theorem foldl_gmulRound_xor_right (a b b' : Byte) (is : List Nat) (r r' : Byte) :
    is.foldl (gmulRound a (b ^^^ b')) (r ^^^ r') =
      is.foldl (gmulRound a b) r ^^^ is.foldl (gmulRound a b') r' := by
  induction is generalizing r r' with
  | nil => rfl
  | cons i is ih =>
    have hbit : (if (b ^^^ b').getLsbD i then a else 0#8) =
        (if b.getLsbD i then a else 0#8) ^^^ (if b'.getLsbD i then a else 0#8) := by
      rw [BitVec.getLsbD_xor]
      cases b.getLsbD i <;> cases b'.getLsbD i <;> simp
    have hround : gmulRound a (b ^^^ b') (r ^^^ r') i = gmulRound a b r i ^^^ gmulRound a b' r' i := by
      simp only [gmulRound_eq, gmulX_xor, hbit]
      ac_rfl
    rw [List.foldl_cons, hround, ih]
    rfl

theorem gmul_xor_left (a a' b : Byte) : gmul (a ^^^ a') b = gmul a b ^^^ gmul a' b :=
  foldl_gmulRound_xor_left a a' b _ 0#8 0#8

theorem gmul_xor_right (a b b' : Byte) : gmul a (b ^^^ b') = gmul a b ^^^ gmul a b' :=
  foldl_gmulRound_xor_right a b b' _ 0#8 0#8

/-! ## Additive functions of bytes -/

/-- A function of bytes that respects the field's addition (R121). -/
def XorAdditive (f : Byte → Byte) : Prop := ∀ x y, f (x ^^^ y) = f x ^^^ f y

theorem XorAdditive.zero {f : Byte → Byte} (h : XorAdditive f) : f 0#8 = 0#8 := by
  have hself := h 0#8 0#8
  rwa [BitVec.xor_self, BitVec.xor_self] at hself

theorem XorAdditive.gmul_left (b : Byte) : XorAdditive (gmul · b) := fun x y => gmul_xor_left x y b

theorem XorAdditive.gmul_right (a : Byte) : XorAdditive (gmul a) := gmul_xor_right a

theorem XorAdditive.comp {f g : Byte → Byte} (hf : XorAdditive f) (hg : XorAdditive g) :
    XorAdditive fun x => f (g x) := fun x y => by simp only [hg x y, hf (g x)]

/-- The byte with bit `i` alone. -/
def bitByte (i : Fin 8) : Byte := 1#8 <<< i.val

/-- A byte is the sum of its bits. -/
theorem byte_eq_foldl_bitByte : ∀ x : Byte,
    x = ((List.finRange 8).filter fun i => x.getLsbD i.val).foldl (fun acc i => acc ^^^ bitByte i) 0#8 := by
  decide +kernel

theorem XorAdditive.foldl {f g : Byte → Byte} (hf : XorAdditive f) (hg : XorAdditive g)
    (h : ∀ i, f (bitByte i) = g (bitByte i)) (is : List (Fin 8)) {acc : Byte} (hacc : f acc = g acc) :
    f (is.foldl (fun acc i => acc ^^^ bitByte i) acc) = g (is.foldl (fun acc i => acc ^^^ bitByte i) acc) := by
  induction is generalizing acc with
  | nil => exact hacc
  | cons i is ih => exact ih (by rw [hf, hg, hacc, h])

/-- Two additive functions that agree on the eight single bits agree. -/
theorem XorAdditive.ext {f g : Byte → Byte} (hf : XorAdditive f) (hg : XorAdditive g)
    (h : ∀ i, f (bitByte i) = g (bitByte i)) (x : Byte) : f x = g x := by
  rw [byte_eq_foldl_bitByte x]
  exact hf.foldl hg h _ (hf.zero.trans hg.zero.symm)

/-! ## The laws -/

theorem gmul_bitByte_comm : ∀ i j, gmul (bitByte i) (bitByte j) = gmul (bitByte j) (bitByte i) := by
  decide +kernel

theorem gmul_bitByte_assoc : ∀ i j k,
    gmul (gmul (bitByte i) (bitByte j)) (bitByte k) = gmul (bitByte i) (gmul (bitByte j) (bitByte k)) := by
  decide +kernel

theorem gmul_comm (a b : Byte) : gmul a b = gmul b a :=
  XorAdditive.ext (.gmul_left b) (.gmul_right b)
    (fun i => XorAdditive.ext (.gmul_right _) (.gmul_left _) (gmul_bitByte_comm i) b) a

theorem gmul_assoc (a b d : Byte) : gmul (gmul a b) d = gmul a (gmul b d) :=
  XorAdditive.ext (f := fun x => gmul (gmul x b) d) (.comp (.gmul_left d) (.gmul_left b)) (.gmul_left _)
    (fun i => XorAdditive.ext (f := fun x => gmul (gmul _ x) d) (g := fun x => gmul _ (gmul x d))
      (.comp (.gmul_left d) (.gmul_right _)) (.comp (.gmul_right _) (.gmul_left d))
      (fun j => XorAdditive.ext (g := fun x => gmul _ (gmul _ x)) (.gmul_right _)
        (.comp (.gmul_right _) (.gmul_right _)) (gmul_bitByte_assoc i j) d) b) a

@[simp] theorem gmul_zero (a : Byte) : gmul a 0#8 = 0#8 := (XorAdditive.gmul_right a).zero

@[simp] theorem zero_gmul (b : Byte) : gmul 0#8 b = 0#8 := (XorAdditive.gmul_left b).zero

@[simp] theorem gmul_one (a : Byte) : gmul a 1#8 = a :=
  XorAdditive.ext (f := (gmul · 1#8)) (g := id) (.gmul_left 1#8) (fun _ _ => rfl) (by decide +kernel) a

@[simp] theorem one_gmul (a : Byte) : gmul 1#8 a = a := by rw [gmul_comm, gmul_one]

theorem gmul_left_comm (a b d : Byte) : gmul a (gmul b d) = gmul b (gmul a d) := by
  rw [← gmul_assoc, gmul_comm a b, gmul_assoc]

theorem gmul_right_comm (a b d : Byte) : gmul (gmul a b) d = gmul (gmul a d) b := by
  rw [gmul_assoc, gmul_comm b d, gmul_assoc]

/-! ## The tables -/

theorem length_gexpTable : gexpTable.length = 255 := by decide +kernel

theorem gexp_eq_getElem {i : Nat} (h : i < 255) : gexp i = gexpTable[i]'(by rw [length_gexpTable]; exact h) :=
  List.getD_eq_getElem _ _ _

/-- Each entry of the table is the one before times `ALPHA`. -/
theorem tail_gexpTable : gexpTable.tail = gexpTable.dropLast.map (gmul · gfAlpha) := by decide +kernel

theorem gexp_succ {i : Nat} (h : i < 254) : gexp (i + 1) = gmul (gexp i) gfAlpha := by
  have htail : gexpTable.tail[i]'(by rw [List.length_tail, length_gexpTable]; omega) =
      gmul (gexpTable[i]'(by rw [length_gexpTable]; omega)) gfAlpha := by
    simp only [tail_gexpTable, List.getElem_map, List.getElem_dropLast]
  rw [gexp_eq_getElem (by omega), gexp_eq_getElem (by omega), ← htail, List.getElem_tail]

theorem gexp_zero : gexp 0 = 1#8 := by decide +kernel

theorem gmul_gexp_last : gmul (gexp 254) gfAlpha = 1#8 := by decide +kernel

/-- The entries of the table are the numbers 1 to 255, each once. -/
theorem gexpTable_perm : (gexpTable.map BitVec.toNat).Perm (List.range' 1 255) := by
  have hsorted : (gexpTable.map BitVec.toNat).insertionSort (· ≤ ·) = List.range' 1 255 := by decide +kernel
  rw [← hsorted]
  exact (List.perm_insertionSort _ _).symm

theorem gexpTable_nodup : gexpTable.Nodup :=
  List.Nodup.of_map _ ((gexpTable_perm.nodup_iff).2 List.nodup_range')

theorem mem_gexpTable_iff (v : Byte) : v ∈ gexpTable ↔ v ≠ 0#8 := by
  have hmap : v ∈ gexpTable ↔ v.toNat ∈ gexpTable.map BitVec.toNat :=
    (List.mem_map_of_injective fun _ _ => BitVec.eq_of_toNat_eq).symm
  have hlt := v.isLt
  rw [hmap, gexpTable_perm.mem_iff, List.mem_range'_1, ne_eq, ← BitVec.toNat_inj, BitVec.toNat_ofNat]
  omega

theorem gexp_ne_zero {i : Nat} (h : i < 255) : gexp i ≠ 0#8 := by
  rw [← mem_gexpTable_iff, gexp_eq_getElem h]
  exact List.getElem_mem _

/-- The table is one to one on its 255 indices. -/
theorem gexp_inj {i j : Nat} (hi : i < 255) (hj : j < 255) : gexp i = gexp j ↔ i = j := by
  rw [gexp_eq_getElem hi, gexp_eq_getElem hj]
  exact gexpTable_nodup.getElem_inj_iff

theorem gexp_succ_mod (i : Nat) : gexp ((i + 1) % 255) = gmul (gexp (i % 255)) gfAlpha := by
  by_cases hlast : i % 255 = 254
  · rw [show (i + 1) % 255 = 0 by omega, hlast, gmul_gexp_last, gexp_zero]
  · rw [show (i + 1) % 255 = i % 255 + 1 by omega, gexp_succ (by omega)]

/-- Exponents add. -/
theorem gmul_gexp_gexp (i j : Nat) : gmul (gexp (i % 255)) (gexp (j % 255)) = gexp ((i + j) % 255) := by
  induction j with
  | zero => rw [Nat.zero_mod, gexp_zero, gmul_one, Nat.add_zero]
  | succ j ih => rw [gexp_succ_mod, ← gmul_assoc, ih, ← Nat.add_assoc, gexp_succ_mod (i + j)]

theorem glog_spec {v : Byte} (h : v ≠ 0#8) : glog v < 255 ∧ gexp (glog v) = v := by
  have hmem := (mem_gexpTable_iff v).2 h
  have hlt : gexpTable.idxOf v < 255 := by
    rw [← length_gexpTable]
    exact List.idxOf_lt_length_of_mem hmem
  rw [glog, if_neg h]
  refine ⟨hlt, ?_⟩
  rw [gexp_eq_getElem hlt]
  exact List.getElem_idxOf _

theorem gmul_ginv {v : Byte} (h : v ≠ 0#8) : gmul v (ginv v) = 1#8 := by
  obtain ⟨hlt, hexp⟩ := glog_spec h
  have hinv : gmul (gexp (glog v % 255)) (gexp ((255 - glog v) % 255)) = 1#8 := by
    rw [gmul_gexp_gexp, show glog v + (255 - glog v) = 255 by omega, Nat.mod_self, gexp_zero]
  rw [Nat.mod_eq_of_lt hlt, hexp] at hinv
  rwa [ginv, if_neg h]

theorem ginv_gmul {v : Byte} (h : v ≠ 0#8) : gmul (ginv v) v = 1#8 := by rw [gmul_comm, gmul_ginv h]

/-- The field has no zero divisors. -/
theorem gmul_eq_zero_iff (a b : Byte) : gmul a b = 0#8 ↔ a = 0#8 ∨ b = 0#8 := by
  constructor
  · intro h
    by_contra hne
    obtain ⟨ha, hb⟩ := not_or.1 hne
    have hone : gmul (gmul a b) (ginv b) = a := by rw [gmul_assoc, gmul_ginv hb, gmul_one]
    rw [h, zero_gmul] at hone
    exact ha hone.symm
  · rintro (rfl | rfl)
    · exact zero_gmul b
    · exact gmul_zero a

end Sys2Proof.Machine

open Sys2Proof Sys2Proof.Machine in
/-- Settles O27. -/
theorem gmulObeysTheFieldLaws : Obligations.GmulObeysTheFieldLaws :=
  fun a b d => ⟨gmul_comm a b, gmul_assoc a b d, gmul_xor_right a b d, gmul_zero a, gmul_one a⟩

open Sys2Proof Sys2Proof.Machine in
/-- Settles O28. -/
theorem gexpTableHoldsThePowersOfAlpha : Obligations.GexpTableHoldsThePowersOfAlpha :=
  ⟨gexp_zero, fun i => gexp_succ i.isLt, gmul_gexp_last, length_gexpTable, gexpTable_nodup,
    fun hmem => (mem_gexpTable_iff 0#8).1 hmem rfl,
    fun _ h => ⟨(glog_spec h).1, (glog_spec h).2, gmul_ginv h⟩⟩
end

