-- ==== Sys2Proof/Proofs/ReedSolomonCode.lean ====
section
/-! R141 to R146, R221, R230, R233: the generator's roots, the parity register, and what a decoded block can be. A root
`x` of the generator turns the parity register of R142 into `x^32` times the data's value at `x`. -/

namespace Sys2Proof.Machine

/-! ## Values of polynomials -/

theorem pevalLo_cons (p : Byte) (ps : List Byte) (x : Byte) :
    pevalLo (p :: ps) x = gmul (pevalLo ps x) x ^^^ p := rfl

theorem pevalHi_nil (x : Byte) : pevalHi [] x = 0#8 := rfl

theorem pevalHi_concat (l : List Byte) (a x : Byte) : pevalHi (l ++ [a]) x = gmul (pevalHi l x) x ^^^ a := by
  simp only [pevalHi, List.foldl_append, List.foldl_cons, List.foldl_nil]

/-- The two orders of Horner's rule (R127). -/
theorem pevalHi_reverse (l : List Byte) (x : Byte) : pevalHi l.reverse x = pevalLo l x :=
  List.foldl_reverse

theorem pevalLo_zipWith_xor {p q : List Byte} (h : p.length = q.length) (x : Byte) :
    pevalLo (List.zipWith (· ^^^ ·) p q) x = pevalLo p x ^^^ pevalLo q x := by
  induction p generalizing q with
  | nil =>
    rw [List.length_eq_zero_iff.1 h.symm]
    exact (BitVec.xor_self).symm
  | cons a p ih =>
    cases q with
    | nil => cases h
    | cons b q =>
      rw [List.zipWith_cons_cons, pevalLo_cons, pevalLo_cons, pevalLo_cons, ih (Nat.succ.inj h), gmul_xor_left]
      ac_rfl

theorem pevalLo_map_gmul (g : List Byte) (r x : Byte) : pevalLo (g.map (gmul · r)) x = gmul (pevalLo g x) r := by
  induction g with
  | nil => exact (zero_gmul r).symm
  | cons a g ih => rw [List.map_cons, pevalLo_cons, pevalLo_cons, ih, gmul_xor_left, gmul_right_comm]

theorem pevalLo_concat_zero (g : List Byte) (x : Byte) : pevalLo (g ++ [0#8]) x = pevalLo g x := by
  simp only [pevalLo, List.foldr_append, List.foldr_cons, List.foldr_nil, zero_gmul, BitVec.xor_zero]

theorem pevalHi_zipWith_xor {p q : List Byte} (h : p.length = q.length) (x : Byte) :
    pevalHi (List.zipWith (· ^^^ ·) p q) x = pevalHi p x ^^^ pevalHi q x := by
  have hrev : ∀ l : List Byte, pevalHi l x = pevalLo l.reverse x := fun l => by
    rw [← pevalHi_reverse, List.reverse_reverse]
  rw [hrev, hrev, hrev, List.reverse_zipWith h, pevalLo_zipWith_xor (by simpa using h)]

theorem pevalHi_map_gmul (f : Byte) (g : List Byte) (x : Byte) :
    pevalHi (g.map (gmul f)) x = gmul f (pevalHi g x) := by
  induction g using List.reverseRecOn with
  | nil => exact (gmul_zero f).symm
  | append_singleton g a ih =>
    rw [List.map_append, List.map_singleton, pevalHi_concat, ih, pevalHi_concat, gmul_xor_right, gmul_assoc]

/-- `x^n` as repeated products. -/
def gmulPow (x : Byte) : Nat → Byte
  | 0 => 1#8
  | n + 1 => gmul (gmulPow x n) x

/-- Putting words behind each other shifts the first. -/
theorem pevalHi_append (a b : List Byte) (x : Byte) :
    pevalHi (a ++ b) x = gmul (pevalHi a x) (gmulPow x b.length) ^^^ pevalHi b x := by
  induction b using List.reverseRecOn with
  | nil => rw [List.append_nil, List.length_nil, gmulPow, gmul_one, pevalHi_nil, BitVec.xor_zero]
  | append_singleton b y ih =>
    rw [← List.append_assoc, pevalHi_concat, ih, pevalHi_concat, List.length_append, List.length_singleton,
      gmulPow, gmul_xor_left, gmul_assoc, BitVec.xor_assoc]

theorem pevalHi_cons (a : Byte) (b : List Byte) (x : Byte) :
    pevalHi (a :: b) x = gmul a (gmulPow x b.length) ^^^ pevalHi b x := by
  have hone : pevalHi [a] x = a := by
    rw [pevalHi, List.foldl_cons, List.foldl_nil, zero_gmul, BitVec.zero_xor]
  rw [← List.singleton_append, pevalHi_append, hone]

/-! ## The generator -/

/-- R141's turn is the product with `x + r`. -/
theorem pevalLo_generatorTimes (g : List Byte) (r x : Byte) :
    pevalLo (generatorTimes g r) x = gmul (pevalLo g x) (x ^^^ r) := by
  rw [generatorTimes, pevalLo_zipWith_xor (by simp), pevalLo_cons, pevalLo_concat_zero, pevalLo_map_gmul,
    BitVec.xor_zero, gmul_xor_right]

/-- The product of the first `n` factors of R141. -/
def generatorPrefix (c : Cfg) (n : Nat) : List Byte :=
  (List.range n).foldl (fun g (i : Nat) => generatorTimes g (bexp c ((c.rsFcr + i : Nat) : Int))) [1#8]

theorem generatorPrefix_succ (c : Cfg) (n : Nat) :
    generatorPrefix c (n + 1) =
      generatorTimes (generatorPrefix c n) (bexp c ((c.rsFcr + n : Nat) : Int)) := by
  simp only [generatorPrefix, List.range_succ, List.foldl_append, List.foldl_cons, List.foldl_nil]

theorem rsGenerator_eq_prefix (c : Cfg) : rsGenerator c = generatorPrefix c 32 := rfl

theorem length_generatorPrefix (c : Cfg) (n : Nat) : (generatorPrefix c n).length = n + 1 := by
  induction n with
  | zero => rfl
  | succ n ih => rw [generatorPrefix_succ, length_generatorTimes, ih]

/-- Each factor brings its root. -/
theorem generatorPrefix_root (c : Cfg) {i n : Nat} (h : i < n) :
    pevalLo (generatorPrefix c n) (bexp c ((c.rsFcr + i : Nat) : Int)) = 0#8 := by
  induction n with
  | zero => exact absurd h (Nat.not_lt_zero i)
  | succ n ih =>
    rw [generatorPrefix_succ, pevalLo_generatorTimes]
    obtain hlt | rfl := Nat.lt_succ_iff_lt_or_eq.1 h
    · rw [ih hlt, zero_gmul]
    · rw [BitVec.xor_self, gmul_zero]

/-- The leading coefficient stays 1. -/
theorem getLast_generatorTimes (g : List Byte) (r : Byte) (hg : g ≠ []) :
    (generatorTimes g r).getD g.length 0#8 = g.getD (g.length - 1) 0#8 := by
  have hlen : 0 < g.length := List.length_pos_iff.2 hg
  rw [generatorTimes, List.getD_eq_getElem _ _ (by simp), List.getElem_zipWith, List.getElem_append_right (by simp),
    List.getD_eq_getElem _ _ (by omega), List.getElem_cons]
  simp [hlen.ne']

theorem generatorPrefix_monic (c : Cfg) (n : Nat) : (generatorPrefix c n).getD n 0#8 = 1#8 := by
  induction n with
  | zero => rfl
  | succ n ih =>
    have hlen := length_generatorPrefix c n
    have hlast := getLast_generatorTimes (generatorPrefix c n) (bexp c ((c.rsFcr + n : Nat) : Int))
      (List.ne_nil_of_length_pos (by omega))
    rw [hlen, Nat.add_sub_cancel, ih] at hlast
    rw [generatorPrefix_succ, hlast]

/-! ## The parity register -/

/-- The coefficients `g[31], ..., g[0]`, as R142 reads them. -/
def generatorRev (c : Cfg) : List Byte := ((rsGenerator c).take 32).reverse

theorem length_generatorRev (c : Cfg) : (generatorRev c).length = 32 := by
  simp [generatorRev, length_rsGenerator]

/-- At a root the lower coefficients make up for the leading one. -/
theorem pevalHi_generatorRev (c : Cfg) {x : Byte} (hroot : pevalLo (rsGenerator c) x = 0#8) :
    pevalHi (generatorRev c) x = gmulPow x 32 := by
  have hlen := length_rsGenerator c
  have hlast : (rsGenerator c)[32]'(by rw [hlen]; decide) = 1#8 := by
    rw [← List.getD_eq_getElem _ 0#8, rsGenerator_eq_prefix, generatorPrefix_monic]
  have hsplit : (rsGenerator c).reverse = 1#8 :: generatorRev c := by
    rw [generatorRev, ← hlast, ← List.reverse_concat, List.take_concat_get' _ _ (by rw [hlen]; decide),
      List.take_of_length_le hlen.le]
  have hzero : gmulPow x 32 ^^^ pevalHi (generatorRev c) x = 0#8 := by
    rw [← hroot, ← pevalHi_reverse, hsplit, pevalHi_cons, length_generatorRev, one_gmul]
  exact (BitVec.xor_eq_zero_iff.1 hzero).symm

/-- R142's turn without its case: a feedback of 0 adds nothing. -/
theorem rsParityStep_eq {gRev par : List Byte} (hg : gRev.length = 32) (hp : par.length = 32) (d : Byte) :
    rsParityStep gRev par d =
      List.zipWith (· ^^^ ·) (par.drop 1 ++ [0#8]) (gRev.map (gmul (d ^^^ par.headD 0#8))) := by
  rw [rsParityStep, List.zipWith_map_right]
  split
  · rfl
  · next hfb =>
    rw [not_not.1 hfb]
    refine List.ext_getElem (by simp [hg, hp]) fun i hi _ => ?_
    rw [List.getElem_zipWith, zero_gmul, BitVec.xor_zero]

/-- At a root, one turn of R142 multiplies the register's value by `x` and adds `d * x^32`. -/
theorem pevalHi_rsParityStep (c : Cfg) {x : Byte} (hroot : pevalLo (rsGenerator c) x = 0#8) {par : List Byte}
    (hp : par.length = 32) (d : Byte) :
    pevalHi (rsParityStep (generatorRev c) par d) x = gmul (pevalHi par x) x ^^^ gmul d (gmulPow x 32) := by
  obtain ⟨p, ps, rfl⟩ := List.exists_cons_of_length_eq_add_one hp
  have hps : ps.length = 31 := Nat.succ.inj hp
  rw [rsParityStep_eq (length_generatorRev c) hp, pevalHi_zipWith_xor (by simp [hps, length_generatorRev]),
    pevalHi_map_gmul, pevalHi_generatorRev c hroot, List.drop_one, List.tail_cons, List.headD_cons,
    pevalHi_concat, BitVec.xor_zero, pevalHi_cons, hps, gmul_xor_left, gmul_xor_left, gmul_assoc]
  simp only [gmulPow]
  ac_rfl

/-- After the data `d`, the register's value at a root is `d(x) * x^32`. -/
theorem pevalHi_rsParity (c : Cfg) {x : Byte} (hroot : pevalLo (rsGenerator c) x = 0#8) (d : List Byte) :
    pevalHi (rsParity c d) x = gmul (pevalHi d x) (gmulPow x 32) := by
  induction d using List.reverseRecOn with
  | nil =>
    have hzeros : ∀ n, pevalHi (List.replicate n 0#8) x = 0#8 := by
      intro n
      induction n with
      | zero => rfl
      | succ n ih => rw [List.replicate_succ, pevalHi_cons, ih, zero_gmul, BitVec.xor_zero]
    exact (hzeros 32).trans (zero_gmul _).symm
  | append_singleton d y ih =>
    have hstep : rsParity c (d ++ [y]) = rsParityStep (generatorRev c) (rsParity c d) y := by
      simp only [rsParity, generatorRev, List.foldl_append, List.foldl_cons, List.foldl_nil]
    rw [hstep, pevalHi_rsParityStep c hroot (length_rsParity c d), ih, pevalHi_concat, gmul_xor_left,
      gmul_right_comm]

/-- A codeword of R143 vanishes at every root of the generator. -/
theorem pevalHi_codeword (c : Cfg) {x : Byte} (hroot : pevalLo (rsGenerator c) x = 0#8) (d : List Byte) :
    pevalHi (d ++ rsParity c d) x = 0#8 := by
  rw [pevalHi_append, length_rsParity, pevalHi_rsParity c hroot, BitVec.xor_self]

/-! ## Linearity -/

theorem length_wordXor {a b : List Byte} (h : a.length = b.length) : (wordXor a b).length = a.length := by
  rw [wordXor, List.length_zipWith, ← h, Nat.min_self]

theorem wordXor_cons (a b : Byte) (as bs : List Byte) :
    wordXor (a :: as) (b :: bs) = (a ^^^ b) :: wordXor as bs := rfl

theorem rsParityStep_xor {gRev par par' : List Byte} (hg : gRev.length = 32) (hp : par.length = 32)
    (hp' : par'.length = 32) (d d' : Byte) :
    rsParityStep gRev (wordXor par par') (d ^^^ d') =
      wordXor (rsParityStep gRev par d) (rsParityStep gRev par' d') := by
  obtain ⟨p, ps, rfl⟩ := List.exists_cons_of_length_eq_add_one hp
  obtain ⟨p', ps', rfl⟩ := List.exists_cons_of_length_eq_add_one hp'
  have hps : ps.length = ps'.length := Nat.succ.inj (hp.trans hp'.symm)
  have hx : (wordXor (p :: ps) (p' :: ps')).length = 32 := by
    rw [length_wordXor (hp.trans hp'.symm), hp]
  rw [rsParityStep_eq hg hx, rsParityStep_eq hg hp, rsParityStep_eq hg hp', wordXor_cons, wordXor, wordXor]
  simp only [List.drop_one, List.tail_cons, List.headD_cons]
  refine List.ext_getElem (by simp [hps]) fun i hi _ => ?_
  have hlen : i < ps'.length + 1 := by
    simp only [List.length_zipWith, List.length_append, List.length_singleton, hps] at hi
    omega
  have hshift : (List.zipWith (· ^^^ ·) ps ps' ++ [0#8]) =
      List.zipWith (· ^^^ ·) (ps ++ [0#8]) (ps' ++ [0#8]) := by
    rw [List.zipWith_append hps]
    rfl
  have hfb : d ^^^ d' ^^^ (p ^^^ p') = (d ^^^ p) ^^^ (d' ^^^ p') := by ac_rfl
  simp only [hshift, List.getElem_zipWith, List.getElem_map, hfb, gmul_xor_left]
  ac_rfl

theorem rsParity_xor (c : Cfg) {d d' : List Byte} (h : d.length = d'.length) :
    rsParity c (wordXor d d') = wordXor (rsParity c d) (rsParity c d') := by
  have hfold : ∀ (d d' par par' : List Byte), d.length = d'.length → par.length = 32 → par'.length = 32 →
      (wordXor d d').foldl (rsParityStep (generatorRev c)) (wordXor par par') =
        wordXor (d.foldl (rsParityStep (generatorRev c)) par)
          (d'.foldl (rsParityStep (generatorRev c)) par') := by
    intro d
    induction d with
    | nil =>
      intro d' par par' h _ _
      rw [List.length_eq_zero_iff.1 h.symm]
      rfl
    | cons y d ih =>
      intro d' par par' h hp hp'
      cases d' with
      | nil => cases h
      | cons y' d' =>
        have hg := length_generatorRev c
        rw [wordXor_cons, List.foldl_cons, List.foldl_cons, List.foldl_cons, rsParityStep_xor hg hp hp',
          ih d' _ _ (Nat.succ.inj h) (length_rsParityStep y hg hp) (length_rsParityStep y' hg hp')]
  have hzero : wordXor (List.replicate 32 0#8) (List.replicate 32 0#8) = List.replicate 32 0#8 := by
    decide +kernel
  have hall := hfold d d' (List.replicate 32 0#8) (List.replicate 32 0#8) h (by simp) (by simp)
  rwa [hzero] at hall

/-! ## Codewords -/

theorem isCodeword_iff (c : Cfg) (r : List Byte) : isCodeword c r = true ↔
    ∀ i : Fin 32, pevalHi r (bexp c ((c.rsFcr + i.val : Nat) : Int)) = 0#8 := by
  simp only [isCodeword, syndromes, List.all_map, List.all_eq_true, List.mem_range, Function.comp, beq_iff_eq]
  exact ⟨fun h i => h i.val i.isLt, fun h i hi => h ⟨i, hi⟩⟩

theorem rsGenerator_root (c : Cfg) (i : Fin 32) :
    pevalLo (rsGenerator c) (bexp c ((c.rsFcr + i.val : Nat) : Int)) = 0#8 :=
  generatorPrefix_root c i.isLt

theorem isCodeword_encoded (c : Cfg) (d : List Byte) : isCodeword c (d ++ rsParity c d) = true :=
  (isCodeword_iff c _).2 fun i => pevalHi_codeword c (rsGenerator_root c i) d

theorem rsDecode_encoded (c : Cfg) {d : List Byte} (h : d.length = 223) :
    rsDecode c (d ++ rsParity c d) = (.ok, d) := by
  rw [rsDecode, if_pos (isCodeword_encoded c d), List.take_left' h]

/-! ## How far a correction reaches -/

theorem byteDistance_cons (a b : Byte) (as bs : List Byte) :
    byteDistance (a :: as) (b :: bs) = (if a = b then 0 else 1) + byteDistance as bs := by
  by_cases h : a = b
  · simp [byteDistance, h]
  · simp [byteDistance, h, Nat.add_comm]

theorem byteDistance_self (r : List Byte) : byteDistance r r = 0 := by
  induction r with
  | nil => rfl
  | cons a r ih => rw [byteDistance_cons, if_pos rfl, ih]

/-- Changing one byte moves a word by at most one. -/
theorem byteDistance_modify_le (f : Byte → Byte) (r w : List Byte) (i : Nat) :
    byteDistance r (w.modify i f) ≤ byteDistance r w + 1 := by
  induction r generalizing w i with
  | nil => simp [byteDistance]
  | cons a r ih =>
    cases w with
    | nil => simp [byteDistance]
    | cons b w =>
      cases i with
      | zero =>
        rw [List.modify_zero_cons, byteDistance_cons, byteDistance_cons]
        split <;> split <;> omega
      | succ i =>
        have hrest := ih w i
        rw [List.modify_succ_cons, byteDistance_cons, byteDistance_cons]
        omega

/-- Corrections at the positions `ps` move a word by at most their number. -/
theorem byteDistance_forneyAll_le {c : Cfg} {lam omg r : List Byte} {deg : Nat} {ps : List Nat}
    {word out : List Byte} (h : forneyAll c lam omg deg ps word = some out) :
    byteDistance r out ≤ byteDistance r word + ps.length := by
  induction ps generalizing word with
  | nil =>
    cases h
    exact le_rfl
  | cons p ps ih =>
    rw [forneyAll] at h
    split at h
    · cases h
    · next word' hword =>
      rw [forneyCorrect] at hword
      split at hword
      · cases hword
      · cases hword
        have hrest := ih h
        have hone := byteDistance_modify_le (· ^^^ forneyVal c omg p (forneyDen c lam deg p)) r word (254 - p)
        rw [List.length_cons]
        omega

end Sys2Proof.Machine

open Sys2Proof Sys2Proof.Machine in
/-- Settles O29: each factor of R141 brings its root and keeps the leading 1. -/
theorem generatorHasItsThirtyTwoRoots : Obligations.GeneratorHasItsThirtyTwoRoots :=
  ⟨fun c => ⟨length_rsGenerator c.toCfg, generatorPrefix_monic c.toCfg 32, rsGenerator_root c.toCfg⟩,
    by decide +kernel⟩

open Sys2Proof Sys2Proof.Machine in
/-- Settles O30, turn by turn of R142. -/
theorem parityIsLinear : Obligations.ParityIsLinear := fun c _ _ => rsParity_xor c.toCfg

open Sys2Proof Sys2Proof.Machine in
/-- Settles O31. -/
theorem encodedBlockHasZeroSyndromes : Obligations.EncodedBlockHasZeroSyndromes :=
  fun c d _ i => pevalHi_codeword c.toCfg (rsGenerator_root c.toCfg i) d

open Sys2Proof Sys2Proof.Machine in
/-- Settles O32. -/
theorem cleanBlockDecodesToItsData : Obligations.CleanBlockDecodesToItsData :=
  fun c _ => rsDecode_encoded c.toCfg

open Sys2Proof Sys2Proof.Machine in
/-- Settles O33: the received word itself, or what at most 16 corrections make of it. -/
theorem okBlockIsWithinSixteenBytesOfACodeword : Obligations.OkBlockIsWithinSixteenBytesOfACodeword := by
  intro c r data hlen hdecode
  obtain ⟨hcode, heq⟩ | ⟨word, hword, heq⟩ | ⟨_, _, heq⟩ := rsDecode_cases c.toCfg r
  · cases hdecode.symm.trans heq
    exact ⟨r, hlen, rfl, by rw [byteDistance_self]; exact Nat.zero_le _, (isCodeword_iff _ _).1 hcode⟩
  · cases hdecode.symm.trans heq
    obtain ⟨hcode, locs, hlocs, lam, omg, deg, hall⟩ := rsCorrect_some hword
    have hdist := byteDistance_forneyAll_le (r := r) hall
    rw [byteDistance_self] at hdist
    exact ⟨word, (length_forneyAll hall).trans hlen, rfl, by omega, (isCodeword_iff _ _).1 hcode⟩
  · cases hdecode.symm.trans heq

open Sys2Proof Sys2Proof.Machine in
/-- Settles O34. -/
theorem uncorrectableBlockKeepsTheReceivedData : Obligations.UncorrectableBlockKeepsTheReceivedData := by
  intro c r data hdecode
  obtain ⟨_, heq⟩ | ⟨_, _, heq⟩ | ⟨_, hcode, heq⟩ := rsDecode_cases c.toCfg r
  · cases hdecode.symm.trans heq
  · cases hdecode.symm.trans heq
  · cases hdecode.symm.trans heq
    exact ⟨rfl, fun hzero => Bool.false_ne_true (hcode.symm.trans ((isCodeword_iff _ _).2 hzero))⟩
end

