-- ==== Sys2Proof/Proofs/ConvolutionalCode.lean ====
section
/-! R150 to R156: parity is additive, so the code is linear; the masks' bits 0 and 6 make both outputs follow the
newest and the oldest bit of the window. -/

namespace Sys2Proof.Machine

theorem foldl_xor_init (f : Nat → Bool) (is : List Nat) (a : Bool) :
    is.foldl (fun acc i => acc ^^ f i) a = (a ^^ is.foldl (fun acc i => acc ^^ f i) false) := by
  induction is generalizing a with
  | nil => exact (Bool.xor_false a).symm
  | cons i is ih => rw [List.foldl_cons, List.foldl_cons, ih, ih (false ^^ f i), Bool.false_xor, Bool.xor_assoc]

theorem foldl_xor_xor (f g : Nat → Bool) (is : List Nat) :
    is.foldl (fun acc i => acc ^^ (f i ^^ g i)) false =
      (is.foldl (fun acc i => acc ^^ f i) false ^^ is.foldl (fun acc i => acc ^^ g i) false) := by
  induction is with
  | nil => rfl
  | cons i is ih =>
    simp only [List.foldl_cons, Bool.false_xor]
    rw [foldl_xor_init, ih, foldl_xor_init f is (f i), foldl_xor_init g is (g i), Bool.xor_assoc, Bool.xor_assoc,
      Bool.xor_left_comm (g i)]

/-- Parity is additive (R10). -/
theorem parity_xor {n : Nat} (v w : BitVec n) : parity (v ^^^ w) = (parity v ^^ parity w) := by
  simp only [parity, BitVec.getLsbD_xor, foldl_xor_xor]

theorem parity_xor_and {n : Nat} (v w m : BitVec n) :
    parity ((v ^^^ w) &&& m) = (parity (v &&& m) ^^ parity (w &&& m)) := by
  rw [← parity_xor]
  refine congrArg parity (BitVec.eq_of_getLsbD_eq fun i _ => ?_)
  simp only [BitVec.getLsbD_and, BitVec.getLsbD_xor, Bool.and_xor_distrib_right]

theorem convOut1_xor (c : Cfg) (w w' : BitVec 7) : convOut1 c (w ^^^ w') = (convOut1 c w ^^ convOut1 c w') :=
  parity_xor_and w w' c.convG1

theorem convOut2_xor (c : Cfg) (w w' : BitVec 7) : convOut2 c (w ^^^ w') = (convOut2 c w ^^ convOut2 c w') :=
  parity_xor_and w w' c.convG2

theorem parity_and_bit_zero : ∀ m : BitVec 7, parity (0x01#7 &&& m) = m.getLsbD 0 := by decide +kernel

theorem parity_and_bit_six : ∀ m : BitVec 7, parity (0x40#7 &&& m) = m.getLsbD 6 := by decide +kernel

/-- Complementing the newest bit of a window complements both outputs (R156 (d)). -/
theorem convOut_flip_newest (c : Config) (w : BitVec 7) :
    convOut1 c.toCfg (w ^^^ 0x01#7) = !convOut1 c.toCfg w ∧
      convOut2 c.toCfg (w ^^^ 0x01#7) = !convOut2 c.toCfg w := by
  obtain ⟨hnew1, _, hnew2, _, _⟩ := c.conv_bits
  have h1 : convOut1 c.toCfg 0x01#7 = true := (parity_and_bit_zero _).trans hnew1
  have h2 : convOut2 c.toCfg 0x01#7 = true := (parity_and_bit_zero _).trans hnew2
  rw [convOut1_xor, convOut2_xor, h1, h2, Bool.xor_true, Bool.xor_true]
  exact ⟨rfl, rfl⟩

/-- The same for the oldest bit. -/
theorem convOut_flip_oldest (c : Config) (w : BitVec 7) :
    convOut1 c.toCfg (w ^^^ 0x40#7) = !convOut1 c.toCfg w ∧
      convOut2 c.toCfg (w ^^^ 0x40#7) = !convOut2 c.toCfg w := by
  obtain ⟨_, hold1, _, hold2, _⟩ := c.conv_bits
  have h1 : convOut1 c.toCfg 0x40#7 = true := (parity_and_bit_six _).trans hold1
  have h2 : convOut2 c.toCfg 0x40#7 = true := (parity_and_bit_six _).trans hold2
  rw [convOut1_xor, convOut2_xor, h1, h2, Bool.xor_true, Bool.xor_true]
  exact ⟨rfl, rfl⟩

/-! ## Linearity -/

theorem convWindow_xor (sr sr' : BitVec 6) (b b' : Bit) :
    convWindow (sr ^^^ sr') (b ^^ b') = convWindow sr b ^^^ convWindow sr' b' := by
  refine BitVec.eq_of_getLsbD_eq fun i _ => ?_
  simp only [BitVec.getLsbD_xor, getLsbD_convWindow]
  split
  · rfl
  · rw [Bool.and_xor_distrib_left]

theorem convNext_xor (w w' : BitVec 7) : convNext (w ^^^ w') = convNext w ^^^ convNext w' :=
  BitVec.setWidth_xor

theorem convBits_xor (c : Cfg) (sr sr' : BitVec 6) {as bs : List Bit} (h : as.length = bs.length) :
    (convBits c (sr ^^^ sr') (bitsXor as bs)).1 = bitsXor (convBits c sr as).1 (convBits c sr' bs).1 := by
  induction as generalizing bs sr sr' with
  | nil =>
    rw [List.length_eq_zero_iff.1 h.symm]
    rfl
  | cons a as ih =>
    cases bs with
    | nil => cases h
    | cons b bs =>
      have hhead : bitsXor (a :: as) (b :: bs) = (a ^^ b) :: bitsXor as bs := rfl
      rw [hhead, convBits_cons, convBits_cons, convBits_cons, convWindow_xor, convOut1_xor, convOut2_xor,
        convNext_xor, ih _ _ (Nat.succ.inj h)]
      rfl

/-! ## The register -/

theorem getLsbD_convNext_convWindow (sr : BitVec 6) (b : Bit) (i : Nat) :
    (convNext (convWindow sr b)).getLsbD i = if i = 0 then b else decide (i < 6) && sr.getLsbD (i - 1) := by
  rw [convNext, BitVec.getLsbD_setWidth, getLsbD_convWindow]
  by_cases hzero : i = 0
  · simp [hzero]
  · by_cases hlt : i < 6
    · simp [hzero, hlt, Nat.lt_succ_of_lt hlt]
    · simp [hzero, hlt]

/-- The register after the bits `as` and one more. -/
theorem convBits_concat_register (c : Cfg) (sr : BitVec 6) (as : List Bit) (b : Bit) :
    (convBits c sr (as ++ [b])).2 = convNext (convWindow (convBits c sr as).2 b) := by
  rw [convBits_append, convBits_cons, convBits_nil]

/-- From a cleared register the register holds the last six input bits. -/
theorem getLsbD_convBits_register (c : Cfg) (as : List Bit) {i : Nat} (hi : i < 6) :
    (convBits c 0#6 as).2.getLsbD i = as.reverse.getD i false := by
  induction as using List.reverseRecOn generalizing i with
  | nil => rw [convBits_nil, List.reverse_nil, BitVec.getLsbD_zero, List.getD_nil]
  | append_singleton as b ih =>
    rw [convBits_concat_register, getLsbD_convNext_convWindow, List.reverse_append, List.reverse_singleton,
      List.singleton_append]
    cases i with
    | zero => rfl
    | succ i => simp [ih (by omega : i < 6), hi]

/-! ## Telling inputs apart -/

theorem convWindow_flip_newest : ∀ (sr : BitVec 6) (b : Bit), convWindow sr (!b) = convWindow sr b ^^^ 0x01#7 := by
  decide +kernel

/-- The coded pair of the bit behind `p`. -/
theorem convBits_append_cons (c : Cfg) (sr : BitVec 6) (p : List Bit) (b : Bit) (bs : List Bit) :
    (convBits c sr (p ++ b :: bs)).1 =
      (convBits c sr p).1 ++
        convOut1 c (convWindow (convBits c sr p).2 b) :: convOut2 c (convWindow (convBits c sr p).2 b) ::
          (convBits c (convNext (convWindow (convBits c sr p).2 b)) bs).1 := by
  rw [convBits_append, convBits_cons]

theorem getD_append_pair {p : List Bit} {t : Nat} (hp : p.length = 2 * t) (a b : Bit) (l : List Bit) :
    (p ++ a :: b :: l).getD (2 * t + 0) false = a ∧ (p ++ a :: b :: l).getD (2 * t + 1) false = b := by
  rw [← hp, List.getD_append_right _ _ _ _ (Nat.le_add_right _ _),
    List.getD_append_right _ _ _ _ (Nat.le_add_right _ _), Nat.add_sub_cancel_left, Nat.add_sub_cancel_left]
  exact ⟨rfl, rfl⟩

/-- Inputs that part at one bit differ in both bits of its pair. -/
theorem convBits_first_difference (c : Config) (p : List Bit) (a : Bit) (as bs : List Bit) (o : Fin 2) :
    (convBits c.toCfg 0#6 (p ++ a :: as)).1.getD (2 * p.length + o.val) false ≠
      (convBits c.toCfg 0#6 (p ++ (!a) :: bs)).1.getD (2 * p.length + o.val) false := by
  have hlen := length_convBits c.toCfg 0#6 p
  obtain ⟨h1, h2⟩ := convOut_flip_newest c (convWindow (convBits c.toCfg 0#6 p).2 a)
  rw [convBits_append_cons, convBits_append_cons, convWindow_flip_newest, h1, h2]
  intro h
  match o with
  | 0 =>
    have hpair := ((getD_append_pair hlen _ _ _).1.symm.trans h).trans (getD_append_pair hlen _ _ _).1
    exact Bool.not_ne_self _ hpair.symm
  | 1 =>
    have hpair := ((getD_append_pair hlen _ _ _).2.symm.trans h).trans (getD_append_pair hlen _ _ _).2
    exact Bool.not_ne_self _ hpair.symm

theorem eq_take_append_getD_cons {as : List Bit} {t : Nat} (h : t < as.length) :
    as = as.take t ++ as.getD t false :: as.drop (t + 1) := by
  rw [List.getD_eq_getElem _ _ h, ← List.drop_eq_getElem_cons h, List.take_append_drop]

end Sys2Proof.Machine

open Sys2Proof Sys2Proof.Machine in
/-- Settles O36. -/
theorem convolutionalCodeProperties : Obligations.ConvolutionalCodeProperties := by
  intro c as bs hlen
  refine ⟨convBits_xor c.toCfg 0#6 0#6 hlen, length_convBits _ _ _, c.frameCvBytes_eq,
    fun d => getLsbD_convBits_register c.toCfg as d.isLt, fun t ht hsame hdiff o => ?_⟩
  have hbit : bs.getD t false = !as.getD t false := by
    revert hdiff
    cases as.getD t false <;> cases bs.getD t false <;> decide
  have hpart := convBits_first_difference c (as.take t) (as.getD t false) (as.drop (t + 1)) (bs.drop (t + 1)) o
  have hbs : bs = as.take t ++ (!as.getD t false) :: bs.drop (t + 1) := by
    rw [hsame, ← hbit]
    exact eq_take_append_getD_cons (hlen ▸ ht)
  rwa [← eq_take_append_getD_cons ht, ← hbs, List.length_take, Nat.min_eq_left ht.le] at hpart

open Sys2Proof Sys2Proof.Machine in
/-- Settles O37. -/
theorem expectedPairTable : Obligations.ExpectedPairTable :=
  ⟨by decide +kernel, fun c w =>
    ⟨(convOut_flip_newest c w).1, (convOut_flip_newest c w).2, (convOut_flip_oldest c w).1,
      (convOut_flip_oldest c w).2⟩⟩
end

