-- ==== Sys2Proof/Proofs/KeyStream.lean ====
section
/-! R163, R196: the scrambler's register is a window onto its own key stream, and never 0. -/

namespace Sys2Proof.Machine

/-! ## The register as a window onto the key stream -/

theorem getLsbD_of_fits {s : BitVec 32} {n j : Nat} (hs : s.toNat < 2 ^ n) (hj : n ≤ j) : s.getLsbD j = false :=
  Nat.testBit_lt_two_pow (lt_of_lt_of_le hs (Nat.pow_le_pow_right (by decide) hj))

/-- One step moves each bit down and puts the parity of the tapped bits on top. -/
theorem getLsbD_scrNext (c : Config) {s : BitVec 32} (hs : s.toNat < 2 ^ c.scrLen) {j : Nat} (hj : j < c.scrLen) :
    (scrNext c.toCfg s).getLsbD j =
      if j + 1 = c.scrLen then parity (s &&& c.scrTaps) else s.getLsbD (j + 1) := by
  obtain ⟨hlow, hhigh⟩ := c.scrLen_bounds
  have hnew : (if parity (s &&& c.scrTaps) then 1#32 <<< (c.scrLen - 1) else 0#32).getLsbD j =
      (parity (s &&& c.scrTaps) && decide (j + 1 = c.scrLen)) := by
    cases parity (s &&& c.scrTaps)
    · exact BitVec.getLsbD_zero
    · have hlt : j < 32 := by omega
      by_cases htop : j + 1 = c.scrLen
      · have hsub : j - (c.scrLen - 1) = 0 := by omega
        simp [hlt, htop, hsub, show ¬ j < c.scrLen - 1 by omega]
      · simp [hlt, htop, show j < c.scrLen - 1 by omega]
  rw [scrNext, BitVec.getLsbD_or, BitVec.getLsbD_ushiftRight, hnew, Nat.add_comm 1 j]
  split
  · next htop => simp [htop, getLsbD_of_fits hs le_rfl]
  · next htop => simp [htop]

theorem scrSeed_iterate_fits (c : Config) (i : Nat) : (scrIterate c.toCfg i c.scrSeed).toNat < 2 ^ c.scrLen :=
  scrIterate_fits c i c.scrSeed_fits.1

/-- Bit `j` of the register after `i` steps is key bit `i + j`. -/
theorem getLsbD_scrIterate (c : Config) (i : Nat) {j : Nat} (hj : j < c.scrLen) :
    (scrIterate c.toCfg i c.scrSeed).getLsbD j = keyBit c.toCfg (i + j) := by
  induction j generalizing i with
  | zero => rfl
  | succ j ih =>
    have hnext := getLsbD_scrNext c (scrSeed_iterate_fits c i) (Nat.lt_of_succ_lt hj)
    rw [if_neg (by omega), ← scrIterate_succ_last, ih (i + 1) (Nat.lt_of_succ_lt hj)] at hnext
    rw [← hnext, Nat.succ_add_eq_add_succ]

/-! ## The recurrence -/

theorem foldl_xor_eq_bodd (f : Nat → Bool) (is : List Nat) :
    is.foldl (fun acc i => acc ^^ f i) false = (is.filter f).length.bodd := by
  induction is with
  | nil => exact Nat.bodd_zero.symm
  | cons i is ih =>
    rw [List.foldl_cons, Bool.false_xor, foldl_xor_init, ih, List.filter_cons]
    cases f i
    · exact Bool.false_xor _
    · rw [if_pos rfl, List.length_cons, Nat.bodd_succ, Bool.true_xor]

/-- The parity of a word with bits below `m` alone counts those. -/
theorem parity_eq_bodd {n m : Nat} {v : BitVec n} (hm : m ≤ n) (hzero : ∀ j, m ≤ j → v.getLsbD j = false) :
    parity v = ((List.range m).filter fun j => v.getLsbD j).length.bodd := by
  obtain ⟨k, rfl⟩ := Nat.exists_eq_add_of_le hm
  have hrest : ((List.range k).map (m + ·)).filter (fun j => v.getLsbD j) = [] := by
    rw [List.filter_eq_nil_iff]
    intro j hj
    obtain ⟨i, _, rfl⟩ := List.mem_map.1 hj
    rw [hzero _ (Nat.le_add_right m i)]
    exact Bool.false_ne_true
  rw [parity, foldl_xor_eq_bodd, List.range_add, List.filter_append, hrest, List.append_nil]

theorem keyBit_add_scrLen (c : Config) (i : Nat) :
    keyBit c.toCfg (i + c.scrLen) =
      ((List.range c.scrLen).filter fun j => c.scrTaps.getLsbD j && keyBit c.toCfg (i + j)).length.bodd := by
  obtain ⟨hlow, hhigh⟩ := c.scrLen_bounds
  have htop : c.scrLen - 1 < c.scrLen := by omega
  have hnext := getLsbD_scrNext c (scrSeed_iterate_fits c i) htop
  rw [if_pos (by omega), ← scrIterate_succ_last, getLsbD_scrIterate c (i + 1) htop] at hnext
  have hindex : i + 1 + (c.scrLen - 1) = i + c.scrLen := by omega
  rw [← hindex, hnext, parity_eq_bodd hhigh fun j hj => by
    rw [BitVec.getLsbD_and, getLsbD_of_fits c.scrTaps_fit.1 hj, Bool.and_false]]
  refine congrArg (fun l => (List.length l).bodd) (List.filter_congr fun j hj => ?_)
  rw [BitVec.getLsbD_and, getLsbD_scrIterate c i (List.mem_range.1 hj), Bool.and_comm]

/-! ## The register never dies -/

/-- Only 0 steps to 0: the tap at bit 0 brings a leaving bit back. -/
theorem scrNext_ne_zero (c : Config) {s : BitVec 32} (hs : s.toNat < 2 ^ c.scrLen) (hne : s ≠ 0#32) :
    scrNext c.toCfg s ≠ 0#32 := by
  obtain ⟨hlow, hhigh⟩ := c.scrLen_bounds
  intro hzero
  have hbits : ∀ j, j < c.scrLen →
      (if j + 1 = c.scrLen then parity (s &&& c.scrTaps) else s.getLsbD (j + 1)) = false := fun j hj => by
    rw [← getLsbD_scrNext c hs hj, hzero, BitVec.getLsbD_zero]
  have hhighBits : ∀ j, 1 ≤ j → s.getLsbD j = false := fun j hj => by
    obtain hin | hout := Nat.lt_or_ge j c.scrLen
    · have hbit := hbits (j - 1) (by omega)
      rwa [if_neg (by omega), Nat.sub_add_cancel hj] at hbit
    · exact getLsbD_of_fits hs hout
  have hlowBit : s.getLsbD 0 = false := by
    have hbit := hbits (c.scrLen - 1) (by omega)
    rw [if_pos (by omega), parity_eq_bodd (m := 1) (by decide) fun j hj => by
      rw [BitVec.getLsbD_and, hhighBits j hj, Bool.false_and]] at hbit
    have hone : List.range 1 = [0] := rfl
    rw [hone, List.filter_singleton, BitVec.getLsbD_and, c.scrTaps_fit.2, Bool.and_true] at hbit
    revert hbit
    cases s.getLsbD 0
    · exact fun _ => rfl
    · exact fun h => h
  refine hne (BitVec.eq_of_getLsbD_eq fun j _ => ?_)
  rw [BitVec.getLsbD_zero]
  cases j with
  | zero => exact hlowBit
  | succ j => exact hhighBits (j + 1) (Nat.succ_pos j)

theorem scrIterate_ne_zero (c : Config) (i : Nat) : scrIterate c.toCfg i c.scrSeed ≠ 0#32 := by
  induction i with
  | zero => exact c.scrSeed_fits.2
  | succ i ih =>
    rw [scrIterate_succ_last]
    exact scrNext_ne_zero c (scrSeed_iterate_fits c i) ih

theorem exists_keyBit (c : Config) (i : Nat) : ∃ j, j < c.scrLen ∧ keyBit c.toCfg (i + j) = true := by
  by_contra hnone
  refine scrIterate_ne_zero c i (BitVec.eq_of_getLsbD_eq fun j _ => ?_)
  rw [BitVec.getLsbD_zero]
  obtain hin | hout := Nat.lt_or_ge j c.scrLen
  · rw [getLsbD_scrIterate c i hin]
    exact Bool.eq_false_iff.2 fun hbit => hnone ⟨j, hin, hbit⟩
  · exact getLsbD_of_fits (scrSeed_iterate_fits c i) hout

/-! ## `CFG_REF`: the register evaluated once, step by step -/

theorem scrIterate_eq_iterate (c : Cfg) (n : Nat) (s : BitVec 32) : scrIterate c n s = (scrNext c)^[n] s := by
  induction n generalizing s with
  | zero => rfl
  | succ n ih => exact ih (scrNext c s)

/-- The registers after `0, ..., n - 1` steps, each from the one before. -/
def registerWalk (c : Cfg) (n : Nat) : List (BitVec 32) := List.iterate (scrNext c) c.scrSeed n

theorem registerWalk_eq_map (c : Cfg) (n : Nat) :
    registerWalk c n = (List.range n).map fun i => scrIterate c i c.scrSeed := by
  refine List.ext_getElem (by simp [registerWalk]) fun i _ _ => ?_
  simp [registerWalk, scrIterate_eq_iterate]

theorem scrIterate_mem_registerWalk (c : Cfg) {p n : Nat} (hpos : 0 < p) (hlt : p < n) :
    scrIterate c p c.scrSeed ∈ (registerWalk c n).tail := by
  refine List.mem_iff_getElem.2 ⟨p - 1, by simp [registerWalk]; omega, ?_⟩
  simp [registerWalk_eq_map, Nat.sub_add_cancel hpos]

theorem seed_not_mem_registerWalk_ref : Config.ref.scrSeed ∉ (registerWalk Config.ref.toCfg 255).tail := by
  decide +kernel

theorem scrIterate_ref_period : scrIterate Config.ref.toCfg 255 Config.ref.scrSeed = Config.ref.scrSeed := by
  decide +kernel

theorem keyBytes_ref : (packBytes ((registerWalk Config.ref.toCfg 128).map scrOut)).1 =
    [0xFF, 0x48, 0x0E, 0xC0, 0x9A, 0x0D, 0x70, 0xBC, 0x8E, 0x2C, 0x93, 0xAD, 0xA7, 0xB7, 0x46, 0xCE] := by
  decide +kernel

end Sys2Proof.Machine

open Sys2Proof Sys2Proof.Machine in
/-- Settles O38. -/
theorem keyStreamObeysTheTaps : Obligations.KeyStreamObeysTheTaps := by
  refine ⟨fun c i => ⟨fun j hj => getLsbD_scrIterate c i hj, keyBit_add_scrLen c i, c.scrTaps_fit.2,
    exists_keyBit c i⟩, ?_, ?_⟩
  · exact ⟨scrIterate_ref_period, fun p hpos heq =>
      seed_not_mem_registerWalk_ref (heq ▸ scrIterate_mem_registerWalk Config.ref.toCfg hpos p.isLt)⟩
  · rw [show (List.range 128).map (keyBit Config.ref.toCfg) = (registerWalk Config.ref.toCfg 128).map scrOut by
      rw [registerWalk_eq_map, List.map_map]
      rfl]
    exact keyBytes_ref
end

