-- ==== Sys2Proof/Proofs/SyncCorrelation.lean ====
section
/-! R187 to R196: the window after some symbols have come into an empty one, and its correlation: the aperiodic
correlation of those symbols with the end of the sync word. -/

namespace Sys2Proof.Machine

theorem getElem_windowPush (win : Vector Soft 32) (x : Soft) {j : Nat} (hj : j < 32) :
    (windowPush win x)[j] = if h : j + 1 < 32 then win[j + 1] else x := by
  rw [windowPush, Vector.getElem_ofFn]

/-- The window once the symbols `xs` have come: the newest stand at its end. -/
theorem getElem_foldl_windowPush (win : Vector Soft 32) (xs : List Soft) {j : Nat} (hj : j < 32) :
    (xs.foldl windowPush win)[j] =
      if h : j + xs.length < 32 then win[j + xs.length] else xs.getD (j + xs.length - 32) 0 := by
  induction xs using List.reverseRecOn generalizing j with
  | nil => simp [hj]
  | append_singleton xs x ih =>
    rw [List.foldl_append, List.foldl_cons, List.foldl_nil, getElem_windowPush]
    have hlen : (xs ++ [x]).length = xs.length + 1 := by simp
    by_cases hmove : j + 1 < 32
    · rw [dif_pos hmove, ih hmove]
      by_cases hin : j + 1 + xs.length < 32
      · rw [dif_pos hin, dif_pos (by omega)]
        congr 1
        omega
      · rw [dif_neg hin, dif_neg (by omega), hlen, List.getD_append _ _ _ _ (by omega)]
        congr 1
        omega
    · rw [dif_neg hmove, dif_neg (by omega), hlen, List.getD_append_right _ _ _ _ (by omega),
        show j + (xs.length + 1) - 32 - xs.length = 0 by omega]
      rfl

/-- The correlation once at most 32 symbols have come into an empty window. -/
theorem correlation_foldl_windowPush (c : Cfg) {xs : List Soft} {s : Nat} (hlen : s + xs.length = 32) :
    correlation c (xs.foldl windowPush zeroWindow) =
      ∑ j ∈ Finset.range xs.length, xs.getD j 0 * syncSymbol c (j + s) := by
  have hwin : ∀ j : Fin 32, (xs.foldl windowPush zeroWindow)[j] * syncSymbol c j.val =
      (fun j : Nat => (if j < s then 0 else xs.getD (j - s) 0) * syncSymbol c j) j.val := by
    intro j
    rw [Fin.getElem_fin, getElem_foldl_windowPush _ _ j.isLt]
    by_cases hold : j.val < s
    · rw [dif_pos (by omega), zeroWindow_get _ (by omega)]
      simp only [hold, if_true]
    · rw [dif_neg (by omega), show j.val + xs.length - 32 = j.val - s by omega]
      simp only [hold, if_false]
  rw [correlation, List.sum_ofFn, Finset.sum_congr rfl fun j _ => hwin j,
    Fin.sum_univ_eq_sum_range fun j : Nat => (if j < s then 0 else xs.getD (j - s) 0) * syncSymbol c j,
    ← hlen, Finset.sum_range_add, Finset.sum_eq_zero, zero_add]
  · refine Finset.sum_congr rfl fun j _ => ?_
    rw [if_neg (by omega), Nat.add_sub_cancel_left, Nat.add_comm]
  · intro j hj
    rw [if_pos (Finset.mem_range.1 hj), zero_mul]

theorem getD_map_range_syncSymbol (c : Cfg) {n j : Nat} (h : j < n) :
    ((List.range n).map (syncSymbol c)).getD j 0 = syncSymbol c j := by
  rw [List.getD_eq_getElem _ _ (by simpa using h), List.getElem_map, List.getElem_range]

/-- The aperiodic autocorrelation of the sync word at the shift `s` (R196). -/
def autocorrelation (c : Cfg) (s : Nat) : Soft :=
  ((List.range (32 - s)).map fun j => syncSymbol c j * syncSymbol c (j + s)).sum

/-- The correlation `32 - s` symbols into a clean sync word. -/
theorem correlation_clean (c : Cfg) {s : Nat} (hs : s ≤ 32) :
    correlation c (((List.range (32 - s)).map (syncSymbol c)).foldl windowPush zeroWindow) =
      autocorrelation c s := by
  rw [correlation_foldl_windowPush c (s := s) (by simp; omega), autocorrelation, sum_map_range, List.length_map,
    List.length_range]
  exact Finset.sum_congr rfl fun j hj => by rw [getD_map_range_syncSymbol c (Finset.mem_range.1 hj)]

/-- The values of R196 for the shifts 1 to 31. -/
def refAutocorrelations : List Int :=
  [9, 4, 1, 0, -1, -2, -5, -2, -1, 0, 1, 2, 1, 0, 3, -2, -3, -4, -1, -2, -1, 0, 5, 2, 5, -2, -3, 0, -1, 0, -1]

theorem autocorrelation_ref : ∀ k : Fin 31,
    autocorrelation Config.ref.toCfg (k.val + 1) = (refAutocorrelations.getD k.val 0 : Int) := by
  decide +kernel

end Sys2Proof.Machine

open Sys2Proof Sys2Proof.Machine in
/-- Settles O39. -/
theorem syncWordAutocorrelation : Obligations.SyncWordAutocorrelation := by
  intro k
  have hvalue := autocorrelation_ref k
  have hcorr := correlation_clean Config.ref.toCfg (s := k.val + 1) (by omega)
  rw [show 32 - (k.val + 1) = 31 - k.val by omega] at hcorr
  refine ⟨?_, hcorr.trans hvalue⟩
  rw [autocorrelation, show 32 - (k.val + 1) = 31 - k.val by omega] at hvalue
  exact hvalue
end

