-- ==== Sys2Proof/Proofs/OneByteError.lean ====
section
/-! R221 to R230 at a codeword with one byte changed: the syndromes are a geometric sequence, whose ratio is the error's
locator; R224 finds it in two steps, R226 its position and R227 its value. -/

namespace Sys2Proof.Machine

/-! ## Powers of `BETA` -/

/-- The index of `bexp` is the exponent modulo 255. -/
theorem bexp_congr (c : Cfg) {a b : Int} (h : a % 255 = b % 255) : bexp c a = bexp c b := by
  rw [bexp, bexp, Int.mul_emod, h, ← Int.mul_emod]

theorem bexp_index_lt (c : Cfg) (a : Int) : (((c.rsGap : Int) * a) % 255).toNat < 255 := by omega

theorem bexp_ne_zero (c : Cfg) (a : Int) : bexp c a ≠ 0#8 := gexp_ne_zero (bexp_index_lt c a)

theorem bexp_zero (c : Cfg) : bexp c 0 = 1#8 := by
  rw [bexp, Int.mul_zero]
  exact gexp_zero

/-- Exponents add (R126). -/
theorem gmul_bexp_bexp (c : Cfg) (a b : Int) : gmul (bexp c a) (bexp c b) = bexp c (a + b) := by
  have hsum := gmul_gexp_gexp (((c.rsGap : Int) * a) % 255).toNat (((c.rsGap : Int) * b) % 255).toNat
  rw [Nat.mod_eq_of_lt (bexp_index_lt c a), Nat.mod_eq_of_lt (bexp_index_lt c b)] at hsum
  rw [bexp, bexp, bexp, hsum, Int.mul_add]
  congr 1
  omega

theorem gmul_bexp_neg (c : Cfg) (a : Int) : gmul (bexp c a) (bexp c (-a)) = 1#8 := by
  rw [gmul_bexp_bexp, Int.add_right_neg, bexp_zero]

theorem ginv_bexp (c : Cfg) (a : Int) : ginv (bexp c a) = bexp c (-a) := by
  rw [← gmul_one (ginv (bexp c a)), ← gmul_bexp_neg c a, ← gmul_assoc, ginv_gmul (bexp_ne_zero c a), one_gmul]

theorem gmulPow_bexp (c : Cfg) (a : Int) (n : Nat) : gmulPow (bexp c a) n = bexp c (n * a) := by
  induction n with
  | zero => rw [gmulPow, Nat.cast_zero, Int.zero_mul, bexp_zero]
  | succ n ih => rw [gmulPow, ih, gmul_bexp_bexp, Nat.cast_succ, Int.add_mul, Int.one_mul]

/-- `gpow` of R125 is repeated multiplication. -/
theorem gpow_eq_gmulPow {v : Byte} (hv : v ≠ 0#8) (n : Nat) : gpow v n = gmulPow v n := by
  obtain ⟨hlt, hexp⟩ := glog_spec hv
  have hpow : ∀ n, gexp ((glog v * n) % 255) = gmulPow v n := by
    intro n
    induction n with
    | zero => rw [Nat.mul_zero, Nat.zero_mod, gexp_zero, gmulPow]
    | succ n ih =>
      have hlog : v = gexp (glog v % 255) := by rw [Nat.mod_eq_of_lt hlt, hexp]
      rw [gmulPow, ← ih, Nat.mul_succ, ← gmul_gexp_gexp, ← hlog]
  rw [gpow]
  split
  · next hzero => rw [hzero, gmulPow]
  · exact hpow n

/-- Only multiples of 255 give 1: `RS_GAP` is coprime to 255 (R296). -/
theorem bexp_eq_one_iff (c : Config) (a : Int) : bexp c.toCfg a = 1#8 ↔ (255 : Int) ∣ a := by
  obtain ⟨_, _, hcoprime⟩ := c.rsGap_bounds
  have hgcd : Int.gcd 255 (c.rsGap : Int) = 1 := by
    rw [Int.gcd_comm]
    exact hcoprime
  constructor
  · intro h
    rw [bexp, ← gexp_zero, gexp_inj (bexp_index_lt c.toCfg a) (by decide)] at h
    exact Int.dvd_of_dvd_mul_right_of_gcd_one (Int.dvd_of_emod_eq_zero (by omega)) hgcd
  · intro h
    rw [bexp_congr c.toCfg (b := 0) (by omega), bexp_zero]

/-! ## R224 on a geometric sequence -/

/-- `LAM` with one coefficient: `1 + a x`. -/
def locator (a : Byte) : List Byte := 1#8 :: a :: List.replicate 31 0#8

theorem getD_zeros (n k : Nat) : (List.replicate n 0#8).getD k 0#8 = 0#8 := by
  rw [List.getD_eq_getElem?_getD, List.getElem?_getD_replicate_default_eq]

theorem bmUpdate_locator (a coef : Byte) : bmUpdate (locator a) bmStart.lam coef 1 = locator (a ^^^ coef) := by
  refine List.ext_getElem (by simp [bmUpdate, locator]) fun k hk _ => ?_
  match k with
  | 0 => simp [bmUpdate, locator]
  | 1 => simp [bmUpdate, locator, bmStart]
  | k + 2 =>
    have hone : 1 ≤ k + 2 := Nat.succ_pos _
    have hprev : bmStart.lam.getD (k + 2 - 1) 0#8 = 0#8 := getD_zeros 32 k
    have hrest : ∀ b, (locator b).getD (k + 2) 0#8 = 0#8 := fun b => getD_zeros 31 k
    simp only [bmUpdate, List.getElem_map, List.getElem_range, if_pos hone, hprev, gmul_zero, hrest,
      BitVec.xor_zero]
    exact (List.getElem_replicate _).symm

/-- The syndromes of one error: value `s` at index 0, then each `x` times the one before. -/
def Geometric (syn : List Byte) (s x : Byte) : Prop := ∀ n, n < 32 → syn.getD n 0#8 = gmul s (gmulPow x n)

namespace Geometric

variable {syn : List Byte} {s x : Byte} (h : Geometric syn s x)

include h

theorem head : syn.getD 0 0#8 = s := by rw [h 0 (by decide), gmulPow, gmul_one]

theorem succ {n : Nat} (hn : n + 1 < 32) : syn.getD (n + 1) 0#8 = gmul (syn.getD n 0#8) x := by
  rw [h (n + 1) hn, h n (by omega), gmulPow, gmul_assoc]

/-- The discrepancy with a locator of one coefficient. -/
theorem discrepancy_locator {b : BmState} {a : Byte} (hlam : b.lam = locator a) (hlen : b.len = 1) {n : Nat}
    (hn : n + 1 < 32) : bmDiscrepancy syn b (n + 1) = gmul (x ^^^ a) (syn.getD n 0#8) := by
  have hsum : gsum ((List.range b.len).map fun i =>
      gmul (b.lam.getD (i + 1) 0#8) (syn.getD (n + 1 - (i + 1)) 0#8)) = gmul a (syn.getD n 0#8) := by
    rw [hlen, hlam]
    exact BitVec.zero_xor
  rw [bmDiscrepancy, hsum, h.succ hn, gmul_comm _ x, gmul_xor_left]

/-- Step 0 takes the first syndrome for the ratio. -/
theorem bmStep_zero (hs : s ≠ 0#8) :
    bmStep syn bmStart 0 = { lam := locator s, prev := bmStart.lam, len := 1, shift := 1, disc := s } := by
  have hdisc : bmDiscrepancy syn bmStart 0 = s := by
    rw [bmDiscrepancy, h.head]
    exact BitVec.xor_zero
  have hone : ginv 1#8 = 1#8 := by rw [← one_gmul (ginv 1#8), gmul_ginv (by decide)]
  have hupdate : bmUpdate bmStart.lam bmStart.prev (gmul s (ginv bmStart.disc)) bmStart.shift = locator s := by
    have hlocator := bmUpdate_locator 0#8 s
    rw [BitVec.zero_xor] at hlocator
    rw [show bmStart.disc = 1#8 from rfl, hone, gmul_one]
    exact hlocator
  rw [bmStep, hdisc, if_neg hs, hupdate]
  rfl

/-- Step 1 corrects it. -/
theorem bmStep_one (hs : s ≠ 0#8) :
    ∃ b, bmStep syn (bmStep syn bmStart 0) 1 = b ∧ b.lam = locator x ∧ b.len = 1 := by
  refine ⟨_, rfl, ?_⟩
  rw [h.bmStep_zero hs, bmStep, h.discrepancy_locator rfl rfl (by decide), h.head]
  split
  · next hzero =>
    obtain hx | hs' := (gmul_eq_zero_iff _ _).1 hzero
    · rw [BitVec.xor_eq_zero_iff.1 hx]
      exact ⟨rfl, rfl⟩
    · exact absurd hs' hs
  · have hcoef : gmul (gmul (x ^^^ s) s) (ginv s) = x ^^^ s := by rw [gmul_assoc, gmul_ginv hs, gmul_one]
    have hsum : s ^^^ (x ^^^ s) = x := by rw [BitVec.xor_comm x, ← BitVec.xor_assoc, BitVec.xor_self, BitVec.zero_xor]
    exact ⟨by simp only [hcoef, bmUpdate_locator, hsum]; rfl, rfl⟩

/-- With the right locator nothing changes any more. -/
theorem bmStep_settled {b : BmState} (hlam : b.lam = locator x) (hlen : b.len = 1) {n : Nat} (hn : n + 1 < 32) :
    bmStep syn b (n + 1) = { b with shift := b.shift + 1 } := by
  rw [bmStep, h.discrepancy_locator hlam hlen hn, BitVec.xor_self, zero_gmul, if_pos rfl]

theorem foldl_settled (ns : List Nat) (hns : ∀ n ∈ ns, n + 1 < 32) {b : BmState} (hlam : b.lam = locator x)
    (hlen : b.len = 1) :
    ((ns.map (· + 1)).foldl (bmStep syn) b).lam = locator x ∧ ((ns.map (· + 1)).foldl (bmStep syn) b).len = 1 := by
  induction ns generalizing b with
  | nil => exact ⟨hlam, hlen⟩
  | cons n ns ih =>
    rw [List.map_cons, List.foldl_cons, h.bmStep_settled hlam hlen (hns n List.mem_cons_self)]
    exact ih (fun m hm => hns m (List.mem_cons_of_mem n hm)) hlam hlen

theorem berlekampMassey_eq (hs : s ≠ 0#8) :
    (berlekampMassey syn).lam = locator x ∧ (berlekampMassey syn).len = 1 := by
  obtain ⟨b, hb, hlam, hlen⟩ := h.bmStep_one hs
  have hrange : List.range 32 = 0 :: 1 :: (List.range' 1 30).map (· + 1) := by decide
  rw [berlekampMassey, hrange, List.foldl_cons, List.foldl_cons, hb]
  exact h.foldl_settled _ (fun n hn => by rw [List.mem_range'_1] at hn; omega) hlam hlen

/-- The evaluator of R227 is the first syndrome alone. -/
theorem evaluator_eq : evaluator syn (locator x) 1 = s :: List.replicate 31 0#8 := by
  refine List.ext_getElem (by simp [evaluator]) fun i hi _ => ?_
  simp only [evaluator, List.length_map, List.length_range] at hi
  simp only [evaluator, List.getElem_map, List.getElem_range]
  cases i with
  | zero =>
    rw [List.getElem_cons_zero, ← h.head]
    exact BitVec.zero_xor.trans (gmul_one _)
  | succ i =>
    have hsum : gsum ((List.range (min (i + 1) 1 + 1)).map fun j =>
        gmul (syn.getD (i + 1 - j) 0#8) ((locator x).getD j 0#8)) =
        gmul (syn.getD (i + 1) 0#8) 1#8 ^^^ gmul (syn.getD i 0#8) x := by
      rw [Nat.min_eq_right (Nat.succ_pos i)]
      exact congrArg (· ^^^ _) BitVec.zero_xor
    rw [hsum, gmul_one, h.succ hi, BitVec.xor_self, List.getElem_cons_succ, List.getElem_replicate]

end Geometric

/-! ## The degree of a locator -/

theorem polyDegree_concat (p : List Byte) (a : Byte) :
    polyDegree (p ++ [a]) = if a ≠ 0#8 then p.length else polyDegree p := by
  have hbefore : (List.range p.length).foldl
      (fun d i => if (p ++ [a]).getD i 0#8 ≠ 0#8 then i else d) 0 = polyDegree p := by
    refine List.foldl_ext _ _ _ fun d i hi => ?_
    rw [List.getD_append _ _ _ _ (List.mem_range.1 hi)]
  rw [polyDegree, List.length_append, List.length_singleton, List.range_succ, List.foldl_append, hbefore,
    List.foldl_cons, List.foldl_nil, List.getD_append_right _ _ _ _ le_rfl, Nat.sub_self, List.getD_cons_zero]

theorem polyDegree_append_zeros (p : List Byte) (n : Nat) : polyDegree (p ++ List.replicate n 0#8) = polyDegree p := by
  induction n with
  | zero => rw [List.replicate_zero, List.append_nil]
  | succ n ih => rw [List.replicate_succ', ← List.append_assoc, polyDegree_concat, if_neg (not_not.2 rfl), ih]

theorem polyDegree_locator {x : Byte} (hx : x ≠ 0#8) : polyDegree (locator x) = 1 :=
  (polyDegree_append_zeros ([1#8] ++ [x]) 31).trans ((polyDegree_concat [1#8] x).trans (if_pos hx))

/-! ## The position and the value -/

/-- The Chien search finds the one position whose power the locator is. -/
theorem chienSearch_locator (c : Config) {p : Nat} (hp : p < 255) :
    chienSearch c.toCfg (locator (bexp c.toCfg p)) 1 = [p] := by
  have hroot : ∀ q ∈ List.range 255,
      (pevalLo ((locator (bexp c.toCfg p)).take (1 + 1)) (bexp c.toCfg (-(q : Int))) == 0#8) = (q == p) := by
    intro q hq
    have hq := List.mem_range.1 hq
    have hval : pevalLo ((locator (bexp c.toCfg p)).take (1 + 1)) (bexp c.toCfg (-(q : Int))) =
        bexp c.toCfg ((p : Int) - q) ^^^ 1#8 := by
      have htake : (locator (bexp c.toCfg p)).take (1 + 1) = [1#8, bexp c.toCfg p] := rfl
      rw [htake, pevalLo_cons, pevalLo_cons, show pevalLo [] (bexp c.toCfg (-(q : Int))) = 0#8 from rfl, zero_gmul,
        BitVec.zero_xor, gmul_bexp_bexp]
      rfl
    rw [hval, Bool.eq_iff_iff, beq_iff_eq, beq_iff_eq, BitVec.xor_eq_zero_iff, bexp_eq_one_iff]
    omega
  rw [chienSearch, List.filter_congr hroot, List.filter_beq, List.count_eq_one_of_mem List.nodup_range
    (List.mem_range.2 hp)]
  rfl

theorem forneyDen_locator (c : Cfg) (x : Byte) (p : Nat) : forneyDen c (locator x) 1 p = x := by
  have hodd : (List.range (1 + 1)).filter (fun i => i % 2 == 1) = [1] := by decide
  rw [forneyDen, hodd]
  exact BitVec.zero_xor.trans (gmul_one x)

/-- Forney's value at the position `p` of an error `e` (R227). -/
theorem forneyVal_locator (c : Cfg) (e : Byte) (p : Nat) :
    forneyVal c (gmul e (bexp c (c.rsFcr * p)) :: List.replicate 31 0#8) p (bexp c p) = e := by
  have hzeros : ∀ n x, pevalLo (List.replicate n 0#8) x = 0#8 := by
    intro n x
    induction n with
    | zero => rfl
    | succ n ih => rw [List.replicate_succ, pevalLo_cons, ih, zero_gmul, BitVec.xor_zero]
  have hexp : bexp c ((((1 - (c.rsFcr : Int)) % 255).toNat : Int) * p) = bexp c ((1 - c.rsFcr) * p) := by
    refine bexp_congr c ?_
    rw [Int.toNat_of_nonneg (Int.emod_nonneg _ (by decide)), Int.mul_emod, Int.emod_emod_of_dvd _ dvd_rfl,
      ← Int.mul_emod]
  rw [forneyVal, pevalLo_cons, hzeros, zero_gmul, BitVec.zero_xor, gpow_eq_gmulPow (bexp_ne_zero c p), gmulPow_bexp,
    hexp, ginv_bexp, gmul_assoc e, gmul_left_comm, gmul_bexp_bexp, gmul_bexp_bexp,
    show (1 - (c.rsFcr : Int)) * p + (c.rsFcr * p + -(p : Int)) = 0 by ring, bexp_zero, gmul_one]

/-! ## The changed word -/

/-- What changing one byte does to a word's value. -/
theorem pevalHi_set (l : List Byte) {j : Nat} (hj : j < l.length) (e x : Byte) :
    pevalHi (l.set j (l.getD j 0#8 ^^^ e)) x = pevalHi l x ^^^ gmul e (gmulPow x (l.length - 1 - j)) := by
  induction l generalizing j with
  | nil => exact absurd hj (Nat.not_lt_zero j)
  | cons a l ih =>
    cases j with
    | zero =>
      rw [List.set_cons_zero, List.getD_cons_zero, pevalHi_cons, pevalHi_cons, gmul_xor_left, List.length_cons,
        Nat.add_sub_cancel, Nat.sub_zero]
      ac_rfl
    | succ j =>
      rw [List.set_cons_succ, List.getD_cons_succ, pevalHi_cons, pevalHi_cons, ih (Nat.lt_of_succ_lt_succ hj),
        List.length_set, List.length_cons, show l.length + 1 - 1 - (j + 1) = l.length - 1 - j by omega,
        BitVec.xor_assoc]

/-- The syndromes of a codeword with one byte changed. -/
theorem geometric_of_one_error (c : Config) {word : List Byte} (hword : isCodeword c.toCfg word = true)
    (hlen : word.length = 255) {j : Nat} (hj : j < 255) (e : Byte) :
    Geometric (syndromes c.toCfg (word.set j (word.getD j 0#8 ^^^ e)))
      (gmul e (bexp c.toCfg (c.rsFcr * (254 - j : Nat)))) (bexp c.toCfg (254 - j : Nat)) := by
  intro n hn
  have hzero := (isCodeword_iff c.toCfg word).1 hword ⟨n, hn⟩
  rw [syndromes, List.getD_eq_getElem _ _ (by simpa using hn), List.getElem_map, List.getElem_range,
    pevalHi_set word (hlen ▸ hj), hzero, BitVec.zero_xor, hlen, gmulPow_bexp, gmulPow_bexp, gmul_assoc, gmul_bexp_bexp]
  congr 2
  push_cast
  ring

theorem modify_set_xor (l : List Byte) (j : Nat) (e : Byte) :
    (l.set j (l.getD j 0#8 ^^^ e)).modify j (· ^^^ e) = l := by
  induction l generalizing j with
  | nil => rw [List.set_nil, List.modify_nil]
  | cons a l ih =>
    cases j with
    | zero =>
      rw [List.set_cons_zero, List.getD_cons_zero, List.modify_zero_cons, BitVec.xor_assoc, BitVec.xor_self,
        BitVec.xor_zero]
    | succ j => rw [List.set_cons_succ, List.getD_cons_succ, List.modify_succ_cons, ih]

/-- One changed byte is found and changed back. -/
theorem rsCorrect_one_error (c : Config) {word : List Byte} (hword : isCodeword c.toCfg word = true)
    (hlen : word.length = 255) {j : Nat} (hj : j < 255) {e : Byte} (he : e ≠ 0#8) :
    rsCorrect c.toCfg (word.set j (word.getD j 0#8 ^^^ e)) = some word := by
  have hgeo := geometric_of_one_error c hword hlen hj e
  have hfirst : gmul e (bexp c.toCfg (c.rsFcr * (254 - j : Nat))) ≠ 0#8 := fun h =>
    ((gmul_eq_zero_iff _ _).1 h).elim he (bexp_ne_zero _ _)
  obtain ⟨hlam, hone⟩ := hgeo.berlekampMassey_eq hfirst
  have hdeg := polyDegree_locator (bexp_ne_zero c.toCfg (254 - j : Nat))
  have hcorrect : forneyCorrect c.toCfg (locator (bexp c.toCfg (254 - j : Nat)))
      (evaluator (syndromes c.toCfg (word.set j (word.getD j 0#8 ^^^ e)))
        (locator (bexp c.toCfg (254 - j : Nat))) 1) 1 (word.set j (word.getD j 0#8 ^^^ e)) (254 - j) = some word := by
    rw [forneyCorrect, forneyDen_locator, hgeo.evaluator_eq, if_neg (bexp_ne_zero _ _), forneyVal_locator,
      show 254 - (254 - j) = j by omega, modify_set_xor]
  rw [rsCorrect, hlam, hone, hdeg, if_neg (by decide), chienSearch_locator c (by omega), if_neg (by simp)]
  simp only [forneyAll, hcorrect, hword, if_true]

theorem isCodeword_of_one_error (c : Config) {word : List Byte} (hword : isCodeword c.toCfg word = true)
    (hlen : word.length = 255) {j : Nat} (hj : j < 255) {e : Byte} (he : e ≠ 0#8) :
    isCodeword c.toCfg (word.set j (word.getD j 0#8 ^^^ e)) = false := by
  rw [Bool.eq_false_iff]
  intro hzero
  have hvalue := (isCodeword_iff c.toCfg _).1 hzero 0
  have hword0 := (isCodeword_iff c.toCfg word).1 hword 0
  rw [pevalHi_set word (hlen ▸ hj), hword0, BitVec.zero_xor, gmulPow_bexp, gmul_eq_zero_iff] at hvalue
  exact hvalue.elim he (bexp_ne_zero _ _)

theorem rsDecode_one_error (c : Config) {word : List Byte} (hword : isCodeword c.toCfg word = true)
    (hlen : word.length = 255) {j : Nat} (hj : j < 255) (e : Byte) :
    rsDecode c.toCfg (word.set j (word.getD j 0#8 ^^^ e)) = (.ok, word.take 223) := by
  by_cases he : e = 0#8
  · rw [he, BitVec.xor_zero, List.getD_eq_getElem _ _ (hlen ▸ hj), List.set_getElem_self, rsDecode, if_pos hword]
  · rw [rsDecode, isCodeword_of_one_error c hword hlen hj he]
    simp only [rsCorrect_one_error c hword hlen hj he, Bool.false_eq_true, if_false]

end Sys2Proof.Machine

open Sys2Proof Sys2Proof.Machine in
/-- Settles O35. -/
theorem oneByteErrorIsCorrected : Obligations.OneByteErrorIsCorrected := by
  intro c d j e hd word
  have hlen : word.length = 255 := by rw [List.length_append, hd, length_rsParity]
  rw [rsDecode_one_error c (isCodeword_encoded c.toCfg d) hlen j.isLt e, List.take_left' hd]
end

