-- ==== Sys2Proof/Proofs/StageRuns.lean ====
section
/-! Lines of one stage (R64, R112): while the stage stays enabled, each line is one firing, and nothing but the stage's
path and the control port changes. -/

namespace Sys2Proof.Machine

/-- The state with other lines on its control port. -/
def State.withLines (s : State) (lines : List Slot) : State := { s with ports := { s.ports with ctl := lines } }

@[simp] theorem State.withLines_tx (s : State) (l : List Slot) : (s.withLines l).tx = s.tx := rfl

@[simp] theorem State.withLines_rx (s : State) (l : List Slot) : (s.withLines l).rx = s.rx := rfl

@[simp] theorem State.withLines_cfg (s : State) (l : List Slot) : (s.withLines l).cfg = s.cfg := rfl

@[simp] theorem State.withLines_ctrl (s : State) (l : List Slot) : (s.withLines l).ctrl = s.ctrl := rfl

@[simp] theorem State.withLines_ctl (s : State) (l : List Slot) : (s.withLines l).ports.ctl = l := rfl

theorem withLines_self {s : State} {l : List Slot} (h : s.ports.ctl = l) : s.withLines l = s := by
  subst h
  rfl

theorem advance_withLines_cons (s : State) (x : Slot) (l : List Slot) :
    (s.withLines (x :: l)).advance = s.withLines l := rfl

/-- No stage looks at the ports. -/
theorem withLines_enabled (s : State) (l : List Slot) {i : Instr} (hi : i ∈ stageOps) :
    (s.withLines l).enabled i = s.enabled i := by
  simp only [stageOps, List.mem_cons, List.not_mem_nil, or_false] at hi
  obtain rfl | rfl | rfl | rfl | rfl | rfl | rfl | rfl := hi <;> rfl

/-- One line of a transmit stage. -/
theorem step_txStage (s : State) {i : Instr} (hi : i ∈ txStages) (t : TxPath) (rest : List Slot)
    (hen : (s.setTx t).enabled i = true) :
    step ((s.setTx t).withLines ({ word := encode i } :: rest)) =
      .next ((s.setTx (txFire s.cfg.toCfg i t)).withLines rest) := by
  have hstage : i ∈ stageOps := by
    revert hi
    cases i <;> decide
  have hdecode : decode ((s.setTx t).withLines ({ word := encode i } :: rest)).presented = .op i := decode_encode i
  rw [step_of_decode hdecode, exec_of_enabled ((withLines_enabled _ _ hstage).trans hen), done_of_txStage _ hi]
  rfl

/-- One line of a receive stage. -/
theorem step_rxStage (s : State) {i : Instr} (hi : i ∈ rxStages) (r : RxPath) (rest : List Slot)
    (hen : (s.setRx r).enabled i = true) :
    step ((s.setRx r).withLines ({ word := encode i } :: rest)) =
      .next ((s.setRx (rxFire s.cfg.toCfg i r)).withLines rest) := by
  have hstage : i ∈ stageOps := by
    revert hi
    cases i <;> decide
  have hdecode : decode ((s.setRx r).withLines ({ word := encode i } :: rest)).presented = .op i := decode_encode i
  rw [step_of_decode hdecode, exec_of_enabled ((withLines_enabled _ _ hstage).trans hen), done_of_rxStage _ hi]
  rfl

theorem repeatWord_succ_append (w : Byte) (n : Nat) (rest : List Slot) :
    repeatWord w (n + 1) ++ rest = repeatWord w n ++ ({ word := w } :: rest) := by
  rw [repeatWord, List.replicate_succ', List.append_assoc]
  rfl

/-- Lines of a transmit stage: what the firings keep, while they are enabled, holds after the last. -/
theorem txRun {s : State} {i : Instr} (hi : i ∈ txStages) (P : Nat → TxPath → Prop) {n : Nat} {rest : List Slot}
    (hctl : s.ports.ctl = repeatWord (encode i) n ++ rest) (hstart : P 0 s.tx)
    (hstep : ∀ k t, k < n → P k t →
      (s.setTx t).enabled i = true ∧ P (k + 1) (txFire s.cfg.toCfg i t)) :
    ∃ t, P n t ∧ stepRun n s = .next ((s.setTx t).withLines rest) := by
  induction n generalizing rest with
  | zero => exact ⟨s.tx, hstart, by rw [stepRun_zero, ← withLines_self hctl]; rfl⟩
  | succ n ih =>
    obtain ⟨t, hP, hrun⟩ := ih (hctl.trans (repeatWord_succ_append _ n rest))
      fun k t hk => hstep k t (Nat.lt_succ_of_lt hk)
    obtain ⟨hen, hnext⟩ := hstep n t (Nat.lt_succ_self n) hP
    exact ⟨_, hnext, by rw [stepRun_add hrun, stepRun_succ (step_txStage s hi t rest hen), stepRun_zero]⟩

/-- The same for a receive stage. -/
theorem rxRun {s : State} {i : Instr} (hi : i ∈ rxStages) (P : Nat → RxPath → Prop) {n : Nat} {rest : List Slot}
    (hctl : s.ports.ctl = repeatWord (encode i) n ++ rest) (hstart : P 0 s.rx)
    (hstep : ∀ k r, k < n → P k r →
      (s.setRx r).enabled i = true ∧ P (k + 1) (rxFire s.cfg.toCfg i r)) :
    ∃ r, P n r ∧ stepRun n s = .next ((s.setRx r).withLines rest) := by
  induction n generalizing rest with
  | zero => exact ⟨s.rx, hstart, by rw [stepRun_zero, ← withLines_self hctl]; rfl⟩
  | succ n ih =>
    obtain ⟨r, hP, hrun⟩ := ih (hctl.trans (repeatWord_succ_append _ n rest))
      fun k r hk => hstep k r (Nat.lt_succ_of_lt hk)
    obtain ⟨hen, hnext⟩ := hstep n r (Nat.lt_succ_self n) hP
    exact ⟨_, hnext, by rw [stepRun_add hrun, stepRun_succ (step_rxStage s hi r rest hen), stepRun_zero]⟩

/-- A stream from its entry `k` on. -/
theorem drop_append_eq_cons {α : Type} {xs more : List α} {k : Nat} (h : k < xs.length) :
    xs.drop k ++ more = xs[k] :: (xs.drop (k + 1) ++ more) := by
  rw [List.drop_eq_getElem_cons h, List.cons_append]

end Sys2Proof.Machine
end

