-- ==== Sys2Proof/Proofs/FilterRuns.lean ====
section
/-! R173, R176, their second forms: the history is a delay line of what the filter took, so its sums are those of the
convolution; RRCI's leaves out the terms that stuffed zeros would give. -/

namespace Sys2Proof.Machine

/-! ## Delay lines -/

/-- `hist` holds the last `n` values before entry `k` of `xs`, newest first, and 0 from before the first. -/
def DelayLine (xs : List Soft) (k n : Nat) (hist : List Soft) : Prop :=
  ∀ m, m < n → hist.getD m 0 = if m < k then xs.getD (k - 1 - m) 0 else 0

theorem DelayLine.zeros (xs : List Soft) (n : Nat) : DelayLine xs 0 n (List.replicate n 0) := by
  intro m _
  rw [if_neg (Nat.not_lt_zero m), List.getD_eq_getElem?_getD, List.getElem?_getD_replicate_default_eq]

/-- The next values come in front. -/
theorem DelayLine.push {xs hist ys : List Soft} {k n : Nat} (h : DelayLine xs k n hist)
    (hys : ∀ i, i < ys.length → ys.getD i 0 = xs.getD (k + i) 0) :
    DelayLine xs (k + ys.length) (n + ys.length) (ys.reverse ++ hist) := by
  intro m hm
  by_cases hnew : m < ys.length
  · rw [List.getD_append _ _ _ _ (by simpa using hnew), List.getD_reverse _ hnew, hys _ (by omega), if_pos (by omega)]
    congr 1
    omega
  · rw [List.getD_append_right _ _ _ _ (by simpa using hnew), List.length_reverse, h _ (by omega)]
    by_cases hold : m - ys.length < k
    · rw [if_pos hold, if_pos (by omega)]
      congr 1
      omega
    · rw [if_neg hold, if_neg (by omega)]

theorem DelayLine.take {xs hist : List Soft} {k n n' : Nat} (h : DelayLine xs k n hist) (hle : n' ≤ n) :
    DelayLine xs k n' (hist.take n') := by
  intro m hm
  rw [← h m (by omega), List.getD_eq_getElem?_getD, List.getElem?_take_of_lt hm, List.getD_eq_getElem?_getD]

/-! ## The convolution with the zero-stuffed symbols -/

/-- Output `n` of the convolution of R173. -/
def convolved (c : Cfg) (as : List Soft) (n : Nat) : Soft :=
  ∑ j ∈ Finset.range c.rrcNt, c.tap j * (if j ≤ n then zeroStuffed c as (n - j) else 0)

theorem sum_range_mul (f : Nat → Soft) (n l : Nat) :
    ∑ j ∈ Finset.range (n * l), f j = ∑ m ∈ Finset.range n, ∑ q ∈ Finset.range l, f (m * l + q) := by
  induction n with
  | zero => rw [Nat.zero_mul, Finset.sum_range_zero, Finset.sum_range_zero]
  | succ n ih => rw [Nat.succ_mul, Finset.sum_range_add, ih, Finset.sum_range_succ]

/-- A tap of another phase meets a stuffed zero. -/
theorem zeroStuffed_of_ne (c : Cfg) (as : List Soft) {k m p q : Nat} (hp : p < c.rrcSps) (hq : q < c.rrcSps)
    (hne : q ≠ p) (hle : m * c.rrcSps + q ≤ k * c.rrcSps + p) :
    zeroStuffed c as (k * c.rrcSps + p - (m * c.rrcSps + q)) = 0 := by
  rw [zeroStuffed, if_neg]
  intro hdvd
  have hmod := (Nat.modEq_iff_dvd' hle).2 (Nat.dvd_of_mod_eq_zero hdvd)
  rw [Nat.ModEq, Nat.mul_add_mod_self_right, Nat.mul_add_mod_self_right, Nat.mod_eq_of_lt hp,
    Nat.mod_eq_of_lt hq] at hmod
  exact hne hmod

/-- A tap of the same phase meets a symbol. -/
theorem zeroStuffed_of_phase (c : Config) (as : List Soft) (k m p : Nat) :
    zeroStuffed c.toCfg as (k * c.rrcSps + p - (m * c.rrcSps + p)) = as.getD (k - m) 0 := by
  have hdiff : k * c.rrcSps + p - (m * c.rrcSps + p) = (k - m) * c.rrcSps := by
    rw [Nat.add_sub_add_right, Nat.sub_mul]
  rw [hdiff, zeroStuffed, if_pos (Nat.mul_mod_left _ _), Nat.mul_div_cancel _ c.rrcSps_pos]

/-- The convolution has one term for each tap of the output's phase: the polyphase sum. -/
theorem convolved_eq_polyphase (c : Config) (as : List Soft) (k : Nat) {p : Nat} (hp : p < c.rrcSps) :
    convolved c.toCfg as (k * c.rrcSps + p) =
      ∑ m ∈ Finset.range (c.rrcH + 1), c.tap (m * c.rrcSps + p) * (if m < k + 1 then as.getD (k - m) 0 else 0) := by
  have hcover : c.rrcNt ≤ (c.rrcH + 1) * c.rrcSps := by
    have hdiv := Nat.lt_mul_div_succ (c.rrcNt - 1) c.rrcSps_pos
    rw [Nat.mul_comm] at hdiv
    show c.rrcNt ≤ ((c.rrcNt - 1) / c.rrcSps + 1) * c.rrcSps
    omega
  rw [convolved, Finset.sum_subset (Finset.range_mono hcover) fun j _ hj => by
    rw [c.tap_of_ge (not_lt.1 fun h => hj (Finset.mem_range.2 h)), zero_mul], sum_range_mul]
  refine Finset.sum_congr rfl fun m _ => ?_
  rw [Finset.sum_eq_single_of_mem p (Finset.mem_range.2 hp) fun q hq hne => ?_]
  · by_cases hle : m ≤ k
    · rw [if_pos (Nat.add_le_add_right (Nat.mul_le_mul_right _ hle) p), zeroStuffed_of_phase c as k m p,
        if_pos (Nat.lt_succ_of_le hle)]
    · have hlt : k * c.rrcSps < m * c.rrcSps := Nat.mul_lt_mul_of_pos_right (not_le.1 hle) c.rrcSps_pos
      rw [if_neg (by omega), if_neg (by omega)]
  · split
    · next hle => rw [zeroStuffed_of_ne c.toCfg as hp (Finset.mem_range.1 hq) hne hle, mul_zero]
    · exact mul_zero _

/-- A firing of RRCI on a delay line of the symbols. -/
theorem interpolate_of_delayLine (c : Config) {as hist : List Soft} {k : Nat} (hist_ok : DelayLine as k c.rrcH hist)
    (hk : k < as.length) {p : Nat} (hp : p < c.rrcSps) :
    interpolate c.toCfg hist as[k] p = convolved c.toCfg as (k * c.rrcSps + p) := by
  have hline : DelayLine as (k + 1) (c.rrcH + 1) (as[k] :: hist) :=
    hist_ok.push (ys := [as[k]]) fun i hi => by
      rw [Nat.lt_one_iff.1 hi, Nat.add_zero, List.getD_eq_getElem _ _ hk]
      rfl
  rw [interpolate_eq_sum, convolved_eq_polyphase c as k hp]
  refine Finset.sum_congr rfl fun m hm => ?_
  rw [hline m (Finset.mem_range.1 hm), Nat.add_sub_cancel]

/-! ## Runs -/

/-- The transmit path after `k` firings of RRCI on the bits `bs`. -/
structure Shaped (c : Cfg) (before : TxPath) (bs more : List Bit) (k : Nat) (t : TxPath) : Prop where
  qBits : t.qBits = bs.drop k ++ more
  riHist : DelayLine (bs.map sym) k c.rrcH t.riHist
  qTxout : t.qTxout = before.qTxout ++
    (List.range (k * c.rrcSps)).map fun n => ⟨convolved c (bs.map sym) n, 0⟩

theorem Shaped.rrci {c : Config} {before t : TxPath} {bs more : List Bit} {k : Nat}
    (h : Shaped c.toCfg before bs more k t) (hk : k < bs.length) :
    Shaped c.toCfg before bs more (k + 1) (rrciFire c.toCfg t) := by
  obtain ⟨hbits, hhist, hout⟩ := h
  have hkSym : k < (bs.map sym).length := by simpa using hk
  have hsym : sym bs[k] = (bs.map sym)[k] := (List.getElem_map _).symm
  rw [rrciFire_of_cons c.toCfg (hbits.trans (drop_append_eq_cons hk))]
  refine ⟨rfl, ?_, ?_⟩
  · have hpush := hhist.push (ys := [sym bs[k]]) fun i hi => by
      rw [Nat.lt_one_iff.1 hi, Nat.add_zero, List.getD_eq_getElem _ _ hkSym, ← hsym]
      rfl
    exact hpush.take (Nat.le_succ _)
  · rw [hout, List.append_assoc, Nat.succ_mul, List.range_add, List.map_append, List.map_map, interpolateAll]
    refine congrArg (_ ++ ·) (congrArg (_ ++ ·) (List.map_congr_left fun p hp => ?_))
    rw [hsym, interpolate_of_delayLine c hhist hkSym (List.mem_range.1 hp)]
    rfl

/-- The receive path after `k` firings of RRCD on the samples `zs`. -/
structure Filtered (c : Cfg) (before : RxPath) (zs more : List Sample) (k : Nat) (r : RxPath) : Prop where
  qRxin : r.qRxin = zs.drop (k * c.rrcSps) ++ more
  rdHist : DelayLine (zs.map Sample.re) (k * c.rrcSps) (c.rrcNt - 1) r.rdHist
  qSym : r.qSym = before.qSym ++ (List.range k).map fun k =>
    ∑ j ∈ Finset.range c.rrcNt, c.tap j *
      (if j ≤ k * c.rrcSps + c.rrcPhase then (zs.map Sample.re).getD (k * c.rrcSps + c.rrcPhase - j) 0 else 0)

/-- The real parts that a firing of RRCD takes. -/
theorem getD_map_re_take_drop (zs : List Sample) {k l i : Nat} (hi : i < l) :
    (((zs.drop k).take l).map Sample.re).getD i 0 = (zs.map Sample.re).getD (k + i) 0 := by
  simp only [List.getD_eq_getElem?_getD, List.getElem?_map, List.getElem?_take_of_lt hi, List.getElem?_drop]

theorem Filtered.rrcd {c : Config} {before r : RxPath} {zs more : List Sample} {k m : Nat}
    (h : Filtered c.toCfg before zs more k r) (hlen : zs.length = m * c.rrcSps) (hk : k < m) :
    Filtered c.toCfg before zs more (k + 1) (rrcdFire c.toCfg r) := by
  obtain ⟨hin, hhist, hsym⟩ := h
  have hroom : k * c.rrcSps + c.rrcSps ≤ zs.length := by
    rw [hlen, ← Nat.succ_mul]
    exact Nat.mul_le_mul_right _ hk
  have hphase : c.rrcPhase < c.rrcSps := by
    rw [c.rrcPhase_eq]
    exact Nat.mod_lt _ c.rrcSps_pos
  have hz : ((zs.drop (k * c.rrcSps)).take c.rrcSps).length = c.rrcSps := by
    rw [List.length_take, List.length_drop]
    omega
  have hsplit : r.qRxin =
      (zs.drop (k * c.rrcSps)).take c.rrcSps ++ (zs.drop ((k + 1) * c.rrcSps) ++ more) := by
    rw [hin, ← List.append_assoc, Nat.succ_mul, ← List.drop_drop, List.take_append_drop]
  rw [rrcdFire_of_append c.toCfg hsplit hz]
  refine ⟨rfl, ?_, ?_⟩
  · have hpush := hhist.push (ys := ((zs.drop (k * c.rrcSps)).take c.rrcSps).map Sample.re) fun i hi =>
      getD_map_re_take_drop zs (by rwa [List.length_map, hz] at hi)
    rw [List.length_map, hz, ← Nat.succ_mul] at hpush
    exact hpush.take (Nat.le_add_right _ _)
  · have hpush := hhist.push (ys := ((zs.drop (k * c.rrcSps)).take (c.rrcPhase + 1)).map Sample.re) fun i hi =>
      getD_map_re_take_drop zs (lt_of_lt_of_le hi (by simp))
    have hlenPhase : (((zs.drop (k * c.rrcSps)).take (c.rrcPhase + 1)).map Sample.re).length = c.rrcPhase + 1 := by
      rw [List.length_map, List.length_take, List.length_drop]
      omega
    rw [hlenPhase] at hpush
    have htake : ((zs.drop (k * c.rrcSps)).take c.rrcSps).take (c.rrcPhase + 1) =
        (zs.drop (k * c.rrcSps)).take (c.rrcPhase + 1) := by
      rw [List.take_take, Nat.min_eq_left hphase]
    rw [hsym, List.append_assoc, List.range_succ, List.map_append, List.map_singleton, decimate_eq_sum]
    refine congrArg (_ ++ ·) (congrArg (_ ++ [·]) (Finset.sum_congr rfl fun j hj => ?_))
    have hj := Finset.mem_range.1 hj
    rw [decimatorLine, htake, hpush j (by omega)]
    simp only [Nat.lt_succ_iff, ← Nat.add_assoc, Nat.add_sub_cancel]

theorem Shaped.rrciEnabled {s : State} {bs more : List Bit} {k : Nat} {t : TxPath}
    (h : Shaped s.cfg.toCfg s.tx bs more k t) (hen : s.txEn = true) (htap : s.txTap = false)
    (hroom : RoomFor s.cfg.qdepth.txout s.tx.qTxout.length (bs.length * s.cfg.rrcSps)) (hk : k < bs.length) :
    (s.setTx t).enabled .rrci = true := by
  have hlen : k * s.cfg.rrcSps + s.cfg.rrcSps ≤ bs.length * s.cfg.rrcSps := by
    rw [← Nat.succ_mul]
    exact Nat.mul_le_mul_right _ hk
  refine (s.setTx t).rrciEnabled_iff.2 ⟨hen, htap, ?_, hroom.mono ?_⟩
  · rw [State.setTx_tx, h.qBits, drop_append_eq_cons hk]
    exact Nat.succ_pos _
  · rw [State.setTx_tx, h.qTxout, List.length_append, List.length_map, List.length_range, State.setTx_cfg]
    omega

theorem Filtered.rrcdEnabled {s : State} {zs more : List Sample} {k m : Nat} {r : RxPath}
    (h : Filtered s.cfg.toCfg s.rx zs more k r) (hen : s.rxEn = true) (hsrc : s.rxSrc = false)
    (hlen : zs.length = m * s.cfg.rrcSps) (hroom : RoomFor s.cfg.qdepth.sym s.rx.qSym.length m) (hk : k < m) :
    (s.setRx r).enabled .rrcd = true := by
  have hle : k * s.cfg.rrcSps + s.cfg.rrcSps ≤ zs.length := by
    rw [hlen, ← Nat.succ_mul]
    exact Nat.mul_le_mul_right _ hk
  refine (s.setRx r).rrcdEnabled_iff.2 ⟨hen, hsrc, ?_, hroom.mono ?_⟩
  · rw [State.setRx_rx, h.qRxin, List.length_append, List.length_drop, State.setRx_cfg]
    omega
  · rw [State.setRx_rx, h.qSym, List.length_append, List.length_map, List.length_range]
    omega

end Sys2Proof.Machine

open Sys2Proof Sys2Proof.Machine in
/-- Settles O40. -/
theorem rrciRunIsTheConvolution : Obligations.RrciRunIsTheConvolution := by
  intro s bs more rest hen htap hhist hbits hroom hctl
  have hstart : Shaped s.cfg.toCfg s.tx bs more 0 s.tx :=
    ⟨hbits, hhist ▸ DelayLine.zeros _ _, by rw [Nat.zero_mul]; exact (List.append_nil _).symm⟩
  obtain ⟨t, ⟨hdone, _, hout⟩, hrun⟩ := txRun (i := .rrci) (by decide) (Shaped s.cfg.toCfg s.tx bs more) hctl hstart
    fun k t hk h => ⟨h.rrciEnabled hen htap hroom hk, h.rrci hk⟩
  rw [List.drop_length, List.nil_append] at hdone
  exact ⟨_, hrun, rfl, hdone, rfl, hout⟩

open Sys2Proof Sys2Proof.Machine in
/-- Settles O41. -/
theorem rrcdRunIsTheDecimatedConvolution : Obligations.RrcdRunIsTheDecimatedConvolution := by
  intro s zs more m rest hen hsrc hhist hin hlen hroom hctl
  have hstart : Filtered s.cfg.toCfg s.rx zs more 0 s.rx :=
    ⟨by rw [Nat.zero_mul]; exact hin, by rw [Nat.zero_mul, hhist]; exact DelayLine.zeros _ _,
      (List.append_nil _).symm⟩
  obtain ⟨r, ⟨hdone, _, hout⟩, hrun⟩ := rxRun (i := .rrcd) (by decide) (Filtered s.cfg.toCfg s.rx zs more) hctl hstart
    fun k r hk h => ⟨h.rrcdEnabled hen hsrc hlen hroom hk, h.rrcd hlen hk⟩
  rw [← hlen, List.drop_length, List.nil_append] at hdone
  exact ⟨_, hrun, rfl, hdone, rfl, hout⟩
end

