-- ==== Sys2Proof/Proofs/ReceiveRuns.lean ====
section
/-! R195 (a), R220: runs of DEFR from a lock and of RSDEC over the blocks of a frame, each path on the way written out. -/

namespace Sys2Proof.Machine

/-- Firings along a given sequence of receive paths. -/
theorem rxRun_along {s : State} {i : Instr} (hi : i ∈ rxStages) (path : Nat → RxPath) {n : Nat} {rest : List Slot}
    (hctl : s.ports.ctl = repeatWord (encode i) n ++ rest) (hstart : s.rx = path 0)
    (hstep : ∀ k, k < n → (s.setRx (path k)).enabled i = true ∧ rxFire s.cfg.toCfg i (path k) = path (k + 1)) :
    stepRun n s = .next ((s.setRx (path n)).withLines rest) := by
  obtain ⟨r, rfl, hrun⟩ := rxRun hi (fun k r => r = path k) hctl hstart fun k r hk h => h ▸ hstep k hk
  exact hrun

/-- Firings along a given sequence of transmit paths. -/
theorem txRun_along {s : State} {i : Instr} (hi : i ∈ txStages) (path : Nat → TxPath) {n : Nat} {rest : List Slot}
    (hctl : s.ports.ctl = repeatWord (encode i) n ++ rest) (hstart : s.tx = path 0)
    (hstep : ∀ k, k < n → (s.setTx (path k)).enabled i = true ∧ txFire s.cfg.toCfg i (path k) = path (k + 1)) :
    stepRun n s = .next ((s.setTx (path n)).withLines rest) := by
  obtain ⟨t, rfl, hrun⟩ := txRun hi (fun k t => t = path k) hctl hstart fun k t hk h => h ▸ hstep k hk
  exact hrun

/-! ## DEFR from a lock -/

/-- Payload symbol `i` with the signs of `DF_INV` and of its key bit removed (R189). -/
def repaired (c : Cfg) (inv : Bool) (xs : List Soft) (i : Nat) : Soft :=
  if inv = keyBit c i then xs.getD i 0 else -xs.getD i 0

/-- The receive path `k` payload symbols after the lock `before`. -/
def lockPath (c : Cfg) (before : RxPath) (xs more : List Soft) (k : Nat) : RxPath :=
  { before with
    qSym := xs.drop k ++ more
    qPay := before.qPay ++ (List.range k).map (repaired c before.dfInv xs)
    dfScr := scrIterate c k c.scrSeed
    dfState := if k = c.frameCodedBits then .hunt else .lock
    dfCnt := if k = c.frameCodedBits then 0 else k }

theorem lockPath_zero (c : Config) {before : RxPath} {xs more : List Soft} (lock : before.dfState = .lock)
    (hcnt : before.dfCnt = 0) (hscr : before.dfScr = c.scrSeed) (hq : before.qSym = xs ++ more) :
    before = lockPath c.toCfg before xs more 0 := by
  have hne : ¬0 = c.frameCodedBits := (lt_of_lt_of_le (by decide) (Config.frameCodedBits_pos c)).ne
  rw [lockPath, if_neg hne, if_neg hne, List.range_zero, List.map_nil, List.append_nil, List.drop_zero,
    scrIterate_zero, ← lock, ← hcnt, ← hscr, ← hq]

theorem defrFire_lockPath (c : Cfg) (before : RxPath) {xs more : List Soft} (hlen : xs.length = c.frameCodedBits)
    {k : Nat} (hk : k < c.frameCodedBits) :
    defrFire c (lockPath c before xs more k) = lockPath c before xs more (k + 1) := by
  have hx : k < xs.length := hlen ▸ hk
  have hlock : (lockPath c before xs more k).dfState = .lock := if_neg hk.ne
  have hcnt : (lockPath c before xs more k).dfCnt = k := if_neg hk.ne
  rw [defrFire_of_lock c hlock (drop_append_eq_cons hx), hcnt]
  simp only [lockPath, List.append_assoc, List.range_succ, List.map_append, List.map_singleton, countTo,
    scrIterate_succ_last, repaired, List.getD_eq_getElem _ _ hx]
  rfl

/-- R195 (a): from a lock `DEFR` passes on the whole frame. -/
theorem stepRun_lock {s : State} {xs more : List Soft} {rest : List Slot} (hen : s.rxEn = true)
    (lock : s.rx.dfState = .lock) (hcnt : s.rx.dfCnt = 0) (hscr : s.rx.dfScr = s.cfg.scrSeed)
    (hq : s.rx.qSym = xs ++ more) (hlen : xs.length = 4080 * s.cfg.nb)
    (hroom : RoomFor s.cfg.qdepth.pay s.rx.qPay.length (4080 * s.cfg.nb))
    (hctl : s.ports.ctl = repeatWord 0x60#8 (4080 * s.cfg.nb) ++ rest) :
    stepRun (4080 * s.cfg.nb) s =
      .next ((s.setRx (lockPath s.cfg.toCfg s.rx xs more s.cfg.frameCodedBits)).withLines rest) := by
  refine rxRun_along (i := .defr) (by decide) (lockPath s.cfg.toCfg s.rx xs more) hctl
    (lockPath_zero s.cfg lock hcnt hscr hq) fun k hk => ⟨?_, defrFire_lockPath s.cfg.toCfg s.rx hlen hk⟩
  refine (State.defrEnabled_iff _).2 ⟨hen, ?_, hroom.mono ?_⟩
  · simp only [State.setRx_rx, lockPath, List.length_append, List.length_drop]
    omega
  · simp only [State.setRx_rx, lockPath, List.length_append, List.length_map, List.length_range]
    omega

/-! ## RSDEC over a frame -/

/-- Whether R230 gives up a block. -/
def isUncorrectable (c : Cfg) (block : List Byte) : Bool := decide ((rsDecode c block).1 = .uncorrectable)

/-- The data of some blocks, decoded. -/
def decodedData (c : Cfg) (blocks : List (List Byte)) : List Byte := blocks.flatMap fun b => (rsDecode c b).2

/-- The frame result of some blocks (R220, R281). -/
def frameResult (c : Cfg) (blocks : List (List Byte)) : FrameResult :=
  ⟨frameStatus (blocks.any (isUncorrectable c)), decodedData c blocks⟩

/-- The receive path `k` blocks into a frame, and after its last block. -/
def blockPath (c : Cfg) (before : RxPath) (blocks : List (List Byte)) (more : List Byte) (k : Nat) : RxPath :=
  if k = c.nb then
    { before with
      qDec := more
      qRxout := before.qRxout ++ [frameResult c blocks]
      rsdBlk := 0
      rsdBad := false
      rsdBuf := [] }
  else
    { before with
      qDec := (blocks.drop k).flatten ++ more
      rsdBlk := k
      rsdBad := (blocks.take k).any (isUncorrectable c)
      rsdBuf := decodedData c (blocks.take k) }

theorem blockPath_zero (c : Config) {before : RxPath} {blocks : List (List Byte)} {more : List Byte}
    (hblk : before.rsdBlk = 0) (hbad : before.rsdBad = false) (hbuf : before.rsdBuf = [])
    (hq : before.qDec = blocks.flatten ++ more) : before = blockPath c.toCfg before blocks more 0 := by
  rw [blockPath, if_neg (Nat.lt_of_succ_le c.nb_pos).ne, List.drop_zero, ← hq, List.take_zero, List.any_nil, ← hblk,
    ← hbad]
  rw [show decodedData c.toCfg [] = before.rsdBuf from hbuf.symm]

theorem any_take_succ {α : Type} (p : α → Bool) {l : List α} {k : Nat} (h : k < l.length) :
    (l.take (k + 1)).any p = ((l.take k).any p || p l[k]) := by
  rw [← List.take_concat_get' l k h, List.any_append, List.any_cons, List.any_nil, Bool.or_false]

theorem decodedData_take_succ (c : Cfg) {blocks : List (List Byte)} {k : Nat} (h : k < blocks.length) :
    decodedData c (blocks.take (k + 1)) = decodedData c (blocks.take k) ++ (rsDecode c blocks[k]).2 := by
  rw [← List.take_concat_get' blocks k h, decodedData, List.flatMap_append, List.flatMap_singleton]
  rfl

theorem rsdecFire_blockPath (c : Cfg) (before : RxPath) {blocks : List (List Byte)} {more : List Byte}
    (hlen : blocks.length = c.nb) (hblocks : ∀ b ∈ blocks, b.length = 255) {k : Nat} (hk : k < c.nb) :
    rsdecFire c (blockPath c before blocks more k) = blockPath c before blocks more (k + 1) := by
  have hb : k < blocks.length := hlen ▸ hk
  have hq : (blockPath c before blocks more k).qDec = blocks[k] ++ ((blocks.drop (k + 1)).flatten ++ more) := by
    rw [blockPath, if_neg hk.ne, List.drop_eq_getElem_cons hb, List.flatten_cons, List.append_assoc]
  rw [rsdecFire_of_append c hq (hblocks _ (List.getElem_mem hb)), blockPath, if_neg hk.ne]
  simp only
  have hbad : (((blocks.take k).any (isUncorrectable c)) || decide ((rsDecode c blocks[k]).1 = .uncorrectable)) =
      (blocks.take (k + 1)).any (isUncorrectable c) := (any_take_succ _ hb).symm
  rw [hbad, ← decodedData_take_succ c hb, blockPath]
  split
  · next hlast =>
    have hall : blocks.take (k + 1) = blocks := List.take_of_length_le (by omega)
    rw [hall, List.drop_eq_nil_of_le (by omega)]
    rfl
  · rfl

/-- R220: the blocks of a frame make its frame result. -/
theorem stepRun_blocks {s : State} {blocks : List (List Byte)} {more : List Byte} {rest : List Slot}
    (hen : s.rxEn = true) (hblk : s.rx.rsdBlk = 0) (hbad : s.rx.rsdBad = false) (hbuf : s.rx.rsdBuf = [])
    (hlen : blocks.length = s.cfg.nb) (hblocks : ∀ b ∈ blocks, b.length = 255) (hq : s.rx.qDec = blocks.flatten ++ more)
    (hroom : RoomFor s.cfg.qdepth.rxout s.rx.qRxout.length 1)
    (hctl : s.ports.ctl = repeatWord 0x80#8 s.cfg.nb ++ rest) :
    stepRun s.cfg.nb s = .next ((s.setRx { s.rx with
      qDec := more
      qRxout := s.rx.qRxout ++ [frameResult s.cfg.toCfg blocks]
      rsdBlk := 0
      rsdBad := false
      rsdBuf := [] }).withLines rest) := by
  have hrun := rxRun_along (i := .rsdec) (by decide) (blockPath s.cfg.toCfg s.rx blocks more) hctl
    (blockPath_zero s.cfg hblk hbad hbuf hq) fun k hk =>
      ⟨(State.rsdecEnabled_iff _).2 ⟨hen, ?_, fun _ => ?_⟩, rsdecFire_blockPath s.cfg.toCfg s.rx hlen hblocks hk⟩
  · rwa [blockPath, if_pos rfl] at hrun
  · have hb : k < blocks.length := hlen ▸ hk
    have hlenBlock := hblocks _ (List.getElem_mem hb)
    rw [State.setRx_rx, blockPath, if_neg hk.ne, List.drop_eq_getElem_cons hb]
    simp only [List.flatten_cons, List.length_append]
    omega
  · rw [State.setRx_rx, blockPath, if_neg hk.ne]
    exact hroom

theorem frameStatus_eq_corrupt (bad : Bool) : frameStatus bad = .corrupt ↔ bad = true := by
  cases bad <;> simp [frameStatus]

end Sys2Proof.Machine

open Sys2Proof Sys2Proof.Machine in
/-- Settles O43. -/
theorem lockRunsItsFullLength : Obligations.LockRunsItsFullLength := by
  intro s xs more rest hen lock hcnt hscr hwin hq hlen hroom hctl
  refine ⟨_, stepRun_lock hen lock hcnt hscr hq hlen hroom hctl, rfl, ?_, if_pos rfl, if_pos rfl, hwin, rfl, rfl⟩
  have hall : xs.drop s.cfg.frameCodedBits = [] := List.drop_eq_nil_of_le hlen.le
  rw [State.withLines_rx, State.setRx_rx, lockPath, hall, List.nil_append]

open Sys2Proof Sys2Proof.Machine in
/-- Settles O45. -/
theorem frameIsCorruptIffABlockIs : Obligations.FrameIsCorruptIffABlockIs := by
  intro s blocks more rest hen hblk hbad hbuf hlen hblocks hq hroom hctl
  refine ⟨_, _, stepRun_blocks hen hblk hbad hbuf hlen hblocks hq hroom hctl, rfl, rfl, rfl, ?_, rfl, rfl, rfl⟩
  simp only [frameStatus_eq_corrupt, List.any_eq_true, isUncorrectable, decide_eq_true_iff]
end

