-- ==== Sys2Proof/Proofs/TransmitRuns.lean ====
section
/-! R91, R92: the transmit path over a whole frame, stage after stage, each path on the way written out. -/

namespace Sys2Proof.Machine

theorem stepRun_trans {m n : Nat} {s t u : State} (hst : stepRun m s = .next t) (htu : stepRun n t = .next u) :
    stepRun (m + n) s = .next u := (stepRun_add hst).trans htu

theorem stepRun_one {s t : State} (h : step s = .next t) : stepRun 1 s = .next t := stepRun_succ h

/-! ## RSENC -/

/-- Codeword `k` of the frame `f` (R75). -/
def frameCodeword (c : Cfg) (f : List Byte) (k : Nat) : List Byte :=
  (f.drop (223 * k)).take 223 ++ rsParity c ((f.drop (223 * k)).take 223)

theorem encodedFrame_eq_flatMap (c : Cfg) (f : List Byte) :
    encodedFrame c f = (List.range c.nb).flatMap (frameCodeword c f) := rfl

theorem length_frameCodeword (c : Cfg) {f : List Byte} {n k : Nat} (hlen : f.length = 223 * n) (hk : k < n) :
    (frameCodeword c f k).length = 255 := by
  rw [frameCodeword, List.length_append, List.length_take, List.length_drop, length_rsParity]
  omega

theorem length_encodedFrame (c : Cfg) {f : List Byte} (hlen : f.length = 223 * c.nb) :
    (encodedFrame c f).length = 255 * c.nb := by
  have hpart : ∀ n, n ≤ c.nb → ((List.range n).flatMap (frameCodeword c f)).length = 255 * n := by
    intro n
    induction n with
    | zero => exact fun _ => rfl
    | succ n ih =>
      intro hn
      rw [List.range_succ, List.flatMap_append, List.length_append, ih (by omega), List.flatMap_singleton,
        length_frameCodeword c hlen hn, Nat.mul_succ]
  exact hpart c.nb le_rfl

/-- The transmit path `k` blocks into the frame `f`. -/
def rsPath (c : Cfg) (before : TxPath) (f : List Byte) (k : Nat) : TxPath :=
  { before with
    qTxin := f.drop (223 * k)
    qRsc := before.qRsc ++ (List.range k).flatMap (frameCodeword c f) }

theorem rsencFire_rsPath (c : Cfg) (before : TxPath) {f : List Byte} {n k : Nat} (hlen : f.length = 223 * n)
    (hk : k < n) : rsencFire c (rsPath c before f k) = rsPath c before f (k + 1) := by
  have hq : (rsPath c before f k).qTxin = (f.drop (223 * k)).take 223 ++ f.drop (223 * (k + 1)) := by
    rw [rsPath, Nat.mul_succ, ← List.drop_drop, List.take_append_drop]
  have hd : ((f.drop (223 * k)).take 223).length = 223 := by
    rw [List.length_take, List.length_drop]
    omega
  rw [rsencFire_of_append c hq hd]
  simp only [rsPath, List.range_succ, List.flatMap_append, List.flatMap_singleton, List.append_assoc, frameCodeword]

theorem stepRun_rsenc {s : State} {f : List Byte} {rest : List Slot} (hen : s.txEn = true)
    (hroom : s.cfg.qdepth.rsc = none) (hlen : f.length = 223 * s.cfg.nb) (hq : s.tx.qTxin = f)
    (hctl : s.ports.ctl = repeatWord 0x10#8 s.cfg.nb ++ rest) :
    stepRun s.cfg.nb s = .next ((s.setTx { s.tx with
      qTxin := []
      qRsc := s.tx.qRsc ++ encodedFrame s.cfg.toCfg f }).withLines rest) := by
  have hstart : s.tx = rsPath s.cfg.toCfg s.tx f 0 := by
    rw [rsPath, Nat.mul_zero, List.drop_zero, ← hq, List.range_zero, List.flatMap_nil, List.append_nil]
  have hrun := txRun_along (i := .rsenc) (by decide) (rsPath s.cfg.toCfg s.tx f) hctl hstart fun k hk =>
    ⟨(State.rsencEnabled_iff _).2 ⟨hen, ?_, RoomFor.of_none _ _ hroom⟩, rsencFire_rsPath s.cfg.toCfg s.tx hlen hk⟩
  · rwa [rsPath, List.drop_eq_nil_of_le hlen.le] at hrun
  · rw [State.setTx_tx, rsPath, List.length_drop]
    omega

/-! ## CVENC -/

/-- Whole bytes of bits pack by themselves. -/
theorem packBytes_append {a : List Bit} (ha : a.length % 8 = 0) (b : List Bit) :
    packBytes (a ++ b) = ((packBytes a).1 ++ (packBytes b).1, (packBytes b).2) := by
  induction a using packBytes.induct with
  | case1 b7 b6 b5 b4 b3 b2 b1 b0 rest ih =>
    have hrest : rest.length % 8 = 0 := by
      simp only [List.length_cons] at ha
      omega
    simp only [List.cons_append, packBytes, ih hrest]
  | case2 short h =>
    have hnil : short = [] := by
      have hlen := length_packBytes_fst short
      have hempty : (packBytes short).1 = [] := by
        unfold packBytes
        split
        · exact absurd rfl (h _ _ _ _ _ _ _ _ _)
        · rfl
      rw [hempty, List.length_nil] at hlen
      exact List.eq_nil_of_length_eq_zero (by omega)
    rw [hnil]
    rfl

theorem length_flatMap_bitsOfByte (l : List Byte) : (l.flatMap bitsOfByte).length = 8 * l.length := by
  induction l with
  | nil => rfl
  | cons x l ih =>
    rw [List.flatMap_cons, List.length_append, ih, length_bitsOfByte, List.length_cons]
    omega

theorem length_codedBits (c : Cfg) (es : List Byte) : (codedBits c es).length = 16 * es.length := by
  rw [codedBits, length_convBits, length_flatMap_bitsOfByte]
  omega

/-- The coder's register after some bytes of a frame. -/
def codedRegister (c : Cfg) (es : List Byte) : BitVec 6 := (convBits c 0#6 (es.flatMap bitsOfByte)).2

theorem codedBits_concat (c : Cfg) (es : List Byte) (x : Byte) :
    codedBits c (es ++ [x]) = codedBits c es ++ (convBits c (codedRegister c es) (bitsOfByte x)).1 := by
  rw [codedBits, List.flatMap_append, List.flatMap_singleton, convBits_append]
  rfl

theorem codedRegister_concat (c : Cfg) (es : List Byte) (x : Byte) :
    codedRegister c (es ++ [x]) = (convBits c (codedRegister c es) (bitsOfByte x)).2 := by
  rw [codedRegister, List.flatMap_append, List.flatMap_singleton, convBits_append]
  rfl

/-- The transmit path `k` bytes into coding the frame `es`. -/
def cvPath (c : Cfg) (before : TxPath) (es : List Byte) (k : Nat) : TxPath :=
  { before with
    qRsc := es.drop k
    qCvc := before.qCvc ++ (packBytes (codedBits c (es.take k))).1
    cvSr := if k = 0 then before.cvSr else codedRegister c (es.take k)
    cvCnt := if k = c.frameRsBytes then 0 else k }

theorem cvStart_cvPath (c : Cfg) (before : TxPath) (es : List Byte) {k : Nat} (hk : k < c.frameRsBytes) :
    cvStart (cvPath c before es k) = codedRegister c (es.take k) := by
  rw [cvStart, cvPath, if_neg hk.ne]
  cases k with
  | zero => rfl
  | succ k => rfl

theorem cvencFire_cvPath (c : Cfg) (before : TxPath) {es : List Byte} (hlen : es.length = c.frameRsBytes) {k : Nat}
    (hk : k < c.frameRsBytes) : cvencFire c (cvPath c before es k) = cvPath c before es (k + 1) := by
  have hx : k < es.length := hlen ▸ hk
  have hq : (cvPath c before es k).qRsc = es[k] :: es.drop (k + 1) := List.drop_eq_getElem_cons hx
  have hcnt : (cvPath c before es k).cvCnt = k := if_neg hk.ne
  have htake : es.take (k + 1) = es.take k ++ [es[k]] := (List.take_concat_get' es k hx).symm
  have hbyte := convBits_byte c (codedRegister c (es.take k)) es[k]
  have hwhole : (codedBits c (es.take k)).length % 8 = 0 := by
    rw [length_codedBits]
    omega
  rw [cvencFire_of_cons c hq, hcnt, cvStart_cvPath c before es hk]
  simp only [cvPath, htake, codedBits_concat, codedRegister_concat, hbyte, packBytes_append hwhole,
    if_neg (Nat.succ_ne_zero k), countTo, List.append_assoc]

theorem stepRun_cvenc {s : State} {es : List Byte} {rest : List Slot} (hen : s.txEn = true)
    (hroom : s.cfg.qdepth.cvc = none) (hlen : es.length = 255 * s.cfg.nb) (hcnt : s.tx.cvCnt = 0)
    (hq : s.tx.qRsc = es) (hctl : s.ports.ctl = repeatWord 0x20#8 (255 * s.cfg.nb) ++ rest) :
    ∃ sr, stepRun (255 * s.cfg.nb) s = .next ((s.setTx { s.tx with
      qRsc := []
      qCvc := s.tx.qCvc ++ (packBytes (codedBits s.cfg.toCfg es)).1
      cvSr := sr
      cvCnt := 0 }).withLines rest) := by
  have hpos : ¬0 = s.cfg.frameRsBytes := (lt_of_lt_of_le (by decide) s.cfg.frameRsBytes_pos).ne
  have hstart : s.tx = cvPath s.cfg.toCfg s.tx es 0 := by
    have hnil : (packBytes (codedBits s.cfg.toCfg [])).1 = [] := rfl
    rw [cvPath, if_neg hpos, if_pos rfl, List.drop_zero, List.take_zero, hnil, List.append_nil, ← hq, ← hcnt]
  have hrun := txRun_along (i := .cvenc) (by decide) (cvPath s.cfg.toCfg s.tx es) hctl hstart fun k hk =>
    ⟨(State.cvencEnabled_iff _).2 ⟨hen, ?_, RoomFor.of_none _ _ hroom⟩, cvencFire_cvPath s.cfg.toCfg s.tx hlen hk⟩
  · have hfull : es.length ≤ s.cfg.frameRsBytes := hlen.le
    have hend : cvPath s.cfg.toCfg s.tx es s.cfg.frameRsBytes =
        { s.tx with
          qRsc := []
          qCvc := s.tx.qCvc ++ (packBytes (codedBits s.cfg.toCfg es)).1
          cvSr := codedRegister s.cfg.toCfg es
          cvCnt := 0 } := by
      rw [cvPath, if_neg (Ne.symm hpos), if_pos rfl, List.take_of_length_le hfull,
        List.drop_eq_nil_of_le hfull]
    exact ⟨_, hrun.trans (congrArg (fun t => Host.Outcome.next ((s.setTx t).withLines rest)) hend)⟩
  · rw [State.setTx_tx, cvPath, List.length_drop]
    omega

/-! ## FRMR -/

theorem scramble_append (c : Cfg) (s : BitVec 32) (a b : List Bit) :
    (scramble c s (a ++ b)).1 = (scramble c s a).1 ++ (scramble c (scrIterate c a.length s) b).1 := by
  induction a generalizing s with
  | nil => rfl
  | cons x a ih => simp only [List.cons_append, scramble, ih, List.length_cons, scrIterate_succ]

/-- Scrambling from the seed is the sum with the key stream (R92, R164). -/
theorem scramble_seed (c : Cfg) (bs : List Bit) :
    (scramble c c.scrSeed bs).1 = bitsXor bs ((List.range bs.length).map (keyBit c)) := by
  refine List.ext_getElem (by simp [bitsXor]) fun i hi _ => ?_
  have hi' : i < bs.length := by simpa using hi
  have hbit := scramble_getD c c.scrSeed bs i hi'
  rw [List.getD_eq_getElem _ _ hi, List.getD_eq_getElem _ _ hi'] at hbit
  simp only [hbit, bitsXor, List.getElem_zipWith, List.getElem_map, List.getElem_range]
  rfl

/-- The transmit path `k` bytes into framing the bytes `cs`. -/
def frPath (c : Cfg) (before : TxPath) (cs : List Byte) (k : Nat) : TxPath :=
  { before with
    qCvc := cs.drop k
    qBits := before.qBits ++
      if k = 0 then [] else syncBits c ++ (scramble c c.scrSeed ((cs.take k).flatMap bitsOfByte)).1
    frScr := if k = 0 then before.frScr else scrIterate c (8 * k) c.scrSeed
    frCnt := if k = c.frameCvBytes then 0 else k }

theorem frStart_frPath (c : Cfg) (before : TxPath) (cs : List Byte) {k : Nat} (hk : k < c.frameCvBytes) :
    frStart c (frPath c before cs k) = scrIterate c (8 * k) c.scrSeed := by
  rw [frStart, frPath, if_neg hk.ne]
  cases k with
  | zero => rfl
  | succ k => rfl

/-- The sync word and the scrambled bytes, whichever byte is the next. -/
theorem frPath_qBits_header (c : Cfg) (before : TxPath) (cs : List Byte) {k : Nat} (hk : k < c.frameCvBytes) :
    (frPath c before cs k).qBits ++ frHeader c (frPath c before cs k) =
      before.qBits ++ (syncBits c ++ (scramble c c.scrSeed ((cs.take k).flatMap bitsOfByte)).1) := by
  have hcnt : (frPath c before cs k).frCnt = k := if_neg hk.ne
  rw [frHeader, hcnt, frPath]
  cases k with
  | zero =>
    rw [if_pos rfl, if_pos rfl, List.append_nil]
    exact congrArg (before.qBits ++ ·) (List.append_nil _).symm
  | succ k => simp only [if_neg (Nat.succ_ne_zero k), List.append_nil]

theorem frmrFire_frPath (c : Cfg) (before : TxPath) {cs : List Byte} (hlen : cs.length = c.frameCvBytes) {k : Nat}
    (hk : k < c.frameCvBytes) : frmrFire c (frPath c before cs k) = frPath c before cs (k + 1) := by
  have hx : k < cs.length := hlen ▸ hk
  have hq : (frPath c before cs k).qCvc = cs[k] :: cs.drop (k + 1) := List.drop_eq_getElem_cons hx
  have hcnt : (frPath c before cs k).frCnt = k := if_neg hk.ne
  have htake : cs.take (k + 1) = cs.take k ++ [cs[k]] := (List.take_concat_get' cs k hx).symm
  have hbits : (scramble c c.scrSeed ((cs.take (k + 1)).flatMap bitsOfByte)).1 =
      (scramble c c.scrSeed ((cs.take k).flatMap bitsOfByte)).1 ++
        (scramble c (scrIterate c (8 * k) c.scrSeed) (bitsOfByte cs[k])).1 := by
    rw [htake, List.flatMap_append, List.flatMap_singleton, scramble_append, length_flatMap_bitsOfByte,
      List.length_take, Nat.min_eq_left hx.le]
  rw [frmrFire_of_cons c hq, hcnt, frStart_frPath c before cs hk, ← List.append_assoc,
    frPath_qBits_header c before cs hk, ← scrIterate_add, ← Nat.mul_succ]
  simp only [frPath, hbits, if_neg (Nat.succ_ne_zero k), countTo, List.append_assoc]

theorem stepRun_frmr {s : State} {cs : List Byte} {rest : List Slot} (hen : s.txEn = true)
    (hroom : s.cfg.qdepth.bits = none) (hlen : cs.length = 510 * s.cfg.nb) (hcnt : s.tx.frCnt = 0)
    (hq : s.tx.qCvc = cs) (hctl : s.ports.ctl = repeatWord 0x30#8 (510 * s.cfg.nb) ++ rest) :
    ∃ scr, stepRun (510 * s.cfg.nb) s = .next ((s.setTx { s.tx with
      qCvc := []
      qBits := s.tx.qBits ++ (syncBits s.cfg.toCfg ++
        (scramble s.cfg.toCfg s.cfg.scrSeed (cs.flatMap bitsOfByte)).1)
      frScr := scr
      frCnt := 0 }).withLines rest) := by
  have hpos : ¬0 = s.cfg.frameCvBytes := by
    have hnb := s.cfg.nb_pos
    rw [Cfg.frameCvBytes]
    omega
  have hstart : s.tx = frPath s.cfg.toCfg s.tx cs 0 := by
    rw [frPath, if_neg hpos, if_pos rfl, if_pos rfl, List.drop_zero, List.append_nil, ← hq, ← hcnt]
  have hrun := txRun_along (i := .frmr) (by decide) (frPath s.cfg.toCfg s.tx cs) hctl hstart fun k hk =>
    ⟨(State.frmrEnabled_iff _).2 ⟨hen, ?_, RoomFor.of_none _ _ hroom⟩, frmrFire_frPath s.cfg.toCfg s.tx hlen hk⟩
  · have hfull : cs.length ≤ s.cfg.frameCvBytes := hlen.le
    have hend : frPath s.cfg.toCfg s.tx cs s.cfg.frameCvBytes =
        { s.tx with
          qCvc := []
          qBits := s.tx.qBits ++ (syncBits s.cfg.toCfg ++
            (scramble s.cfg.toCfg s.cfg.scrSeed (cs.flatMap bitsOfByte)).1)
          frScr := scrIterate s.cfg.toCfg (8 * s.cfg.frameCvBytes) s.cfg.scrSeed
          frCnt := 0 } := by
      rw [frPath, if_neg (Ne.symm hpos), if_neg (Ne.symm hpos), if_pos rfl, List.take_of_length_le hfull,
        List.drop_eq_nil_of_le hfull]
    exact ⟨_, hrun.trans (congrArg (fun t => Host.Outcome.next ((s.setTx t).withLines rest)) hend)⟩
  · rw [State.setTx_tx, frPath, List.length_drop]
    omega

/-! ## The host moves at both ends -/

theorem step_txput {s : State} {f : List Byte} {rest : List Slot} (hroom : s.cfg.qdepth.txin = none)
    (hlen : f.length = 223 * s.cfg.nb)
    (hctl : s.ports.ctl = ({ word := 0xF0#8, txin := f } : Slot) :: rest) :
    step s = .next ((s.setTx { s.tx with qTxin := s.tx.qTxin ++ f }).withLines rest) := by
  have hslot : s.slot.txin = f := by rw [State.slot, hctl]; rfl
  have hdecode : decode s.presented = .op .txput := by rw [presented_of_ctl_cons hctl]; exact decode_encode .txput
  rw [step_of_decode hdecode, exec_txput_of_frame (hslot ▸ hlen) (RoomFor.of_none _ _ hroom), hslot,
    advance_of_ctl_cons hctl]
  rfl

theorem step_bitget {s : State} {rest : List Slot} (htap : s.txTap = true)
    (hctl : s.ports.ctl = repeatWord 0xF2#8 1 ++ rest) :
    step s = .next (((s.setTx { s.tx with qBits := [] }).emitBits s.tx.qBits).withLines rest) := by
  have hdecode : decode s.presented = .op .bitget := by rw [presented_of_ctl_cons hctl]; exact decode_encode .bitget
  rw [step_of_decode hdecode, exec_of_enabled (i := .bitget) htap, done, State.advance]
  refine congrArg Host.Outcome.next (congrArg (State.withLines _) ?_)
  show s.ports.ctl.drop 1 = rest
  rw [hctl]
  rfl

theorem length_bitsXor {a b : List Bit} (h : a.length = b.length) : (bitsXor a b).length = a.length := by
  rw [bitsXor, List.length_zipWith, ← h, Nat.min_self]

/-- What FRMR makes of the packed coding of a frame is the frame on the wire (R92). -/
theorem framed_eq_wireBits (c : Cfg) {f : List Byte} (hlen : f.length = 223 * c.nb) :
    syncBits c ++
        (scramble c c.scrSeed ((packBytes (codedBits c (encodedFrame c f))).1.flatMap bitsOfByte)).1 =
      wireBits c f := by
  have hcoded : (codedBits c (encodedFrame c f)).length = c.frameCodedBits := by
    rw [length_codedBits, length_encodedFrame c hlen, Cfg.frameCodedBits]
    omega
  have hrest : (packBytes (codedBits c (encodedFrame c f))).2 = [] :=
    List.eq_nil_of_length_eq_zero (by rw [length_packBytes_snd, hcoded, Cfg.frameCodedBits]; omega)
  have hall := flatMap_bitsOfByte_packBytes (codedBits c (encodedFrame c f))
  rw [hrest, List.append_nil] at hall
  rw [hall, scramble_seed, hcoded, wireBits]

theorem length_wireBits (c : Cfg) {f : List Byte} (hlen : f.length = 223 * c.nb) :
    (wireBits c f).length = 32 + 4080 * c.nb := by
  have hcoded : (codedBits c (encodedFrame c f)).length = 4080 * c.nb := by
    rw [length_codedBits, length_encodedFrame c hlen]
    omega
  rw [wireBits, List.length_append, length_syncBits, length_bitsXor (by simp [hcoded, Cfg.frameCodedBits]), hcoded]

end Sys2Proof.Machine

open Sys2Proof Sys2Proof.Machine in
/-- Settles O42: the five parts of the run, one after the other. -/
theorem frameOnTheWire : Obligations.FrameOnTheWire := by
  intro s f rest hdepth hlen hen htap htxin hrsc hcvc hcv hfr hctl
  have hnone : s.cfg.qdepth.txin = none ∧ s.cfg.qdepth.rsc = none ∧ s.cfg.qdepth.cvc = none ∧
      s.cfg.qdepth.bits = none := by
    rw [hdepth]
    exact ⟨rfl, rfl, rfl, rfl⟩
  obtain ⟨hroomTxin, hroomRsc, hroomCvc, hroomBits⟩ := hnone
  have hes := length_encodedFrame s.cfg.toCfg hlen
  have hcs : (packBytes (codedBits s.cfg.toCfg (encodedFrame s.cfg.toCfg f))).1.length = 510 * s.cfg.nb := by
    rw [length_packBytes_fst, length_codedBits, hes]
    omega
  have hput := stepRun_one (step_txput hroomTxin hlen hctl)
  rw [htxin, List.nil_append] at hput
  have hblocks := stepRun_trans hput (stepRun_rsenc hen hroomRsc hlen rfl rfl)
  obtain ⟨sr, hcoded⟩ := stepRun_cvenc
    (s := (s.setTx { s.tx with qTxin := [], qRsc := s.tx.qRsc ++ encodedFrame s.cfg.toCfg f }).withLines
      (repeatWord 0x20#8 (255 * s.cfg.nb) ++ (repeatWord 0x30#8 (510 * s.cfg.nb) ++ (repeatWord 0xF2#8 1 ++ rest))))
    hen hroomCvc hes hcv (by rw [State.withLines_tx, State.setTx_tx, hrsc, List.nil_append]) rfl
  have hbytes := stepRun_trans hblocks hcoded
  obtain ⟨scr, hframed⟩ := stepRun_frmr
    (s := (s.setTx { s.tx with
        qTxin := []
        qRsc := []
        qCvc := s.tx.qCvc ++ (packBytes (codedBits s.cfg.toCfg (encodedFrame s.cfg.toCfg f))).1
        cvSr := sr
        cvCnt := 0 }).withLines (repeatWord 0x30#8 (510 * s.cfg.nb) ++ (repeatWord 0xF2#8 1 ++ rest)))
    hen hroomBits hcs hfr (by rw [State.withLines_tx, State.setTx_tx, hcvc, List.nil_append]) rfl
  have hbits := stepRun_trans hbytes hframed
  have hget := stepRun_trans hbits (stepRun_one (step_bitget htap rfl))
  refine ⟨length_wireBits s.cfg.toCfg hlen, _, hget, rfl, ?_, rfl, rfl, rfl, rfl, rfl, rfl, rfl⟩
  show s.ports.bits ++ [s.tx.qBits ++ _] = _
  exact congrArg (fun w => s.ports.bits ++ [s.tx.qBits ++ w]) (framed_eq_wireBits s.cfg.toCfg hlen)
end

