-- ==== Sys2Proof/Proofs/CleanTrellis.lean ====
section
/-! R201 to R207 on symbols without noise. The pair of a window `w`, scaled by `k > 0`, is nearer to `w`'s expected pair
than to any other of the window's predecessor; so the coder's own state keeps a metric below every other, and the
survivors lead back along the coder's states. -/

namespace Sys2Proof.Machine

/-! ## Windows, states and metrics -/

/-- The predecessor of R203 along a window: its upper six bits. -/
def windowPred (w : BitVec 7) : BitVec 6 := (w >>> 1).setWidth 6

/-- The window into the state `s` whose oldest bit is `old` (R203). -/
def stateWindow (s : BitVec 6) (old : Bool) : BitVec 7 := s.setWidth 7 ||| (if old then 0x40#7 else 0x00#7)

theorem windowPred_convWindow : ∀ (sr : BitVec 6) (b : Bit), windowPred (convWindow sr b) = sr := by decide +kernel

theorem convWindow_windowPred : ∀ w : BitVec 7, convWindow (windowPred w) (w.getLsbD 0) = w := by decide +kernel

theorem stateWindow_convNext : ∀ w : BitVec 7, stateWindow (convNext w) (w.getLsbD 6) = w := by decide +kernel

theorem convNext_stateWindow : ∀ (s : BitVec 6) (old : Bool), convNext (stateWindow s old) = s := by decide +kernel

theorem getLsbD_stateWindow : ∀ (s : BitVec 6) (old : Bool), (stateWindow s old).getLsbD 6 = old := by
  decide +kernel

theorem shift_or_eq_windowPred : ∀ w : BitVec 7,
    (convNext w >>> 1) ||| (if w.getLsbD 6 then 0x20#6 else 0#6) = windowPred w := by decide +kernel

/-- Two windows with one predecessor differ in the newest bit alone. -/
theorem window_eq_or_flip {w w' : BitVec 7} (h : windowPred w' = windowPred w) : w' = w ∨ w' = w ^^^ 0x01#7 := by
  rw [← convWindow_windowPred w', h, ← convWindow_windowPred w, ← convWindow_flip_newest, windowPred_convWindow]
  cases w'.getLsbD 0 <;> cases w.getLsbD 0 <;> simp

/-- The metric of a state. -/
def metricAt (pm : Vector Metric 64) (s : BitVec 6) : Metric := pm[s.toNat]'s.isLt

/-- The metric of R203 along a window: its predecessor's, and the branch's. -/
def windowMetric (c : Cfg) (pm : Vector Metric 64) (r1 r2 : Soft) (w : BitVec 7) : Metric :=
  (metricAt pm (windowPred w)).add (branchMetric c r1 r2 w)

theorem ofNat_eq_stateWindow (s : BitVec 6) :
    BitVec.ofNat 7 s.toNat = stateWindow s false ∧ BitVec.ofNat 7 (s.toNat + 64) = stateWindow s true := by
  revert s
  decide +kernel

theorem toNat_windowPred_stateWindow (s : BitVec 6) :
    (windowPred (stateWindow s false)).toNat = s.toNat / 2 ∧
      (windowPred (stateWindow s true)).toNat = s.toNat / 2 + 32 := by
  revert s
  decide +kernel

theorem acsMetric0_eq (c : Cfg) (pm : Vector Metric 64) (r1 r2 : Soft) (s : BitVec 6) :
    acsMetric0 c pm r1 r2 ⟨s.toNat, s.isLt⟩ = windowMetric c pm r1 r2 (stateWindow s false) := by
  simp only [acsMetric0, windowMetric, metricAt, ofNat_eq_stateWindow, toNat_windowPred_stateWindow]

theorem acsMetric1_eq (c : Cfg) (pm : Vector Metric 64) (r1 r2 : Soft) (s : BitVec 6) :
    acsMetric1 c pm r1 r2 ⟨s.toNat, s.isLt⟩ = windowMetric c pm r1 r2 (stateWindow s true) := by
  simp only [acsMetric1, windowMetric, metricAt, ofNat_eq_stateWindow, toNat_windowPred_stateWindow]

/-- The decision of R203 for a state. -/
def decisionAt (c : Cfg) (pm : Vector Metric 64) (r1 r2 : Soft) (s : BitVec 6) : Bool :=
  (windowMetric c pm r1 r2 (stateWindow s true)).lt (windowMetric c pm r1 r2 (stateWindow s false))

theorem acsDecision_eq (c : Cfg) (pm : Vector Metric 64) (r1 r2 : Soft) (s : BitVec 6) :
    acsDecision c pm r1 r2 ⟨s.toNat, s.isLt⟩ = decisionAt c pm r1 r2 s := by
  rw [acsDecision, acsMetric0_eq, acsMetric1_eq, decisionAt]

theorem getLsbD_acsDecisions (c : Cfg) (pm : Vector Metric 64) (r1 r2 : Soft) (s : BitVec 6) :
    (acsDecisions c pm r1 r2).getLsbD s.toNat = decisionAt c pm r1 r2 s :=
  (acsDecisions_get c pm r1 r2 ⟨s.toNat, s.isLt⟩).trans (acsDecision_eq c pm r1 r2 s)

theorem metricAt_acsMetrics (c : Cfg) (pm : Vector Metric 64) (r1 r2 : Soft) (s : BitVec 6) :
    metricAt (acsMetrics c pm r1 r2) s =
      windowMetric c pm r1 r2 (stateWindow s (decisionAt c pm r1 r2 s)) := by
  refine (acsMetrics_get c pm r1 r2 ⟨s.toNat, s.isLt⟩).trans ?_
  rw [acsDecision_eq, acsMetric0_eq, acsMetric1_eq]
  cases decisionAt c pm r1 r2 s <;> rfl

/-! ## The order of metrics -/

theorem Metric.lt_add {m b x : Soft} {p : Metric} (h : (Metric.fin m).lt p = true) (hle : b ≤ x) :
    (Metric.fin (m + b)).lt (p.add x) = true := by
  cases p with
  | inf => rfl
  | fin v => exact decide_eq_true (add_lt_add_of_lt_of_le (of_decide_eq_true h) hle)

theorem Metric.lt_asymm {p q : Metric} (h : p.lt q = true) : q.lt p = false := by
  cases p with
  | inf => cases h
  | fin v =>
    cases q with
    | inf => rfl
    | fin u => exact decide_eq_false (not_lt.2 (of_decide_eq_true h).le)

theorem Metric.lt_self (p : Metric) : p.lt p = false := by
  cases p with
  | inf => rfl
  | fin v => exact decide_eq_false (lt_irrefl v)

/-! ## Branches without noise -/

/-- The distance of a scaled symbol to an expected one (R202). -/
theorem sq_symbol (k : Soft) (a b : Bit) :
    (k * sym a - sym b) * (k * sym a - sym b) = (k - 1) * (k - 1) + (if a = b then 0 else 4 * k) := by
  cases a <;> cases b <;> simp only [sym, if_true, if_false, Bool.false_eq_true, Bool.true_eq_false] <;> ring

/-- The metric of a branch against the pair of the window `w`: more for each output that differs. -/
theorem branchMetric_clean (c : Cfg) (k : Soft) (w w' : BitVec 7) :
    branchMetric c (k * sym (convOut1 c w)) (k * sym (convOut2 c w)) w' =
      2 * ((k - 1) * (k - 1)) + ((if convOut1 c w = convOut1 c w' then 0 else 4 * k) +
        (if convOut2 c w = convOut2 c w' then 0 else 4 * k)) := by
  rw [branchMetric, sq_symbol, sq_symbol]
  ring

theorem branchMetric_clean_self (c : Cfg) (k : Soft) (w : BitVec 7) :
    branchMetric c (k * sym (convOut1 c w)) (k * sym (convOut2 c w)) w = 2 * ((k - 1) * (k - 1)) := by
  rw [branchMetric_clean, if_pos rfl, if_pos rfl, add_zero, add_zero]

theorem branchMetric_clean_le (c : Cfg) {k : Soft} (hk : 0 < k) (w w' : BitVec 7) :
    2 * ((k - 1) * (k - 1)) ≤ branchMetric c (k * sym (convOut1 c w)) (k * sym (convOut2 c w)) w' := by
  have hnonneg : ∀ p : Prop, ∀ [Decidable p], (0 : Soft) ≤ if p then 0 else 4 * k := by
    intro p _
    split
    · exact le_rfl
    · linarith
  rw [branchMetric_clean]
  exact le_add_of_nonneg_right (add_nonneg (hnonneg _) (hnonneg _))

/-- The other window from the same predecessor differs in both outputs (R156 (d)). -/
theorem branchMetric_clean_lt (c : Config) {k : Soft} (hk : 0 < k) (w : BitVec 7) :
    2 * ((k - 1) * (k - 1)) <
      branchMetric c.toCfg (k * sym (convOut1 c.toCfg w)) (k * sym (convOut2 c.toCfg w)) (w ^^^ 0x01#7) := by
  obtain ⟨h1, h2⟩ := convOut_flip_newest c w
  rw [branchMetric_clean, h1, h2, if_neg (Bool.not_ne_self _).symm, if_neg (Bool.not_ne_self _).symm]
  linarith

/-! ## One pair -/

/-- The state `sr` has the metric `m`, and every other state a greater one. -/
structure CleanMetrics (pm : Vector Metric 64) (sr : BitVec 6) (m : Soft) : Prop where
  own : metricAt pm sr = .fin m
  others : ∀ s, s ≠ sr → (Metric.fin m).lt (metricAt pm s) = true

theorem cleanMetrics_start : CleanMetrics startMetrics 0#6 0 := by
  refine ⟨startMetrics_get 0 (by decide), fun s hs => ?_⟩
  have hne : s.toNat ≠ 0 := fun h => hs (BitVec.eq_of_toNat_eq h)
  rw [metricAt, startMetrics_get, if_neg hne]
  rfl

section

variable {c : Config} {pm : Vector Metric 64} {sr : BitVec 6} {m k : Soft}

/-- The pair's own window keeps the least metric, and it alone. -/
theorem CleanMetrics.windows (h : CleanMetrics pm sr m) (hk : 0 < k) {w : BitVec 7} (hw : windowPred w = sr) :
    windowMetric c.toCfg pm (k * sym (convOut1 c.toCfg w)) (k * sym (convOut2 c.toCfg w)) w =
        .fin (m + 2 * ((k - 1) * (k - 1))) ∧
      ∀ w', w' ≠ w → (Metric.fin (m + 2 * ((k - 1) * (k - 1)))).lt
        (windowMetric c.toCfg pm (k * sym (convOut1 c.toCfg w)) (k * sym (convOut2 c.toCfg w)) w') = true := by
  refine ⟨by rw [windowMetric, hw, h.own, branchMetric_clean_self, Metric.add], fun w' hne => ?_⟩
  by_cases hpred : windowPred w' = sr
  · have hflip := (window_eq_or_flip (hpred.trans hw.symm)).resolve_left hne
    rw [windowMetric, hpred, h.own, hflip]
    exact decide_eq_true (add_lt_add_right (branchMetric_clean_lt c hk w) m)
  · exact Metric.lt_add (h.others _ hpred) (branchMetric_clean_le c.toCfg hk w w')

/-- The decision for the coder's next state is the oldest bit of its window. -/
theorem CleanMetrics.decision (h : CleanMetrics pm sr m) (hk : 0 < k) {w : BitVec 7} (hw : windowPred w = sr) :
    decisionAt c.toCfg pm (k * sym (convOut1 c.toCfg w)) (k * sym (convOut2 c.toCfg w)) (convNext w) =
      w.getLsbD 6 := by
  obtain ⟨hown, hothers⟩ := h.windows (c := c) hk hw
  have hsplit := stateWindow_convNext w
  rw [decisionAt]
  cases hold : w.getLsbD 6 with
  | true =>
    rw [hold] at hsplit
    rw [hsplit, hown]
    refine hothers _ fun heq => ?_
    rw [← heq, getLsbD_stateWindow] at hold
    exact Bool.false_ne_true hold
  | false =>
    rw [hold] at hsplit
    rw [hsplit, hown]
    refine Metric.lt_asymm (hothers _ fun heq => ?_)
    rw [← heq, getLsbD_stateWindow] at hold
    exact Bool.false_ne_true hold.symm

/-- After the pair the coder's next state has the least metric, and it alone. -/
theorem CleanMetrics.next (h : CleanMetrics pm sr m) (hk : 0 < k) {w : BitVec 7} (hw : windowPred w = sr) :
    CleanMetrics (acsMetrics c.toCfg pm (k * sym (convOut1 c.toCfg w)) (k * sym (convOut2 c.toCfg w)))
      (convNext w) (m + 2 * ((k - 1) * (k - 1))) := by
  obtain ⟨hown, hothers⟩ := h.windows (c := c) hk hw
  refine ⟨?_, fun s hs => ?_⟩
  · rw [metricAt_acsMetrics, h.decision hk hw, stateWindow_convNext, hown]
  · rw [metricAt_acsMetrics]
    exact hothers _ fun heq => hs ((convNext_stateWindow s _).symm.trans (congrArg convNext heq))

/-- The survivor of the coder's next state is the coder's state. -/
theorem CleanMetrics.survivor (h : CleanMetrics pm sr m) (hk : 0 < k) {w : BitVec 7} (hw : windowPred w = sr) :
    survivorPred (acsDecisions c.toCfg pm (k * sym (convOut1 c.toCfg w)) (k * sym (convOut2 c.toCfg w)))
      (convNext w) = sr := by
  rw [survivorPred, getLsbD_acsDecisions, h.decision hk hw, shift_or_eq_windowPred, hw]

end

/-- A search for the least finds a strict minimum that it starts from or meets. -/
theorem foldl_least {pm : Vector Metric 64} {target : Fin 64}
    (hleast : ∀ n, n ≠ target → pm[target].lt pm[n] = true) (ns : List (Fin 64)) (start : Fin 64)
    (hmeet : start = target ∨ target ∈ ns) :
    ns.foldl (fun (best : Fin 64) n => if pm[n].lt pm[best] then n else best) start = target := by
  induction ns generalizing start with
  | nil => exact hmeet.resolve_right List.not_mem_nil
  | cons n ns ih =>
    rw [List.foldl_cons]
    refine ih _ ?_
    by_cases hn : n = target
    · refine .inl ?_
      by_cases hstart : start = target
      · rw [hn, hstart, ite_self]
      · rw [hn, if_pos (hleast start hstart)]
    · obtain hstart | hmem := hmeet
      · rw [hstart, Metric.lt_asymm (hleast n hn)]
        exact .inl rfl
      · exact .inr ((List.mem_cons.1 hmem).resolve_left (Ne.symm hn))

theorem CleanMetrics.bestState_eq {pm : Vector Metric 64} {sr : BitVec 6} {m : Soft} (h : CleanMetrics pm sr m) :
    bestState pm = sr := by
  have hown : pm[(⟨sr.toNat, sr.isLt⟩ : Fin 64)] = .fin m := h.own
  have hleast : ∀ n : Fin 64, n ≠ ⟨sr.toNat, sr.isLt⟩ → pm[(⟨sr.toNat, sr.isLt⟩ : Fin 64)].lt pm[n] = true := by
    intro n hn
    have hlt : n.val % 2 ^ 6 = n.val := Nat.mod_eq_of_lt n.isLt
    have hne : BitVec.ofNat 6 n.val ≠ sr := fun heq => hn (Fin.ext (hlt.symm.trans (congrArg BitVec.toNat heq)))
    have hother := h.others _ hne
    simp only [metricAt, BitVec.toNat_ofNat, hlt] at hother
    rw [hown]
    exact hother
  rw [bestState, foldl_least hleast _ _ (.inr (List.mem_finRange _)), BitVec.ofNat_toNat, BitVec.setWidth_eq]

end Sys2Proof.Machine
end

