-- ==== Sys2Proof/Proofs/ViterbiRun.lean ====
section
/-! R204, R209: the Viterbi decoder over a frame without noise. After `t` pairs the survivors lead back along the coder's
states, so every traceback reads the frame's own bits, and what is pushed and kept is those bits, packed. -/

namespace Sys2Proof.Machine

/-! ## The coder along a frame -/

/-- The coder's register after `t` bits of a frame. -/
def coderState (c : Cfg) (us : List Bit) (t : Nat) : BitVec 6 := (convBits c 0#6 (us.take t)).2

/-- The coder's window at bit `t`. -/
def coderWindow (c : Cfg) (us : List Bit) (t : Nat) : BitVec 7 := convWindow (coderState c us t) (us.getD t false)

section

variable {c : Cfg} {us : List Bit} {t : Nat}

theorem take_succ_eq_append_getD (ht : t < us.length) : us.take (t + 1) = us.take t ++ [us.getD t false] := by
  rw [List.getD_eq_getElem _ _ ht, List.take_concat_get' us t ht]

theorem coderState_succ (ht : t < us.length) : coderState c us (t + 1) = convNext (coderWindow c us t) := by
  rw [coderState, take_succ_eq_append_getD ht, convBits_concat_register]
  rfl

theorem windowPred_coderWindow : windowPred (coderWindow c us t) = coderState c us t := windowPred_convWindow _ _

/-- The newest bit of the coder's state is the bit it took. -/
theorem getLsbD_coderState_succ (ht : t < us.length) : (coderState c us (t + 1)).getLsbD 0 = us.getD t false := by
  rw [coderState_succ ht, coderWindow, getLsbD_convNext_convWindow, if_pos rfl]

/-- The symbols from pair `t` on. -/
theorem drop_symbolsOf (k : Soft) (ht : t < us.length) :
    (symbolsOf k (convBits c 0#6 us).1).drop (2 * t) =
      k * sym (convOut1 c (coderWindow c us t)) :: k * sym (convOut2 c (coderWindow c us t)) ::
        (symbolsOf k (convBits c 0#6 us).1).drop (2 * (t + 1)) := by
  have hsplit := convBits_append_cons c 0#6 (us.take t) (us.getD t false) (us.drop (t + 1))
  rw [← eq_take_append_getD_cons ht] at hsplit
  have hlen : (convBits c 0#6 (us.take t)).1.length = 2 * t := by
    rw [length_convBits, List.length_take, Nat.min_eq_left ht.le]
  rw [symbolsOf, ← List.map_drop, ← List.map_drop, Nat.mul_succ, ← List.drop_drop, hsplit, List.drop_left' hlen]
  rfl

end

/-! ## Survivors -/

/-- Tracing back from the coder's state after `t` pairs reads the bits of the frame. -/
structure Survivors (c : Cfg) (us : List Bit) (t : Nat) (surv : List (BitVec 64)) : Prop where
  length : surv.length = t
  reads : ∀ m, m ≤ t → traceback (surv.drop m).reverse (coderState c us t) [] = (us.take t).drop m

theorem Survivors.nil (c : Cfg) (us : List Bit) : Survivors c us 0 [] :=
  ⟨rfl, fun _ _ => by rw [List.drop_nil, List.take_zero, List.drop_nil]; rfl⟩

theorem Survivors.concat {c : Cfg} {us : List Bit} {t : Nat} {surv : List (BitVec 64)} {dec : BitVec 64}
    (h : Survivors c us t surv) (ht : t < us.length)
    (hdec : survivorPred dec (coderState c us (t + 1)) = coderState c us t) :
    Survivors c us (t + 1) (surv ++ [dec]) := by
  refine ⟨by rw [List.length_append, h.length, List.length_singleton], fun m hm => ?_⟩
  obtain hle | rfl := Nat.lt_succ_iff_lt_or_eq.1 (Nat.lt_succ_of_le hm)
  · have hle := Nat.lt_succ_iff.1 hle
    have htake : (us.take t).length = t := by rw [List.length_take, Nat.min_eq_left ht.le]
    rw [List.drop_append_of_le_length (by rw [h.length]; exact hle), List.reverse_append, List.reverse_singleton,
      List.singleton_append, traceback, hdec, getLsbD_coderState_succ ht, traceback_acc, h.reads m hle,
      take_succ_eq_append_getD ht, List.drop_append_of_le_length (by rw [htake]; exact hle)]
  · rw [List.drop_eq_nil_of_le (by simp [h.length]), List.drop_eq_nil_of_le (by simp)]
    rfl

/-- The bits a firing decides are the frame's (R204). -/
theorem Survivors.vitDecide {c : Cfg} {us : List Bit} {t e e' : Nat} {surv : List (BitVec 64)}
    {pm : Vector Metric 64} {m : Soft} (h : Survivors c us t surv) (hpm : CleanMetrics pm (coderState c us t) m)
    (hle : e ≤ e') (he : e' ≤ t) : vitDecide pm surv e e' = (us.take e').drop e := by
  rw [Machine.vitDecide, hpm.bestState_eq, h.reads e (by omega), List.drop_take, List.take_take, List.drop_take]
  congr 1
  omega

/-! ## Packing -/

theorem packBytes_flatMap_bitsOfByte (l : List Byte) : packBytes (l.flatMap bitsOfByte) = (l, []) := by
  induction l with
  | nil => rfl
  | cons x l ih =>
    have hbyte : packBytes (bitsOfByte x) = ([byteOfBits (bitsOfByte x)], []) := rfl
    rw [List.flatMap_cons, packBytes_append (by rw [length_bitsOfByte]), ih, hbyte, byteOfBits_bitsOfByte]
    rfl

/-- Packing in two parts: the bits that remain go in front of the second. -/
theorem packBytes_packBytes (a b : List Bit) :
    packBytes (a ++ b) =
      ((packBytes a).1 ++ (packBytes ((packBytes a).2 ++ b)).1, (packBytes ((packBytes a).2 ++ b)).2) := by
  have hwhole : ((packBytes a).1.flatMap bitsOfByte).length % 8 = 0 := by
    rw [length_flatMap_bitsOfByte]
    omega
  conv_lhs => rw [← flatMap_bitsOfByte_packBytes a]
  rw [List.append_assoc, packBytes_append hwhole, packBytes_flatMap_bitsOfByte]

/-- Deciding the bits from `e` to `e'` of a frame whose first `e` are packed. -/
theorem vitPack_of_decided {pm : Vector Metric 64} {surv : List (BitVec 64)} {us : List Bit} {e e' : Nat}
    (hle : e ≤ e') (hdecide : vitDecide pm surv e e' = (us.take e').drop e) :
    (packBytes (us.take e)).1 ++ (vitPack pm surv (packBytes (us.take e)).2 e e').1 = (packBytes (us.take e')).1 ∧
      (vitPack pm surv (packBytes (us.take e)).2 e e').2 = (packBytes (us.take e')).2 := by
  have hsplit : us.take e' = us.take e ++ (us.take e').drop e := by
    have hdrop := List.take_append_drop e (us.take e')
    rw [List.take_take, Nat.min_eq_left hle] at hdrop
    exact hdrop.symm
  have hpack := packBytes_packBytes (us.take e) ((us.take e').drop e)
  rw [← hsplit] at hpack
  obtain hlt | rfl := Nat.lt_or_eq_of_le hle
  · rw [vitPack, if_pos hlt, hdecide, hpack]
    exact ⟨rfl, rfl⟩
  · rw [vitPack, if_neg (lt_irrefl _)]
    exact ⟨List.append_nil _, rfl⟩

/-! ## The run -/

/-- The receive path without what VITD writes. -/
def undecoded (r : RxPath) : RxPath :=
  { r with qPay := [], qDec := [], vtPm := startMetrics, vtSurv := [], vtAcc := [], vtNout := 0, vtCnt := 0 }

theorem undecoded_vitStart (r : RxPath) : undecoded (vitStart r) = undecoded r := by
  by_cases h : r.vtCnt = 0
  · rw [vitStart_of_first h, undecoded, undecoded]
  · rw [vitStart_of_inside h]

theorem undecoded_vitdFire (c : Cfg) (r : RxPath) : undecoded (vitdFire c r) = undecoded r := by
  rw [vitdFire_frame, undecoded, undecoded]

/-- The receive path once `t` pairs of a frame are processed and `e` of its bits decided. -/
structure Passed (c : Cfg) (before : RxPath) (k : Soft) (us : List Bit) (more : List Soft) (t e : Nat)
    (r : RxPath) : Prop where
  qPay : r.qPay = (symbolsOf k (convBits c 0#6 us).1).drop (2 * t) ++ more
  qDec : r.qDec = before.qDec ++ (packBytes (us.take e)).1
  vtAcc : r.vtAcc = (packBytes (us.take e)).2
  vtNout : r.vtNout = e
  metrics : ∃ m, CleanMetrics r.vtPm (coderState c us t) m
  survivors : Survivors c us t r.vtSurv
  kept : undecoded r = undecoded before

section

variable {c : Config} {before r : RxPath} {k : Soft} {us : List Bit} {more : List Soft} {t e : Nat}

/-- A frame's first pair finds the decoder set anew. -/
theorem Passed.start (hcnt : before.vtCnt = 0) (hq : before.qPay = symbolsOf k (convBits c.toCfg 0#6 us).1 ++ more) :
    Passed c.toCfg before k us more 0 0 (vitStart before) := by
  refine ⟨?_, ?_, ?_, ?_, ⟨0, ?_⟩, ?_, undecoded_vitStart before⟩ <;> rw [vitStart_of_first hcnt]
  · exact hq
  · exact (List.append_nil _).symm
  · rfl
  · exact cleanMetrics_start
  · exact Survivors.nil c.toCfg us

/-- One pair: the coder's state moves on, and the bits decided are packed behind those before. -/
theorem Passed.vitd (h : Passed c.toCfg before k us more t e (vitStart r)) (hk : 0 < k) (ht : t < us.length)
    (hle : e ≤ decidedNext c.toCfg r) (hdecided : decidedNext c.toCfg r ≤ t + 1) :
    Passed c.toCfg before k us more (t + 1) (decidedNext c.toCfg r) (vitdFire c.toCfg r) := by
  obtain ⟨hpay, hdec, hacc, hnout, ⟨m, hpm⟩, hsurv, hkept⟩ := h
  obtain ⟨hpayStart, hdecStart, _⟩ := vitStart_frame r
  have hq := hpayStart.symm.trans hpay
  rw [drop_symbolsOf k ht, List.cons_append, List.cons_append] at hq
  have hfire := vitdFire_of_cons c.toCfg hq
  have hfirePm := congrArg RxPath.vtPm hfire
  have hfireSurv := congrArg RxPath.vtSurv hfire
  have hfirePay := congrArg RxPath.qPay hfire
  simp only at hfirePm hfireSurv hfirePay
  have hclean := hpm.next (c := c) hk windowPred_coderWindow
  have hpred := hpm.survivor (c := c) hk windowPred_coderWindow
  rw [← coderState_succ ht] at hclean hpred
  rw [← hfirePm] at hclean
  have hsurvNext := hsurv.concat ht hpred
  rw [← hfireSurv] at hsurvNext
  obtain ⟨hbytes, hbits⟩ := vitPack_of_decided hle (hsurvNext.vitDecide hclean hle hdecided)
  have hpacked : packedNext c.toCfg r = vitPack (vitdFire c.toCfg r).vtPm (vitdFire c.toCfg r).vtSurv
      (packBytes (us.take e)).2 e (decidedNext c.toCfg r) := by rw [packedNext, hacc, hnout]
  rw [← hpacked] at hbytes hbits
  refine ⟨hfirePay, ?_, hbits, rfl, ⟨_, hclean⟩, hsurvNext, ?_⟩
  · rw [vitdFire_qDec, ← hdecStart, hdec, List.append_assoc, hbytes]
  · rw [undecoded_vitdFire, ← undecoded_vitStart, hkept]

end

theorem decidedAfter_mono (c : Cfg) {t t' : Nat} (h : t ≤ t') : decidedAfter c t ≤ decidedAfter c t' := by
  cases hd : c.vitTb with
  | full => rw [decidedAfter_of_full hd, decidedAfter_of_full hd]
  | window d =>
    rw [decidedAfter_of_window hd, decidedAfter_of_window hd]
    omega

/-- Inside a frame: the path as the next firing finds it. After the last pair: the path itself. -/
def AlongFrame (c : Cfg) (before : RxPath) (k : Soft) (us : List Bit) (more : List Soft) (t : Nat)
    (r : RxPath) : Prop :=
  if t = c.frameDecBits then Passed c before k us more t t r ∧ r.vtCnt = 0
  else Passed c before k us more t (decidedAfter c t) (vitStart r) ∧ r.vtCnt = t

theorem AlongFrame.vitd {c : Config} {before r : RxPath} {k : Soft} {us : List Bit} {more : List Soft} {t : Nat}
    (h : AlongFrame c.toCfg before k us more t r) (hk : 0 < k) (hlen : us.length = c.frameDecBits)
    (ht : t < c.frameDecBits) : AlongFrame c.toCfg before k us more (t + 1) (vitdFire c.toCfg r) := by
  rw [AlongFrame, if_neg ht.ne] at h
  obtain ⟨hpassed, hcnt⟩ := h
  obtain ⟨_, _, hcntStart⟩ := vitStart_frame r
  have hnext : decidedNext c.toCfg r =
      if t + 1 = c.frameDecBits then c.frameDecBits else decidedAfter c.toCfg (t + 1) := by
    rw [decidedNext, hpassed.vtNout, hcntStart, hcnt, max_bitsDecided c ht]
  have hle : decidedAfter c.toCfg t ≤ decidedNext c.toCfg r := by
    rw [← hpassed.vtNout]
    exact le_max_left _ _
  have hdecided : decidedNext c.toCfg r ≤ t + 1 := by
    rw [hnext]
    split
    · next hlast => exact hlast.ge
    · exact decidedAfter_le c _
  have hfired := hpassed.vitd hk (hlen ▸ ht) hle hdecided
  have hcntNext : (vitdFire c.toCfg r).vtCnt = countTo t c.frameDecBits := by rw [vitdFire_vtCnt, hcnt]
  rw [AlongFrame]
  split
  · next hlast =>
    rw [hnext, if_pos hlast, ← hlast] at hfired
    exact ⟨hfired, by rw [hcntNext, countTo, if_pos hlast]⟩
  · next hinside =>
    have hone : (vitdFire c.toCfg r).vtCnt = t + 1 := by rw [hcntNext, countTo, if_neg hinside]
    rw [hnext, if_neg hinside] at hfired
    rw [vitStart_of_inside (by rw [hone]; exact Nat.succ_ne_zero t)]
    exact ⟨hfired, hone⟩

/-- The room that the run leaves for each firing (R204; log 14). -/
theorem AlongFrame.vitdEnabled {s : State} {r : RxPath} {k : Soft} {us : List Bit} {more : List Soft} {t : Nat}
    (h : AlongFrame s.cfg.toCfg s.rx k us more t r) (hen : s.rxEn = true) (hlen : us.length = s.cfg.frameDecBits)
    (hroom : RoomFor s.cfg.qdepth.dec s.rx.qDec.length
      (255 * s.cfg.nb + decidedAfter s.cfg.toCfg (2040 * s.cfg.nb - 1) / 8)) (ht : t < s.cfg.frameDecBits) :
    (s.setRx r).enabled .vitd = true := by
  rw [AlongFrame, if_neg ht.ne] at h
  obtain ⟨hpassed, _⟩ := h
  obtain ⟨hpay, hdec, _⟩ := vitStart_frame r
  have hlenDec : r.qDec.length = s.rx.qDec.length + decidedAfter s.cfg.toCfg t / 8 := by
    rw [← hdec, hpassed.qDec, List.length_append, length_packBytes_fst, List.length_take, Nat.min_eq_left]
    exact (decidedAfter_le s.cfg t).trans (hlen ▸ ht.le)
  have hmono : decidedAfter s.cfg.toCfg t ≤ decidedAfter s.cfg.toCfg (2040 * s.cfg.nb - 1) :=
    decidedAfter_mono s.cfg.toCfg (Nat.le_sub_one_of_lt ht)
  have hneed : vitdRoom s.cfg.toCfg r ≤ 255 * s.cfg.nb := vitdRoom_le s.cfg r
  refine (s.setRx r).vitdEnabled_iff.2 ⟨hen, ?_, hroom.mono ?_⟩
  · rw [State.setRx_rx, ← hpay, hpassed.qPay, drop_symbolsOf k (hlen ▸ ht), List.cons_append, List.cons_append,
      List.length_cons, List.length_cons]
    omega
  · rw [State.setRx_rx, State.setRx_cfg, hlenDec]
    omega

/-- R209: the decoder gives back the frame. -/
theorem stepRun_vitd {s : State} {k : Soft} {f : List Byte} {more : List Soft} {rest : List Slot} (hk : 0 < k)
    (hlen : f.length = 255 * s.cfg.nb) (hen : s.rxEn = true) (hcnt : s.rx.vtCnt = 0)
    (hq : s.rx.qPay = symbolsOf k (codedBits s.cfg.toCfg f) ++ more)
    (hroom : RoomFor s.cfg.qdepth.dec s.rx.qDec.length
      (255 * s.cfg.nb + decidedAfter s.cfg.toCfg (2040 * s.cfg.nb - 1) / 8))
    (hctl : s.ports.ctl = repeatWord 0x70#8 (2040 * s.cfg.nb) ++ rest) :
    ∃ r, stepRun (2040 * s.cfg.nb) s = .next ((s.setRx r).withLines rest) ∧ r.qPay = more ∧ r.vtCnt = 0 ∧
      r.vtAcc = [] ∧ r.qDec = s.rx.qDec ++ f ∧ undecoded r = undecoded s.rx := by
  have hbits : (f.flatMap bitsOfByte).length = s.cfg.frameDecBits := by
    rw [length_flatMap_bitsOfByte, hlen, Cfg.frameDecBits]
    omega
  have hpos : ¬0 = s.cfg.frameDecBits := (lt_of_lt_of_le (by decide) (Config.frameDecBits_pos s.cfg)).ne
  have hstart : AlongFrame s.cfg.toCfg s.rx k (f.flatMap bitsOfByte) more 0 s.rx := by
    rw [AlongFrame, if_neg hpos, decidedAfter_zero]
    exact ⟨Passed.start hcnt hq, hcnt⟩
  obtain ⟨r, hend, hrun⟩ := rxRun (i := .vitd) (by decide)
    (AlongFrame s.cfg.toCfg s.rx k (f.flatMap bitsOfByte) more) hctl hstart
    fun t r ht h => ⟨h.vitdEnabled hen hbits hroom ht, h.vitd hk hbits ht⟩
  have hfull : 2040 * s.cfg.nb = s.cfg.frameDecBits := rfl
  rw [AlongFrame, if_pos hfull, hfull, ← hbits] at hend
  obtain ⟨⟨hpay, hdec, hacc, _, _, _, hkept⟩, hzero⟩ := hend
  rw [List.take_length, packBytes_flatMap_bitsOfByte] at hdec hacc
  refine ⟨r, hrun, ?_, hzero, hacc, hdec, hkept⟩
  rw [hpay, List.drop_eq_nil_of_le, List.nil_append]
  rw [symbolsOf, List.length_map, length_convBits]

end Sys2Proof.Machine

open Sys2Proof Sys2Proof.Machine in
/-- Settles O44. -/
theorem viterbiIsExactWithoutNoise : Obligations.ViterbiIsExactWithoutNoise := by
  intro s k f more rest hk hlen hen hcnt hq hroom hctl
  obtain ⟨r, hrun, hpay, hzero, hacc, hdec, _⟩ := stepRun_vitd hk hlen hen hcnt hq hroom hctl
  exact ⟨_, hrun, rfl, hpay, hzero, hacc, hdec⟩
end

