-- ==== Sys2Proof/Proofs/CleanSyncFrame.lean ====
section
/-! R92, R195 (b): a clean sync frame of `CFG_REF` through the whole receive path. The window's correlation stays below the
threshold until the whole sync word stands in it (R196); from the lock on each stage's run is that of its own file. -/

namespace Sys2Proof.Machine

/-! ## Hunting -/

/-- The window once `m` of the symbols `xs` have come into an empty one. -/
def windowAfter (xs : List Soft) (m : Nat) : Vector Soft 32 := (xs.take m).foldl windowPush zeroWindow

theorem windowAfter_succ {xs : List Soft} {m : Nat} (h : m < xs.length) :
    windowAfter xs (m + 1) = windowPush (windowAfter xs m) xs[m] := by
  rw [windowAfter, ← List.take_concat_get' xs m h, List.foldl_append]
  rfl

/-- The receive path `m` symbols into a hunt that locks at the 32nd. -/
def huntPath (c : Cfg) (before : RxPath) (xs more : List Soft) (m : Nat) : RxPath :=
  if m = 32 then lockedRx c { before with qSym := more } (correlation c (windowAfter xs 32))
  else { before with qSym := xs.drop m ++ more, dfWin := windowAfter xs m }

theorem defrFire_huntPath {c : Cfg} {before : RxPath} {xs more : List Soft} (hunt : before.dfState = .hunt)
    (hlen : xs.length = 32)
    (hsilent : ∀ m, m < 31 → ¬c.dfThreshold ≤ |correlation c (windowAfter xs (m + 1))|)
    (hlock : c.dfThreshold ≤ |correlation c (windowAfter xs 32)|) {m : Nat} (hm : m < 32) :
    defrFire c (huntPath c before xs more m) = huntPath c before xs more (m + 1) := by
  have hx : m < xs.length := hlen ▸ hm
  have hpath : huntPath c before xs more m =
      { before with qSym := xs.drop m ++ more, dfWin := windowAfter xs m } := if_neg hm.ne
  have hq : (huntPath c before xs more m).qSym = xs[m] :: (xs.drop (m + 1) ++ more) := by
    rw [hpath]
    exact drop_append_eq_cons hx
  have hstate : (huntPath c before xs more m).dfState = .hunt := by
    rw [hpath]
    exact hunt
  have hwin : windowPush (huntPath c before xs more m).dfWin xs[m] = windowAfter xs (m + 1) := by
    rw [hpath, windowAfter_succ hx]
  rw [defrFire_of_hunt c hstate hq, hwin, hpath]
  obtain hlt | rfl := Nat.lt_or_eq_of_le (Nat.le_of_lt_succ hm)
  · rw [if_neg (hsilent m hlt), huntPath, if_neg (by omega)]
  · have hdrop : xs.drop (31 + 1) = [] := List.drop_eq_nil_of_le hlen.le
    rw [if_pos hlock, huntPath, if_pos rfl, hdrop, List.nil_append]
    rfl

/-- 32 symbols that lock at the last. -/
theorem stepRun_hunt {s : State} {xs more : List Soft} {rest : List Slot} (hen : s.rxEn = true)
    (hunt : s.rx.dfState = .hunt) (hwin : s.rx.dfWin = zeroWindow) (hq : s.rx.qSym = xs ++ more)
    (hlen : xs.length = 32)
    (hsilent : ∀ m, m < 31 → ¬s.cfg.dfThreshold ≤ |correlation s.cfg.toCfg (windowAfter xs (m + 1))|)
    (hlock : s.cfg.dfThreshold ≤ |correlation s.cfg.toCfg (windowAfter xs 32)|)
    (hroom : RoomFor s.cfg.qdepth.pay s.rx.qPay.length 1)
    (hctl : s.ports.ctl = repeatWord 0x60#8 32 ++ rest) :
    stepRun 32 s = .next ((s.setRx (lockedRx s.cfg.toCfg { s.rx with qSym := more }
      (correlation s.cfg.toCfg (windowAfter xs 32)))).withLines rest) := by
  have hstart : s.rx = huntPath s.cfg.toCfg s.rx xs more 0 := by
    have hempty : windowAfter xs 0 = zeroWindow := rfl
    rw [huntPath, if_neg (by decide), hempty, ← hwin, List.drop_zero, ← hq]
  have hrun := rxRun_along (i := .defr) (by decide) (huntPath s.cfg.toCfg s.rx xs more) hctl hstart fun m hm =>
    ⟨(State.defrEnabled_iff _).2 ⟨hen, ?_, ?_⟩, defrFire_huntPath hunt hlen hsilent hlock hm⟩
  · rwa [huntPath, if_pos rfl] at hrun
  · rw [State.setRx_rx, huntPath, if_neg hm.ne, List.length_append, List.length_drop]
    omega
  · rw [State.setRx_rx, huntPath, if_neg hm.ne]
    exact hroom

/-! ## The sync word of `CFG_REF` -/

/-- The scaled symbols of the sync word. -/
theorem getD_symbolsOf_syncBits (c : Cfg) (k : Soft) {j : Nat} (hj : j < 32) :
    (symbolsOf k (syncBits c)).getD j 0 = k * syncSymbol c j := by
  rw [syncBits_eq_map_getLsbD, symbolsOf, List.getD_eq_getElem _ _ (by simpa using hj), List.getElem_map,
    List.getElem_map, List.getElem_range]
  rfl

/-- The correlation `m` symbols into a scaled sync word. -/
theorem correlation_sync (c : Cfg) (k : Soft) {m : Nat} (hm : m ≤ 32) :
    correlation c (windowAfter (symbolsOf k (syncBits c)) m) = k * autocorrelation c (32 - m) := by
  have hlen : ((symbolsOf k (syncBits c)).take m).length = m := by
    rw [List.length_take, symbolsOf, List.length_map, length_syncBits, Nat.min_eq_left hm]
  rw [windowAfter, correlation_foldl_windowPush c (s := 32 - m) (by omega), hlen, autocorrelation, sum_map_range,
    Finset.mul_sum, show 32 - (32 - m) = m by omega]
  refine Finset.sum_congr rfl fun j hj => ?_
  have hjm := Finset.mem_range.1 hj
  rw [List.getD_eq_getElem?_getD, List.getElem?_take_of_lt hjm, ← List.getD_eq_getElem?_getD,
    getD_symbolsOf_syncBits c k (by omega), mul_assoc]

theorem autocorrelation_congr {c c' : Cfg} (h : c.syncWord = c'.syncWord) (s : Nat) :
    autocorrelation c s = autocorrelation c' s := by
  simp only [autocorrelation, syncSymbol, h]

theorem refAutocorrelations_small : ∀ i : Fin 31, |refAutocorrelations.getD i.val 0| < 24 := by decide +kernel

theorem autocorrelation_zero (c : Cfg) : autocorrelation c 0 = 32 := by
  have hone : ∀ j, syncSymbol c j * syncSymbol c (j + 0) = 1 := by
    intro j
    rw [Nat.add_zero, syncSymbol, sym]
    split <;> norm_num
  simp only [autocorrelation, hone, sum_map_range]
  norm_num

theorem abs_polarity {k : Soft} (hk : k = 1 ∨ k = -1) : |k| = 1 := by
  obtain rfl | rfl := hk
  · exact abs_one
  · rw [abs_neg, abs_one]

/-- R196: before the last symbol of the sync word the correlation is below 24. -/
theorem correlation_sync_silent {c : Cfg} {k : Soft} (hsync : c.syncWord = (Cfg.refWith 9).syncWord)
    (hk : k = 1 ∨ k = -1) {m : Nat} (hm : m < 31) :
    |correlation c (windowAfter (symbolsOf k (syncBits c)) (m + 1))| < 24 := by
  have hvalue := autocorrelation_ref ⟨30 - m, by omega⟩
  have hsmall := refAutocorrelations_small ⟨30 - m, by omega⟩
  rw [correlation_sync c k (by omega), abs_mul, abs_polarity hk, one_mul,
    autocorrelation_congr (c' := Config.ref.toCfg) hsync, show 32 - (m + 1) = 30 - m + 1 by omega, hvalue]
  exact_mod_cast hsmall

/-- At its last symbol it is 32, with the sign of the polarity. -/
theorem correlation_sync_full (c : Cfg) (k : Soft) :
    correlation c (windowAfter (symbolsOf k (syncBits c)) 32) = k * 32 := by
  rw [correlation_sync c k le_rfl, autocorrelation_zero]

/-! ## The payload symbols -/

/-- Polarity and key stream removed, a symbol is that of the coded bit. -/
theorem repaired_polarity {k : Soft} (hk : k = 1 ∨ k = -1) (b key : Bit) :
    (if decide (k < 0) = key then k * sym (b ^^ key) else -(k * sym (b ^^ key))) = 1 * sym b := by
  obtain rfl | rfl := hk <;> cases b <;> cases key <;> norm_num [sym]

theorem repaired_symbols (c : Cfg) {k : Soft} (hk : k = 1 ∨ k = -1) {coded : List Bit}
    (hlen : coded.length = c.frameCodedBits) :
    (List.range c.frameCodedBits).map (repaired c (decide (k < 0))
        (symbolsOf k (bitsXor coded ((List.range c.frameCodedBits).map (keyBit c))))) = symbolsOf 1 coded := by
  refine List.ext_getElem (by simp [symbolsOf, hlen]) fun i hi _ => ?_
  have hi' : i < c.frameCodedBits := by simpa using hi
  have hsym : (symbolsOf k (bitsXor coded ((List.range c.frameCodedBits).map (keyBit c)))).getD i 0 =
      k * sym (coded[i] ^^ keyBit c i) := by
    rw [List.getD_eq_getElem _ _ (by simp [symbolsOf, bitsXor, hlen, hi'])]
    simp only [symbolsOf, bitsXor, List.getElem_map, List.getElem_zipWith, List.getElem_range]
  rw [List.getElem_map, List.getElem_range, repaired, hsym, repaired_polarity hk]
  simp only [symbolsOf, List.getElem_map]

/-! ## The frame result -/

/-- The codewords of a frame. -/
def frameBlocks (c : Cfg) (f : List Byte) : List (List Byte) := (List.range c.nb).map (frameCodeword c f)

theorem flatten_frameBlocks (c : Cfg) (f : List Byte) : (frameBlocks c f).flatten = encodedFrame c f :=
  (List.flatMap_def ..).symm

/-- The blocks of a frame, back to back, are the frame. -/
theorem flatMap_blocks (f : List Byte) (n : Nat) :
    (List.range n).flatMap (fun k => (f.drop (223 * k)).take 223) = f.take (223 * n) := by
  induction n with
  | zero => rfl
  | succ n ih =>
    rw [List.range_succ, List.flatMap_append, ih, List.flatMap_singleton, Nat.mul_succ, List.take_add]

theorem rsDecode_frameCodeword (c : Cfg) {f : List Byte} (hlen : f.length = 223 * c.nb) {k : Nat} (hk : k < c.nb) :
    rsDecode c (frameCodeword c f k) = (.ok, (f.drop (223 * k)).take 223) := by
  refine rsDecode_encoded c ?_
  rw [List.length_take, List.length_drop]
  omega

/-- Every block of a clean frame is accepted, and the data is the frame's. -/
theorem frameResult_frameBlocks (c : Cfg) {f : List Byte} (hlen : f.length = 223 * c.nb) :
    frameResult c (frameBlocks c f) = ⟨.ok, f⟩ := by
  have hgood : (frameBlocks c f).any (isUncorrectable c) = false := by
    rw [List.any_eq_false]
    intro block hmem
    obtain ⟨k, hk, rfl⟩ := List.mem_map.1 hmem
    rw [isUncorrectable, rsDecode_frameCodeword c hlen (List.mem_range.1 hk), decide_eq_true_iff]
    exact fun h => by cases h
  have hdata : decodedData c (frameBlocks c f) = f := by
    have hblock : ∀ k ∈ List.range c.nb,
        (rsDecode c (frameCodeword c f k)).2 = (f.drop (223 * k)).take 223 := fun k hk => by
      rw [rsDecode_frameCodeword c hlen (List.mem_range.1 hk)]
    rw [decodedData, frameBlocks, List.flatMap_map, List.flatMap_congr hblock, flatMap_blocks,
      List.take_of_length_le hlen.le]
  rw [frameResult, hgood, hdata]
  rfl

/-! ## The host moves at both ends -/

theorem step_symput {s : State} {xs : List Soft} {rest : List Slot} (hsrc : s.rxSrc = true)
    (hroom : s.cfg.qdepth.sym = none) (hctl : s.ports.ctl = ({ word := 0xF4#8, sym := xs } : Slot) :: rest) :
    step s = .next ((s.setRx { s.rx with qSym := s.rx.qSym ++ xs }).withLines rest) := by
  have hslot : s.slot.sym = xs := by rw [State.slot, hctl]; rfl
  have hdecode : decode s.presented = .op .symput := by
    rw [presented_of_ctl_cons hctl]
    exact decode_encode .symput
  have henabled : s.enabled .symput = true := s.symputEnabled_iff.2 ⟨hsrc, RoomFor.of_none _ _ hroom⟩
  rw [step_of_decode hdecode, exec_of_enabled henabled, done, State.symOperand, hslot, State.advance]
  refine congrArg Host.Outcome.next (congrArg (State.withLines _) ?_)
  show s.ports.ctl.drop 1 = rest
  rw [hctl]
  rfl

theorem step_rxget {s : State} {r : FrameResult} {q : List FrameResult} {rest : List Slot}
    (hq : s.rx.qRxout = r :: q) (hctl : s.ports.ctl = repeatWord 0xF5#8 1 ++ rest) :
    step s = .next (((s.setRx { s.rx with qRxout := q }).emitRxout r).withLines rest) := by
  have hdecode : decode s.presented = .op .rxget := by
    rw [presented_of_ctl_cons hctl]
    exact decode_encode .rxget
  have henabled : s.enabled .rxget = true := s.rxgetEnabled_iff.2 (by rw [hq]; exact List.cons_ne_nil _ _)
  rw [step_of_decode hdecode, exec_of_enabled henabled, done, State.returnFrame_cons hq, State.advance]
  refine congrArg Host.Outcome.next (congrArg (State.withLines _) ?_)
  show s.ports.ctl.drop 1 = rest
  rw [hctl]
  rfl

/-! ## From the lock to the frame result -/

theorem repeatWord_add_append (w : Byte) (m n : Nat) (rest : List Slot) :
    repeatWord w (m + n) ++ rest = repeatWord w m ++ (repeatWord w n ++ rest) := by
  rw [repeatWord, List.replicate_add, List.append_assoc]
  rfl

/-- The payload symbols of the sync frame of `f`, of polarity `k`. -/
def payloadSymbols (c : Cfg) (f : List Byte) (k : Soft) : List Soft :=
  symbolsOf k (bitsXor (codedBits c (encodedFrame c f)) ((List.range c.frameCodedBits).map (keyBit c)))

theorem symbolsOf_wireBits (c : Cfg) (f : List Byte) (k : Soft) :
    symbolsOf k (wireBits c f) = symbolsOf k (syncBits c) ++ payloadSymbols c f k := List.map_append

theorem setRx_withLines_setRx (s : State) (r r' : RxPath) (l l' : List Slot) :
    (((s.setRx r).withLines l).setRx r').withLines l' = (s.setRx r').withLines l' := rfl

/-- A receive path just locked on a clean frame of polarity `k`, everything behind `DEFR` empty. -/
structure FreshLock (c : Cfg) (f : List Byte) (k : Soft) (r : RxPath) : Prop where
  dfState : r.dfState = .lock
  dfCnt : r.dfCnt = 0
  dfScr : r.dfScr = c.scrSeed
  dfInv : r.dfInv = decide (k < 0)
  qSym : r.qSym = payloadSymbols c f k
  qPay : r.qPay = []
  qDec : r.qDec = []
  qRxout : r.qRxout = []
  vtCnt : r.vtCnt = 0
  rsdBlk : r.rsdBlk = 0
  rsdBad : r.rsdBad = false
  rsdBuf : r.rsdBuf = []

theorem length_codedBits_encodedFrame (c : Cfg) {f : List Byte} (hlen : f.length = 223 * c.nb) :
    (codedBits c (encodedFrame c f)).length = c.frameCodedBits := by
  rw [length_codedBits, length_encodedFrame c hlen, Cfg.frameCodedBits]
  omega

/-- `DEFR`, `VITD` and `RSDEC` over a clean frame. -/
theorem stepRun_clean_frame {s : State} {f : List Byte} {k : Soft} {rest : List Slot}
    (h : FreshLock s.cfg.toCfg f k s.rx) (hk : k = 1 ∨ k = -1) (hdepth : s.cfg.qdepth = .unbounded)
    (hlen : f.length = 223 * s.cfg.nb) (hen : s.rxEn = true)
    (hctl : s.ports.ctl = repeatWord 0x60#8 (4080 * s.cfg.nb) ++ (repeatWord 0x70#8 (2040 * s.cfg.nb) ++
      (repeatWord 0x80#8 s.cfg.nb ++ rest))) :
    ∃ r, stepRun (4080 * s.cfg.nb + 2040 * s.cfg.nb + s.cfg.nb) s = .next ((s.setRx r).withLines rest) ∧
      r.qRxout = [⟨.ok, f⟩] ∧ r.dfInv = decide (k < 0) := by
  have hnone : s.cfg.qdepth.pay = none ∧ s.cfg.qdepth.dec = none ∧ s.cfg.qdepth.rxout = none := by
    rw [hdepth]
    exact ⟨rfl, rfl, rfl⟩
  obtain ⟨hroomPay, hroomDec, hroomRxout⟩ := hnone
  have hcoded := length_codedBits_encodedFrame s.cfg.toCfg hlen
  have hxs : s.rx.qSym.length = 4080 * s.cfg.nb := by
    rw [h.qSym, payloadSymbols, symbolsOf, List.length_map, length_bitsXor (by simp [hcoded]), hcoded, Cfg.frameCodedBits]
  have hlock := stepRun_lock hen h.dfState h.dfCnt h.dfScr (List.append_nil s.rx.qSym).symm hxs
    (RoomFor.of_none _ _ hroomPay) hctl
  have hpay : (lockPath s.cfg.toCfg s.rx s.rx.qSym [] s.cfg.frameCodedBits).qPay =
      symbolsOf 1 (codedBits s.cfg.toCfg (encodedFrame s.cfg.toCfg f)) ++ [] := by
    have hrepaired := repaired_symbols s.cfg.toCfg hk hcoded
    rw [← payloadSymbols, ← h.dfInv, ← h.qSym] at hrepaired
    rw [List.append_nil, ← hrepaired, lockPath, h.qPay, List.nil_append]
  obtain ⟨r, hvit, _, _, _, hdec, hkept⟩ := stepRun_vitd
    (s := (s.setRx (lockPath s.cfg.toCfg s.rx s.rx.qSym [] s.cfg.frameCodedBits)).withLines
      (repeatWord 0x70#8 (2040 * s.cfg.nb) ++ (repeatWord 0x80#8 s.cfg.nb ++ rest)))
    one_pos (length_encodedFrame s.cfg.toCfg hlen) hen h.vtCnt hpay (RoomFor.of_none _ _ hroomDec) rfl
  rw [setRx_withLines_setRx] at hvit
  have hdecoded : r.qDec = (frameBlocks s.cfg.toCfg f).flatten ++ [] := by
    rw [flatten_frameBlocks, List.append_nil, hdec]
    exact congrArg (· ++ _) h.qDec
  have hout : r.qRxout = [] := (congrArg RxPath.qRxout hkept).trans h.qRxout
  have hinv : r.dfInv = decide (k < 0) := (congrArg RxPath.dfInv hkept).trans h.dfInv
  have hblk : r.rsdBlk = 0 := (congrArg RxPath.rsdBlk hkept).trans h.rsdBlk
  have hbad : r.rsdBad = false := (congrArg RxPath.rsdBad hkept).trans h.rsdBad
  have hbuf : r.rsdBuf = [] := (congrArg RxPath.rsdBuf hkept).trans h.rsdBuf
  have hblocks : ∀ b ∈ frameBlocks s.cfg.toCfg f, b.length = 255 := by
    intro b hb
    obtain ⟨i, hi, rfl⟩ := List.mem_map.1 hb
    exact length_frameCodeword s.cfg.toCfg hlen (List.mem_range.1 hi)
  have hrsd := stepRun_blocks (s := (s.setRx r).withLines (repeatWord 0x80#8 s.cfg.nb ++ rest))
    hen hblk hbad hbuf (by simp [frameBlocks]) hblocks hdecoded (RoomFor.of_none _ _ hroomRxout) rfl
  rw [setRx_withLines_setRx] at hrsd
  refine ⟨_, stepRun_trans (stepRun_trans hlock hvit) hrsd, ?_, hinv⟩
  show r.qRxout ++ [frameResult s.cfg.toCfg (frameBlocks s.cfg.toCfg f)] = _
  rw [hout, frameResult_frameBlocks s.cfg.toCfg hlen, List.nil_append]

/-! ## From reset to the lock -/

theorem dfWin_of_atReset {c : Cfg} {r : RxPath} (h : RxAtReset c r) : r.dfWin = zeroWindow :=
  Vector.ext fun j hj => (h.dfWin ⟨j, hj⟩).trans (zeroWindow_get j hj).symm

/-- The lock at the end of a clean sync word, from a receive path at reset. -/
theorem FreshLock.of_reset {c : Cfg} {f : List Byte} {k : Soft} {r : RxPath} (h : RxAtReset c r) :
    FreshLock c f k (lockedRx c { r with qSym := payloadSymbols c f k } (k * 32)) := by
  have hsign : decide (k * 32 < 0) = decide (k < 0) := by
    simp only [mul_neg_iff, Nat.ofNat_pos, not_lt_of_gt, and_false, and_true, false_or]
  exact ⟨rfl, rfl, rfl, hsign, rfl, h.qPay, h.qDec, h.qRxout, h.vtCnt, h.rsdBlk, h.rsdBad, h.rsdBuf⟩

/-- A clean sync frame put, and its sync word hunted through: the path locks at the word's last symbol. -/
theorem stepRun_clean_sync {s : State} {nb : Nat} {f : List Byte} {k : Soft} {rest : List Slot}
    (hcfg : s.cfg.toCfg = Cfg.refWith nb) (hk : k = 1 ∨ k = -1) (hen : s.rxEn = true) (hsrc : s.rxSrc = true)
    (hreset : RxAtReset s.cfg.toCfg s.rx)
    (hctl : s.ports.ctl = ({ word := 0xF4#8, sym := symbolsOf k (wireBits s.cfg.toCfg f) } : Slot) ::
      (repeatWord 0x60#8 32 ++ rest)) :
    stepRun (1 + 32) s = .next ((s.setRx (lockedRx s.cfg.toCfg
      { s.rx with qSym := payloadSymbols s.cfg.toCfg f k } (k * 32))).withLines rest) := by
  have hdepth : s.cfg.qdepth = .unbounded := congrArg Cfg.qdepth hcfg
  have hsync : s.cfg.syncWord = (Cfg.refWith 9).syncWord := (congrArg Cfg.syncWord hcfg).trans rfl
  have hthreshold : s.cfg.dfThreshold = 24 := congrArg Cfg.dfThreshold hcfg
  have hnone : s.cfg.qdepth.sym = none ∧ s.cfg.qdepth.pay = none := by
    rw [hdepth]
    exact ⟨rfl, rfl⟩
  obtain ⟨hroomSym, hroomPay⟩ := hnone
  have hwin := dfWin_of_atReset hreset
  have hfull := correlation_sync_full s.cfg.toCfg k
  have hput := stepRun_one (step_symput hsrc hroomSym hctl)
  rw [hreset.qSym, List.nil_append] at hput
  have hhunt := stepRun_hunt
    (s := (s.setRx { s.rx with qSym := symbolsOf k (wireBits s.cfg.toCfg f) }).withLines
      (repeatWord 0x60#8 32 ++ rest))
    hen hreset.dfState hwin (symbolsOf_wireBits s.cfg.toCfg f k)
    (by rw [symbolsOf, List.length_map, length_syncBits])
    (fun m hm => not_le.2 (lt_of_lt_of_eq (correlation_sync_silent hsync hk hm) hthreshold.symm))
    (hthreshold.trans_le (by
      rw [State.withLines_cfg, State.setRx_cfg, hfull, abs_mul, abs_polarity hk]
      norm_num))
    (RoomFor.of_none _ _ hroomPay) rfl
  rw [setRx_withLines_setRx, State.withLines_cfg, State.setRx_cfg, hfull] at hhunt
  exact stepRun_trans hput hhunt

end Sys2Proof.Machine

open Sys2Proof Sys2Proof.Machine in
/-- Settles O46: put and hunt, the locked frame, the result handed over. -/
theorem cleanSyncFrameIsDelivered : Obligations.CleanSyncFrameIsDelivered := by
  intro s nb f k rest hcfg hlen hk hen hsrc hreset hctl
  have hnb : s.cfg.nb = nb := congrArg Cfg.nb hcfg
  have hdepth : s.cfg.qdepth = .unbounded := congrArg Cfg.qdepth hcfg
  subst hnb
  rw [repeatWord_add_append] at hctl
  have hlocked := stepRun_clean_sync hcfg hk hen hsrc hreset hctl
  obtain ⟨r, hframe, hout, hinv⟩ := stepRun_clean_frame
    (s := (s.setRx (lockedRx s.cfg.toCfg
      { s.rx with qSym := payloadSymbols s.cfg.toCfg f k } (k * 32))).withLines
        (repeatWord 0x60#8 (4080 * s.cfg.nb) ++ (repeatWord 0x70#8 (2040 * s.cfg.nb) ++
          (repeatWord 0x80#8 s.cfg.nb ++ (repeatWord 0xF5#8 1 ++ rest)))))
    (FreshLock.of_reset hreset) hk hdepth hlen hen rfl
  rw [setRx_withLines_setRx] at hframe
  have hget := stepRun_one (step_rxget (s := (s.setRx r).withLines (repeatWord 0xF5#8 1 ++ rest)) hout rfl)
  have hcount : 1 + (32 + 4080 * s.cfg.nb) + 2040 * s.cfg.nb + s.cfg.nb + 1 =
      1 + 32 + (4080 * s.cfg.nb + 2040 * s.cfg.nb + s.cfg.nb) + 1 := by omega
  rw [hcount]
  exact ⟨_, stepRun_trans (stepRun_trans hlocked hframe) hget, rfl, rfl, hinv, rfl⟩
end
